-- ==== Sys2Proof/Word.lean ====
section
/-! DEFINITION. The words of the command port and the binary64 encoding's carrier type
(spec/00_scope.md R6, R8; spec/30_encoding.md R80). -/

namespace Sys2Proof

/-- The command word CMD (R80). -/
abbrev Word32 := BitVec 32

/-- WDATA, RDATA and every 64-bit register (R80, R62). -/
abbrev Word64 := BitVec 64

/-- An IEEE 754 binary64 value, held as its 64-bit interchange encoding (spec/10_state.md R43). -/
abbrev F64 := BitVec 64

/-- One encoded ADPCM sample (spec/41_adpcm.md R112). -/
abbrev Nibble := BitVec 4

/-- One encoded ADPCM byte (spec/41_adpcm.md R111). -/
abbrev Byte := BitVec 8

end Sys2Proof
end

