-- ==== Sys2Proof/Syntax.lean ====
section
/-! DEFINITION. The syntax of the command port: transactions, register names, and the twelve commands
of spec/opcode_table.json with the operands CMD and WDATA give them (spec/30_encoding.md R80 to R87). -/

namespace Sys2Proof

/-- What the host presents in one transaction (R80). -/
structure Transaction where
  cmd : Word32
  wdata : Word64
  deriving DecidableEq, Repr

/-- The named registers of the register space (R84). -/
inductive Reg where
  | pred | sidx
  | algo | cutoff | qreg | srate | gainDb
  | a0 | a1 | a2 | b1 | b2 | c0 | d0
  | s0 | s1 | gainLin
  | errlog | valid
  deriving DecidableEq, Repr

/-- The operation codes R83 lists. -/
inductive Opcode where
  | nop | adInit | adNib | adByte | regWr | regRd
  | bqCalc | gainCalc | bqClr | bqProc | bqProcr | reset
  deriving DecidableEq, Repr

/-- A command as OPC alone selects it (R83).
`rsvd` is the slice of CMD that the command's format requires to be 0 (R82): CMD[23:0] for format N,
CMD[15:0] for R, CMD[23:8] for B, CMD[23:4] for H.
The command itself checks that slice (R83, R89), so it is an operand here.
The WDATA bits a command ignores (R87) are no operand of it. -/
inductive Instr where
  | nop (rsvd : BitVec 24)
  | adInit (rsvd : BitVec 24)
  | adNib (rsvd : BitVec 20) (n : Nibble)
  | adByte (rsvd : BitVec 16) (b : Byte)
  | regWr (rsel : BitVec 8) (rsvd : BitVec 16) (w : Word64)
  | regRd (rsel : BitVec 8) (rsvd : BitVec 16)
  | bqCalc (rsvd : BitVec 24)
  | gainCalc (rsvd : BitVec 24)
  | bqClr (rsvd : BitVec 24)
  | bqProc (rsvd : BitVec 24) (v : BitVec 32)
  | bqProcr (rsvd : BitVec 24) (x : F64)
  | reset (rsvd : BitVec 24)
  deriving DecidableEq, Repr

end Sys2Proof
end

