-- ==== Sys2Proof/Decode.lean ====
section
/-! DEFINITION. The decoder and the encoder of the command word (spec/30_encoding.md R80 to R89).
OPC alone selects the command (R83); every transaction decodes to a command or is refused by the name
illegalOpcode (R88). -/

namespace Sys2Proof

/-- OPC = CMD[31:24] (R81). -/
def opcField (cmd : Word32) : BitVec 8 := cmd.extractLsb' 24 8

/-- RSEL = CMD[23:16] (R81). -/
def rselField (cmd : Word32) : BitVec 8 := cmd.extractLsb' 16 8

/-- The operation code of an OPC value; none for the illegal values of R88. -/
def opcodeOfByte (opc : BitVec 8) : Option Opcode :=
  match opc with
  | 0x00#8 => some .nop
  | 0x01#8 => some .adInit
  | 0x02#8 => some .adNib
  | 0x03#8 => some .adByte
  | 0x10#8 => some .regWr
  | 0x11#8 => some .regRd
  | 0x20#8 => some .bqCalc
  | 0x21#8 => some .gainCalc
  | 0x22#8 => some .bqClr
  | 0x23#8 => some .bqProc
  | 0x24#8 => some .bqProcr
  | 0x30#8 => some .reset
  | _ => none

/-- The OPC value of an operation code (R83). -/
def byteOfOpcode : Opcode → BitVec 8
  | .nop => 0x00#8
  | .adInit => 0x01#8
  | .adNib => 0x02#8
  | .adByte => 0x03#8
  | .regWr => 0x10#8
  | .regRd => 0x11#8
  | .bqCalc => 0x20#8
  | .gainCalc => 0x21#8
  | .bqClr => 0x22#8
  | .bqProc => 0x23#8
  | .bqProcr => 0x24#8
  | .reset => 0x30#8

/-- What a transaction decodes to. -/
inductive Decoded where
  | instr (i : Instr)
  | illegalOpcode (opc : BitVec 8)
  deriving DecidableEq, Repr

/-- The command a listed OPC selects, with its operands taken from CMD (R85) and WDATA (R86). -/
def operandsOf (op : Opcode) (t : Transaction) : Instr :=
  match op with
  | .nop => .nop (t.cmd.extractLsb' 0 24)
  | .adInit => .adInit (t.cmd.extractLsb' 0 24)
  | .adNib => .adNib (t.cmd.extractLsb' 4 20) (t.cmd.extractLsb' 0 4)
  | .adByte => .adByte (t.cmd.extractLsb' 8 16) (t.cmd.extractLsb' 0 8)
  | .regWr => .regWr (rselField t.cmd) (t.cmd.extractLsb' 0 16) t.wdata
  | .regRd => .regRd (rselField t.cmd) (t.cmd.extractLsb' 0 16)
  | .bqCalc => .bqCalc (t.cmd.extractLsb' 0 24)
  | .gainCalc => .gainCalc (t.cmd.extractLsb' 0 24)
  | .bqClr => .bqClr (t.cmd.extractLsb' 0 24)
  | .bqProc => .bqProc (t.cmd.extractLsb' 0 24) (t.wdata.extractLsb' 0 32)
  | .bqProcr => .bqProcr (t.cmd.extractLsb' 0 24) t.wdata
  | .reset => .reset (t.cmd.extractLsb' 0 24)

/-- Decoding: total, by OPC alone (R83, R88). -/
def decode (t : Transaction) : Decoded :=
  match opcodeOfByte (opcField t.cmd) with
  | some op => .instr (operandsOf op t)
  | none => .illegalOpcode (opcField t.cmd)

/-- The operation code of a command (R83). -/
def opcodeOf : Instr → Opcode
  | .nop _ => .nop
  | .adInit _ => .adInit
  | .adNib _ _ => .adNib
  | .adByte _ _ => .adByte
  | .regWr _ _ _ => .regWr
  | .regRd _ _ => .regRd
  | .bqCalc _ => .bqCalc
  | .gainCalc _ => .gainCalc
  | .bqClr _ => .bqClr
  | .bqProc _ _ => .bqProc
  | .bqProcr _ _ => .bqProcr
  | .reset _ => .reset

/-- CMD[23:0] of a command (R81, R82). -/
def lowField : Instr → BitVec 24
  | .nop rsvd => rsvd
  | .adInit rsvd => rsvd
  | .adNib rsvd n => rsvd ++ n
  | .adByte rsvd b => rsvd ++ b
  | .regWr rsel rsvd _ => rsel ++ rsvd
  | .regRd rsel rsvd => rsel ++ rsvd
  | .bqCalc rsvd => rsvd
  | .gainCalc rsvd => rsvd
  | .bqClr rsvd => rsvd
  | .bqProc rsvd _ => rsvd
  | .bqProcr rsvd _ => rsvd
  | .reset rsvd => rsvd

/-- WDATA of a command as the text forms of R92 give it: 0 where the form has none. -/
def wdataField : Instr → Word64
  | .regWr _ _ w => w
  | .bqProc _ v => v.signExtend 64
  | .bqProcr _ x => x
  | .nop _ => 0
  | .adInit _ => 0
  | .adNib _ _ => 0
  | .adByte _ _ => 0
  | .regRd _ _ => 0
  | .bqCalc _ => 0
  | .gainCalc _ => 0
  | .bqClr _ => 0
  | .reset _ => 0

/-- Encoding: CMD = OPC << 24 | the low fields (R81), with the WDATA of R92. -/
def encode (i : Instr) : Transaction :=
  ⟨byteOfOpcode (opcodeOf i) ++ lowField i, wdataField i⟩

/-- The transaction a row of spec/opcode_table.json stands for: CMD is bits 31..0 of the number and
WDATA counts on from it, so it is 0 for the table's 32-bit rows (log entry 18). -/
def transactionOfTableWord (nbits w : Nat) : Transaction :=
  ⟨BitVec.ofNat 32 (w % 2 ^ nbits), BitVec.ofNat 64 (w % 2 ^ nbits / 2 ^ 32)⟩

/-- The instruction the decoder reads from a row's word. -/
def decodeTableWord (nbits w : Nat) : Option Instr :=
  match decode (transactionOfTableWord nbits w) with
  | .instr i => some i
  | .illegalOpcode _ => none

end Sys2Proof
end

