-- ==== Sys2Proof/Config.lean ====
section
/-! DEFINITION. The values the spec leaves open (spec/00_scope.md R7), as uninterpreted constants: no
proof can see what they are, so a claim holds whatever they are.
The functions with the properties of spec/42_biquad.md R156 are built from them in
Machine/Transcendental.lean, the quiet NaN encodings of R153 in Machine/Float.lean. -/

namespace Sys2Proof.Config

/-- What the platform's sine returns where R156 leaves its value open (log entry 7). -/
opaque rawSin : F64 → F64

/-- What the platform's cosine returns where R156 leaves its value open (log entry 7). -/
opaque rawCos : F64 → F64

/-- What the platform's power of ten returns where R156 leaves its value open (log entry 7). -/
opaque rawPow10 : F64 → F64

/-- The sign and payload of the NaN that operation number `op` of draw number `draw` produces
(NAN_BITS, R153; log entry 8). -/
opaque freeNaN : Nat → Nat → BitVec 52

/-- The step size at a step index that the table does not have (no run reaches one, spec/10_state.md
R39; log entry 6). -/
opaque stepOutsideTable : Int → Nat

end Sys2Proof.Config
end

