-- ==== Sys2Proof/Machine/Tables.lean ====
section
/-! DEFINITION. The two lookup tables of the ADPCM unit (spec/10_state.md R24 to R27). -/

namespace Sys2Proof.Machine

/-- IDX_TABLE, the index-adjustment table keyed by the full nibble (R24). -/
def idxTable : Vector Int 16 := #v[-1, -1, -1, -1, 2, 4, 6, 8, -1, -1, -1, -1, 2, 4, 6, 8]

/-- The default of the parameter STEP_TABLE (R25; log entry 5). -/
def stepTableDefault : Vector Nat 49 :=
  #v[16, 17, 19, 21, 23, 25, 28, 31, 34, 37,
     41, 45, 50, 55, 60, 66, 73, 80, 88, 97,
     107, 118, 130, 143, 157, 173, 190, 209, 230, 253,
     279, 307, 337, 371, 408, 449, 494, 544, 598, 658,
     724, 796, 876, 963, 1060, 1166, 1282, 1411, 1552]

/-- What every STEP_TABLE must satisfy besides its 49 entries (R26). -/
abbrev tableAdmissible (t : Vector Nat 49) : Prop :=
  t[0] = 16 ∧ t[48] = 1552 ∧ ∀ i : Fin 48, t[i.val] < t[i.val + 1]

end Sys2Proof.Machine
end

