-- ==== Sys2Proof/Machine/State.lean ====
section
/-! DEFINITION. The state of one instance and of its host's side of the command port, as plain data, and
the state after reset (spec/10_state.md R20 to R43, spec/70_reset_and_hazards.md R261). -/

namespace Sys2Proof.Machine

/-- The registers of one instance, exactly those of R42.
A binary64 register holds its 64-bit encoding (R43). -/
structure Regs where
  /-- PRED (R22) -/
  pred : BitVec 16
  /-- SIDX (R23) -/
  sidx : BitVec 16
  /-- ALGO (R28) -/
  algo : Word64
  /-- CUTOFF (R29) -/
  cutoff : F64
  /-- QREG (R30) -/
  qreg : F64
  /-- SRATE (R31); it keeps w[31:0] of the word written (spec/43_control.md R204) -/
  srate : BitVec 32
  /-- GAIN_DB (R32) -/
  gainDb : F64
  /-- A0 to D0 (R33) -/
  a0 : F64
  a1 : F64
  a2 : F64
  b1 : F64
  b2 : F64
  c0 : F64
  d0 : F64
  /-- S0 and S1 (R34) -/
  s0 : F64
  s1 : F64
  /-- GAIN_LIN (R35) -/
  gainLin : F64
  /-- VALID (R36) -/
  valid : Word64
  /-- ERRLOG (R37) -/
  errlog : Word64
  deriving DecidableEq, Repr

/-- The failing status codes of spec/60_exceptions.md R231. -/
inductive Status where
  | illegalOpcode | reservedNonzero | illegalReg | readOnly
  | illegalValue | notConfigured | notImplemented
  deriving DecidableEq, Repr

/-- What a transaction returns (spec/30_encoding.md R80, R95). -/
structure Response where
  status : BitVec 4
  rdata : Word64
  deriving DecidableEq, Repr

/-- What the host does next at an instance's port (spec/70_reset_and_hazards.md R260, R261; log entries
1 and 15). -/
inductive PortEvent where
  /-- The host presents a transaction. -/
  | command (t : Transaction)
  /-- RST is asserted, between commands (none) or while a command is in progress (some). -/
  | rst (inProgress : Option Transaction)
  deriving DecidableEq, Repr

/-- One instance, the storage of its parameter STEP_TABLE, and the host's side of its port. -/
structure State where
  /-- the registers of R42 -/
  regs : Regs
  /-- STEP_TABLE, read-only storage (R25 to R27, spec/20_memory.md R61; log entry 5) -/
  stepTable : Vector Nat 49
  /-- what the host does next at the port, oldest first (log entry 1) -/
  pending : List PortEvent
  /-- the host's index into its command list (R21; log entry 4) -/
  position : Nat
  /-- the responses the host has received, newest first (log entry 3) -/
  responses : List Response
  /-- the model's own counter of the draws of NAN_BITS (log entry 9) -/
  draws : Nat
  deriving DecidableEq, Repr

/-- The reasons a step can stop with a fault: NONE.
Nobody raises one, since the block has no trap and every command completes with a status
(spec/60_exceptions.md R230, R238; log entry 14); safe. -/
inductive Fault where
  deriving DecidableEq, Repr

/-- The reasons the model can give an instruction no meaning. -/
inductive Refusal where
  /-- Raised only by an arm of exec for an instruction that has no meaning yet (there is none now);
  safe: the model stops where the hardware goes on. -/
  | notModelled (mnemonic : String)
  deriving DecidableEq, Repr

/-- How a command ends. -/
abbrev Result := Host.Outcome State Fault Refusal

/-- The reset values of the registers (R41, spec/70_reset_and_hazards.md R261).
The registers R41 leaves unwritten hold 0 here, which no command can read (R40; log entry 10). -/
def regsReset : Regs where
  pred := 0
  sidx := 0
  algo := 3
  cutoff := 0
  qreg := 0
  srate := 0
  gainDb := 0
  a0 := 0
  a1 := 0
  a2 := 0
  b1 := 0
  b2 := 0
  c0 := 0
  d0 := 0
  s0 := 0
  s1 := 0
  gainLin := 0
  valid := 0
  errlog := 0

/-- The machine right after reset: R41's registers, the default STEP_TABLE, and a host that has issued
nothing yet (R21, R262; log entries 2, 3, 4, 5, 9). -/
def State.reset : State where
  regs := regsReset
  stepTable := stepTableDefault
  pending := []
  position := 0
  responses := []
  draws := 0

end Sys2Proof.Machine
end

