-- ==== Sys2Proof/Machine/Flags.lean ====
section
/-! DEFINITION. The two status registers: the fields of VALID (spec/10_state.md R36, R40) and the sticky
bits of ERRLOG (R37, spec/60_exceptions.md R231, R234). -/

namespace Sys2Proof.Machine

/-- The fields of VALID (R36). -/
inductive ValidField where
  | cutoffW | qW | srateW | gdbW | coefV | gainV
  deriving DecidableEq, Repr

/-- The bit of a field (R36). -/
def validBit : ValidField → Nat
  | .cutoffW => 0
  | .qW => 1
  | .srateW => 2
  | .gdbW => 3
  | .coefV => 4
  | .gainV => 5

/-- x[VALID].F (spec/00_scope.md R11). -/
def isValid (r : Regs) (f : ValidField) : Bool := r.valid.getLsbD (validBit f)

/-- x[VALID].F <- 1 -/
def validSet (v : Word64) (f : ValidField) : Word64 := v ||| (1#64 <<< validBit f)

/-- x[VALID].F <- 0 -/
def validClear (v : Word64) (f : ValidField) : Word64 := v &&& ~~~(1#64 <<< validBit f)

/-- The code of a failing status (R231). -/
def statusCode : Status → BitVec 4
  | .illegalOpcode => 1
  | .reservedNonzero => 2
  | .illegalReg => 3
  | .readOnly => 4
  | .illegalValue => 5
  | .notConfigured => 6
  | .notImplemented => 7

/-- ERRLOG[k] <- 1, k the status code (R37, R234). -/
def errlogSet (v : Word64) (k : Status) : Word64 := v ||| (1#64 <<< (statusCode k).toNat)

/-- The field of VALID that covers a register; none for the registers never unwritten (R40). -/
def coveredBy : Reg → Option ValidField
  | .cutoff => some .cutoffW
  | .qreg => some .qW
  | .srate => some .srateW
  | .gainDb => some .gdbW
  | .a0 => some .coefV
  | .a1 => some .coefV
  | .a2 => some .coefV
  | .b1 => some .coefV
  | .b2 => some .coefV
  | .c0 => some .coefV
  | .d0 => some .coefV
  | .gainLin => some .gainV
  | .pred => none
  | .sidx => none
  | .algo => none
  | .s0 => none
  | .s1 => none
  | .errlog => none
  | .valid => none

/-- A register is unwritten when the field that covers it is 0 (R40). -/
def isUnwritten (r : Regs) (x : Reg) : Bool :=
  match coveredBy x with
  | some f => !isValid r f
  | none => false

end Sys2Proof.Machine
end

