-- ==== Sys2Proof/Machine/Float.lean ====
section
/-! DEFINITION. IEEE 754 binary64 arithmetic on encodings (spec/00_scope.md R10, spec/42_biquad.md R151 to
R154; log entry 12).
Every finite binary64 value is an integer multiple of 2^-1074, so each operation computes its exact
result as a fraction of integers, counted in units of 2^-1074, and rounds once, to nearest with ties to even.
An operation takes the encoding `nan` it returns where IEEE 754 gives NaN (R153). -/

namespace Sys2Proof.Machine

/-- +0.0 -/
def posZero : F64 := 0x0000000000000000#64
/-- -0.0 -/
def negZero : F64 := 0x8000000000000000#64
/-- +infinity -/
def posInf : F64 := 0x7FF0000000000000#64
/-- 1.0 -/
def oneF : F64 := 0x3FF0000000000000#64

/-- The sign bit, bit 63 (R43). -/
def fSign (x : F64) : Bool := x.getLsbD 63
/-- The biased exponent, bits 62:52 (R43). -/
def fExp (x : F64) : Nat := (x.extractLsb' 52 11).toNat
/-- The fraction, bits 51:0 (R43). -/
def fFrac (x : F64) : Nat := (x.extractLsb' 0 52).toNat

/-- isFinite: neither an infinity nor a NaN (R10). -/
def fIsFinite (x : F64) : Bool := fExp x != 2047
def fIsNaN (x : F64) : Bool := fExp x == 2047 && fFrac x != 0
def fIsInf (x : F64) : Bool := fExp x == 2047 && fFrac x == 0
/-- +0.0 or -0.0. -/
def fIsZero (x : F64) : Bool := fExp x == 0 && fFrac x == 0

/-- The magnitude of a finite value in units of 2^-1074: subnormals keep their fraction, normals have
the implicit leading bit. -/
def fMag (x : F64) : Nat :=
  if fExp x = 0 then fFrac x else (2 ^ 52 + fFrac x) * 2 ^ (fExp x - 1)

/-- A finite value in units of 2^-1074, exactly. -/
def fVal (x : F64) : Int := if fSign x then -(fMag x : Int) else (fMag x : Int)

/-- 1.0 in units of 2^-1074. -/
@[irreducible] def oneUnits : Nat := 2 ^ 1074

/-- The integer nearest to num/den, ties to even. -/
def roundEven (num den : Nat) : Nat :=
  if 2 * (num % den) < den then num / den
  else if den < 2 * (num % den) then num / den + 1
  else num / den + num / den % 2

/-- The encoding, without its sign, of the magnitude num/den (in units of 2^-1074) rounded to nearest even.
The spacing of the result's binade is 2^k units; a magnitude too large becomes infinity (R152). -/
@[irreducible] def fRoundMag (num den : Nat) : Nat :=
  min ((Nat.log2 (num / den) - 52) * 2 ^ 52 + roundEven num (den * 2 ^ (Nat.log2 (num / den) - 52)))
    0x7FF0000000000000

/-- The rounded value with its sign. -/
def fRound (neg : Bool) (num den : Nat) : F64 :=
  BitVec.ofNat 64 ((if neg then 2 ^ 63 else 0) + fRoundMag num den)

/-- Negation flips the sign bit (R10). -/
def fNeg (x : F64) : F64 := x ^^^ 0x8000000000000000#64

/-- Addition `+f`. -/
def fAdd (nan x y : F64) : F64 :=
  if fIsNaN x || fIsNaN y then nan
  else if fIsInf x then (if fIsInf y && (fSign x != fSign y) then nan else x)
  else if fIsInf y then y
  else if fVal x + fVal y = 0 then (if fSign x && fSign y then negZero else posZero)
  else fRound (decide (fVal x + fVal y < 0)) (fVal x + fVal y).natAbs 1

/-- Subtraction `-f`. -/
def fSub (nan x y : F64) : F64 := fAdd nan x (fNeg y)

/-- An infinity or a zero with the sign of a product or quotient. -/
def fSigned (neg : Bool) (mag : F64) : F64 := if neg then fNeg mag else mag

/-- Multiplication `*f`. -/
def fMul (nan x y : F64) : F64 :=
  if fIsNaN x || fIsNaN y then nan
  else if fIsInf x || fIsInf y then
    (if fIsZero x || fIsZero y then nan else fSigned (fSign x != fSign y) posInf)
  else fRound (fSign x != fSign y) (fMag x * fMag y) oneUnits

/-- Division `/f`. -/
def fDiv (nan x y : F64) : F64 :=
  if fIsNaN x || fIsNaN y then nan
  else if fIsInf x then (if fIsInf y then nan else fSigned (fSign x != fSign y) posInf)
  else if fIsInf y then fSigned (fSign x != fSign y) posZero
  else if fIsZero y then (if fIsZero x then nan else fSigned (fSign x != fSign y) posInf)
  else fRound (fSign x != fSign y) (fMag x * oneUnits) (fMag y)

/-- f64(v), the value of an integer, rounded to nearest even (exact up to 2^53, R10, R154). -/
def fOfInt (v : Int) : F64 :=
  if v = 0 then posZero else fRound (decide (v < 0)) (v.natAbs * oneUnits) 1

/-- The IEEE comparison x <= 0.0 (R158): true of both zeros and of every negative number, false of a NaN. -/
def fLeZero (x : F64) : Bool := !fIsNaN x && (fIsZero x || fSign x)

/-- The quiet NaN encodings: exponent all ones, the top fraction bit 1, sign and payload free. -/
def quietNaN (d : BitVec 52) : F64 := d.extractLsb' 51 1 ++ (0xFFF#12 ++ d.extractLsb' 0 51)

/-- NAN_BITS for operation number `op` of draw number `draw` (R153; log entry 8). -/
def nanBits (draw op : Nat) : F64 := quietNaN (Config.freeNaN draw op)

end Sys2Proof.Machine
end

