-- ==== Sys2Proof/Machine/RegMap.lean ====
section
/-! DEFINITION. The register map of spec/30_encoding.md R84. -/

namespace Sys2Proof.Machine

/-- The register an RSEL value names; every other value is reserved (R84, R90). -/
def regOfRsel (rsel : BitVec 8) : Option Reg :=
  match rsel with
  | 0x00#8 => some .pred
  | 0x01#8 => some .sidx
  | 0x08#8 => some .algo
  | 0x09#8 => some .cutoff
  | 0x0A#8 => some .qreg
  | 0x0B#8 => some .srate
  | 0x0C#8 => some .gainDb
  | 0x10#8 => some .a0
  | 0x11#8 => some .a1
  | 0x12#8 => some .a2
  | 0x13#8 => some .b1
  | 0x14#8 => some .b2
  | 0x15#8 => some .c0
  | 0x16#8 => some .d0
  | 0x18#8 => some .s0
  | 0x19#8 => some .s1
  | 0x1A#8 => some .gainLin
  | 0x1E#8 => some .errlog
  | 0x1F#8 => some .valid
  | _ => none

/-- RSEL(reg), the number of a register (R84). -/
def rselOfReg : Reg → BitVec 8
  | .pred => 0x00#8
  | .sidx => 0x01#8
  | .algo => 0x08#8
  | .cutoff => 0x09#8
  | .qreg => 0x0A#8
  | .srate => 0x0B#8
  | .gainDb => 0x0C#8
  | .a0 => 0x10#8
  | .a1 => 0x11#8
  | .a2 => 0x12#8
  | .b1 => 0x13#8
  | .b2 => 0x14#8
  | .c0 => 0x15#8
  | .d0 => 0x16#8
  | .s0 => 0x18#8
  | .s1 => 0x19#8
  | .gainLin => 0x1A#8
  | .errlog => 0x1E#8
  | .valid => 0x1F#8

end Sys2Proof.Machine
end

