-- ==== Sys2Proof/Machine/Operands.lean ====
section
/-! DEFINITION. The operand forms: nibbles of a byte (spec/41_adpcm.md R111, R112), WDATA operands
(spec/30_encoding.md R86), which registers REG_WR may write and with what (spec/43_control.md R201 to R204),
and the value a register shows on the port (R208). -/

namespace Sys2Proof.Machine

/-- b[7:4], decoded first (R111). -/
def highNibble (b : Byte) : Nibble := b.extractLsb' 4 4
/-- b[3:0], decoded second (R111). -/
def lowNibble (b : Byte) : Nibble := b.extractLsb' 0 4

/-- sign = n[3] (R112). -/
def nibbleSign (n : Nibble) : Bool := n.getLsbD 3
/-- magnitude = n[2:0] (R112). -/
def nibbleMagnitude (n : Nibble) : Int := ((n.extractLsb' 0 3).toNat : Int)

/-- The DecodedSample sext_32(WDATA[31:0]) as an integer (R86). -/
def decodedSample (v : BitVec 32) : Int := v.toInt

/-- The writable registers (R84, R201). -/
inductive Param where
  | algo | cutoff | qreg | srate | gainDb
  deriving DecidableEq, Repr

/-- The parameter a register is; none for a read-only register (R84). -/
def paramOf : Reg → Option Param
  | .algo => some .algo
  | .cutoff => some .cutoff
  | .qreg => some .qreg
  | .srate => some .srate
  | .gainDb => some .gainDb
  | .pred => none
  | .sidx => none
  | .a0 => none
  | .a1 => none
  | .a2 => none
  | .b1 => none
  | .b2 => none
  | .c0 => none
  | .d0 => none
  | .s0 => none
  | .s1 => none
  | .gainLin => none
  | .errlog => none
  | .valid => none

/-- LEGAL(r, w) (R202 to R204). -/
def legalValue (p : Param) (w : Word64) : Bool :=
  match p with
  | .algo => decide (w.toNat ≤ 5)
  | .srate => decide (1 ≤ w.toNat ∧ w.toNat ≤ 2 ^ 32 - 1)
  | .cutoff => fIsFinite w
  | .qreg => fIsFinite w
  | .gainDb => fIsFinite w

/-- PORT_VALUE(r) (R208). -/
def portValue (r : Regs) : Reg → Word64
  | .pred => r.pred.signExtend 64
  | .sidx => r.sidx.zeroExtend 64
  | .algo => r.algo
  | .cutoff => r.cutoff
  | .qreg => r.qreg
  | .srate => r.srate.zeroExtend 64
  | .gainDb => r.gainDb
  | .a0 => r.a0
  | .a1 => r.a1
  | .a2 => r.a2
  | .b1 => r.b1
  | .b2 => r.b2
  | .c0 => r.c0
  | .d0 => r.d0
  | .s0 => r.s0
  | .s1 => r.s1
  | .gainLin => r.gainLin
  | .errlog => r.errlog
  | .valid => r.valid

end Sys2Proof.Machine
end

