-- ==== Sys2Proof/Machine/Ops.lean ====
section
/-! DEFINITION. The named operations the commands share: the register writes, ending a command with a response,
and ending it with a status, which is all this hardware has of exceptions (spec/00_scope.md R11,
spec/60_exceptions.md R230, R233, R238). -/

namespace Sys2Proof.Machine

/-- x[PRED] <- p, x[SIDX] <- i (spec/10_state.md R22, R23). -/
def writeAdpcm (p i : BitVec 16) (r : Regs) : Regs := { r with pred := p, sidx := i }

/-- x[r] <- WDATA of a parameter register; SRATE keeps WDATA[31:0] (spec/43_control.md R201, R204). -/
def storeParam (p : Param) (w : Word64) (r : Regs) : Regs :=
  match p with
  | .algo => { r with algo := w }
  | .cutoff => { r with cutoff := w }
  | .qreg => { r with qreg := w }
  | .srate => { r with srate := w.extractLsb' 0 32 }
  | .gainDb => { r with gainDb := w }

/-- WRITE_EFFECTS(r) on VALID (spec/43_control.md R205). -/
def writeEffects (p : Param) (v : Word64) : Word64 :=
  match p with
  | .algo => validClear v .coefV
  | .cutoff => validClear (validSet v .cutoffW) .coefV
  | .qreg => validClear (validSet v .qW) .coefV
  | .srate => validClear (validSet v .srateW) .coefV
  | .gainDb => validClear (validSet v .gdbW) .gainV

/-- A successful REG_WR's writes: the register and VALID (spec/43_control.md R201, R205). -/
def writeParam (p : Param) (w : Word64) (r : Regs) : Regs :=
  { storeParam p w r with valid := writeEffects p r.valid }

/-- The seven values of FilterCoefficients (spec/10_state.md R33). -/
structure Coeffs where
  a0 : F64
  a1 : F64
  a2 : F64
  b1 : F64
  b2 : F64
  c0 : F64
  d0 : F64
  deriving DecidableEq, Repr

/-- x[A0..D0] <- c, x[VALID].COEF_V <- 1 (spec/42_biquad.md R160). -/
def writeCoeffs (c : Coeffs) (r : Regs) : Regs :=
  { r with
    a0 := c.a0, a1 := c.a1, a2 := c.a2, b1 := c.b1, b2 := c.b2, c0 := c.c0, d0 := c.d0,
    valid := validSet r.valid .coefV }

/-- x[GAIN_LIN] <- g, x[VALID].GAIN_V <- 1 (spec/42_biquad.md R161). -/
def writeGain (g : F64) (r : Regs) : Regs :=
  { r with gainLin := g, valid := validSet r.valid .gainV }

/-- x[S0] <- u, x[S1] <- v (spec/42_biquad.md R162, R163). -/
def writeDelay (u v : F64) (r : Regs) : Regs := { r with s0 := u, s1 := v }

/-- ERRLOG[k] <- 1 (spec/60_exceptions.md R234). -/
def logError (k : Status) (r : Regs) : Regs := { r with errlog := errlogSet r.errlog k }

/-- The state with other registers. -/
def withRegs (r : Regs) (s : State) : State := { s with regs := r }

/-- The state with one more response for the host (spec/30_encoding.md R95). -/
def reply (x : Response) (s : State) : State := { s with responses := x :: s.responses }

/-- The state after one draw of NAN_BITS: the next command that computes draws afresh (log entry 9). -/
def nextDraw (s : State) : State := { s with draws := s.draws + 1 }

/-- respond(v): the command succeeds with RDATA = v and STATUS = OK (spec/00_scope.md R11). -/
def respond (v : Word64) (s : State) : Result := .next (reply ⟨0, v⟩ s)

/-- raise Status(k): the command ends with STATUS = k and RDATA = 0, and writes ERRLOG bit k and nothing else
(spec/60_exceptions.md R233, R234). -/
def raiseStatus (k : Status) (s : State) : Result :=
  .next (reply ⟨statusCode k, 0⟩ (withRegs (logError k s.regs) s))

/-- Every register takes its reset value; the tables do not change (spec/70_reset_and_hazards.md R261). -/
def resetRegs (s : State) : State := withRegs regsReset s

end Sys2Proof.Machine
end

