-- ==== Sys2Proof/Machine/Adpcm.lean ====
section
/-! DEFINITION. The ADPCM unit: DECODE_NIBBLE and the commands AD_INIT, AD_NIB and AD_BYTE
(spec/41_adpcm.md R113 to R123). -/

namespace Sys2Proof.Machine

/-- clamp(v, lo, hi) (spec/00_scope.md R9). -/
def clampInt (v lo hi : Int) : Int := if v < lo then lo else if hi < v then hi else v

/-- STEP_TABLE[i] (R114); a free value at an index the table does not have (log entry 6). -/
def stepSize (t : Vector Nat 49) (i : Int) : Int :=
  if h : i.toNat < 49 then (if 0 ≤ i then (t[i.toNat] : Int) else (Config.stepOutsideTable i : Int))
  else (Config.stepOutsideTable i : Int)

/-- The index adjustment of a nibble, keyed by all four bits (R112, R115). -/
def idxAdjust (n : Nibble) : Int := idxTable[n.toFin]

/-- diff = ((2*m + 1) * ss) >> 3 (R116). -/
def adpcmDiff (m ss : Int) : Int := ((2 * m + 1) * ss) >>> (3 : Nat)

/-- What DECODE_NIBBLE computes: p2, i2 and the output sample (R113). -/
structure Decode where
  pred : Int
  sidx : Int
  out : Int
  deriving DecidableEq, Repr

/-- DECODE_NIBBLE on integers: from the table, the predictor p and the step index i (R113). -/
def decodeNibbleInt (t : Vector Nat 49) (n : Nibble) (p i : Int) : Decode :=
  let ss := stepSize t i
  let i2 := clampInt (i + idxAdjust n) 0 48
  let diff := adpcmDiff (nibbleMagnitude n) ss
  let p2 := clampInt (if nibbleSign n then p - diff else p + diff) (-2048) 2047
  ⟨p2, i2, p2 * 16⟩

/-- The sample DECODE_NIBBLE(n) returns in the registers r, out[15:0] (R113, R118). -/
def nibbleSample (t : Vector Nat 49) (n : Nibble) (r : Regs) : BitVec 16 :=
  BitVec.ofInt 16 (decodeNibbleInt t n r.pred.toInt r.sidx.toInt).out

/-- The registers DECODE_NIBBLE(n) leaves: PRED and SIDX in two's complement, 16 bits (R113). -/
def nibbleRegs (t : Vector Nat 49) (n : Nibble) (r : Regs) : Regs :=
  writeAdpcm (BitVec.ofInt 16 (decodeNibbleInt t n r.pred.toInt r.sidx.toInt).pred)
    (BitVec.ofInt 16 (decodeNibbleInt t n r.pred.toInt r.sidx.toInt).sidx) r

/-- AD_INIT (R121). -/
def execAdInit (rsvd : BitVec 24) (s : State) : Result :=
  if rsvd ≠ 0 then raiseStatus .reservedNonzero s
  else respond 0 (withRegs (writeAdpcm 0 0 s.regs) s)

/-- AD_NIB (R122). -/
def execAdNib (rsvd : BitVec 20) (n : Nibble) (s : State) : Result :=
  if rsvd ≠ 0 then raiseStatus .reservedNonzero s
  else respond ((nibbleSample s.stepTable n s.regs).signExtend 64)
    (withRegs (nibbleRegs s.stepTable n s.regs) s)

/-- AD_BYTE: the high nibble, then the low nibble from the registers the first left; the first sample
in RDATA[31:0], the second in RDATA[63:32] (R123). -/
def execAdByte (rsvd : BitVec 16) (b : Byte) (s : State) : Result :=
  if rsvd ≠ 0 then raiseStatus .reservedNonzero s
  else
    let r1 := nibbleRegs s.stepTable (highNibble b) s.regs
    let out1 := nibbleSample s.stepTable (highNibble b) s.regs
    let out2 := nibbleSample s.stepTable (lowNibble b) r1
    respond (out2.signExtend 32 ++ out1.signExtend 32)
      (withRegs (nibbleRegs s.stepTable (lowNibble b) r1) s)

end Sys2Proof.Machine
end

