-- ==== Sys2Proof/Machine/Transcendental.lean ====
section
/-! DEFINITION. SIN64, COS64 and POW10_64 (spec/00_scope.md R7, spec/42_biquad.md R156).
Each takes an uninterpreted function and keeps its value wherever R156 admits it; where R156 states the
value, that value stands, and a value R156 excludes is replaced by an admitted one.
So every admissible function is one of these, and each of these is admissible (log entry 7). -/

namespace Sys2Proof.Machine

/-- Finite and in [-1, 1]. -/
def fInUnit (x : F64) : Bool := decide ((x.extractLsb' 0 63).toNat ≤ 0x3FF0000000000000)

/-- A NaN as it is, any other value replaced by a quiet NaN. -/
def asNaN (x : F64) : F64 := if fIsNaN x then x else quietNaN 0

/-- A value of [-1, 1] as it is, any other replaced by +0. -/
def asUnit (x : F64) : F64 := if fInUnit x then x else posZero

/-- +0.0, a positive value or +infinity as it is, any other replaced by +0. -/
def asNonnegative (x : F64) : F64 := if fIsNaN x || fSign x then posZero else x

/-- The sine made of `raw`: SIN64(+0) = +0, SIN64(-0) = -0 (R156). -/
def sinOf (raw : F64 → F64) (v : F64) : F64 :=
  if fIsZero v then v else if fIsFinite v then asUnit (raw v) else asNaN (raw v)

/-- The cosine made of `raw`: COS64(+0) = COS64(-0) = 1 (R156). -/
def cosOf (raw : F64 → F64) (v : F64) : F64 :=
  if fIsZero v then oneF else if fIsFinite v then asUnit (raw v) else asNaN (raw v)

/-- The power of ten made of `raw`: POW10_64(+0) = POW10_64(-0) = 1 (R156). -/
def pow10Of (raw : F64 → F64) (v : F64) : F64 :=
  if fIsZero v then oneF else if fIsNaN v then asNaN (raw v) else asNonnegative (raw v)

/-- SIN64 -/
def sin64 (v : F64) : F64 := sinOf Config.rawSin v
/-- COS64 -/
def cos64 (v : F64) : F64 := cosOf Config.rawCos v
/-- POW10_64 -/
def pow10f64 (v : F64) : F64 := pow10Of Config.rawPow10 v

end Sys2Proof.Machine
end

