-- ==== Sys2Proof/Machine/Biquad.lean ====
section
/-! DEFINITION. The biquad unit: the Hpf2 coefficients, the gain, FILTER_STEP, and the commands BQ_CALC,
GAIN_CALC, BQ_CLR, BQ_PROC and BQ_PROCR (spec/42_biquad.md R155 to R165).
`nan k` is the encoding of the NaN that operation number k of the command produces, if it produces one (R153). -/

namespace Sys2Proof.Machine

/-- PI (R155). -/
def piF : F64 := 0x400921FB54442D18#64
/-- Q_DEFAULT, the binary64 value nearest to 0.707 (R155). -/
def qDefault : F64 := 0x3FE69FBE76C8B439#64
/-- 0.5 -/
def halfF : F64 := 0x3FE0000000000000#64
/-- 2.0 -/
def twoF : F64 := 0x4000000000000000#64
/-- -2.0 -/
def negTwoF : F64 := 0xC000000000000000#64
/-- 20.0 -/
def twentyF : F64 := 0x4034000000000000#64

/-- The effective Q: the guard of R158. -/
def effectiveQ (q : F64) : F64 := if fLeZero q then qDefault else q

/-- theta = ((2.0 *f PI) *f c) /f fs (R159). -/
def hpf2Theta (nan : Nat → F64) (c fs : F64) : F64 :=
  fDiv (nan 2) (fMul (nan 1) (fMul (nan 0) twoF piF) c) fs

/-- k = (d /f 2.0) *f SIN64(theta) with d = 1.0 /f qe (R159). -/
def hpf2K (nan : Nat → F64) (sinTheta qe : F64) : F64 :=
  fMul (nan 5) (fDiv (nan 4) (fDiv (nan 3) oneF qe) twoF) sinTheta

/-- beta = (0.5 *f (1.0 -f k)) /f (1.0 +f k) (R159). -/
def hpf2Beta (nan : Nat → F64) (k : F64) : F64 :=
  fDiv (nan 9) (fMul (nan 7) halfF (fSub (nan 6) oneF k)) (fAdd (nan 8) oneF k)

/-- gamma = (0.5 +f beta) *f COS64(theta) (R159). -/
def hpf2Gamma (nan : Nat → F64) (beta cosTheta : F64) : F64 :=
  fMul (nan 11) (fAdd (nan 10) halfF beta) cosTheta

/-- alpha = ((0.5 +f beta) +f gamma) /f 2.0 (R159). -/
def hpf2Alpha (nan : Nat → F64) (beta gamma : F64) : F64 :=
  fDiv (nan 14) (fAdd (nan 13) (fAdd (nan 12) halfF beta) gamma) twoF

/-- The seven coefficients made of alpha, beta and gamma (R159). -/
def hpf2Mix (nan : Nat → F64) (alpha beta gamma : F64) : Coeffs where
  a0 := alpha
  a1 := fMul (nan 15) negTwoF alpha
  a2 := alpha
  b1 := fMul (nan 16) negTwoF gamma
  b2 := fMul (nan 17) twoF beta
  c0 := oneF
  d0 := posZero

/-- COEFFS_HPF2(c, fs, qe) for a sine and a cosine function (R159). -/
def coeffsHpf2With (sin cos : F64 → F64) (nan : Nat → F64) (c fs qe : F64) : Coeffs :=
  let theta := hpf2Theta nan c fs
  let beta := hpf2Beta nan (hpf2K nan (sin theta) qe)
  let gamma := hpf2Gamma nan beta (cos theta)
  hpf2Mix nan (hpf2Alpha nan beta gamma) beta gamma

/-- COEFFS_HPF2(c, fs, qe) (R159). -/
def coeffsHpf2 (nan : Nat → F64) (c fs qe : F64) : Coeffs := coeffsHpf2With sin64 cos64 nan c fs qe

/-- The coefficients BQ_CALC computes from the parameter registers (R158, R160). -/
def coeffsOf (nan : Nat → F64) (r : Regs) : Coeffs :=
  coeffsHpf2 nan r.cutoff (fOfInt (r.srate.toNat : Int)) (effectiveQ r.qreg)

/-- GAIN_LIN's value POW10_64(x[GAIN_DB] /f 20.0) (R161). -/
def gainOf (nan : Nat → F64) (r : Regs) : F64 := pow10f64 (fDiv (nan 0) r.gainDb twentyF)

/-- wn = (xn -f (x[B1] *f s0)) -f (x[B2] *f s1) (R162). -/
def filterWn (nan : Nat → F64) (xn : F64) (r : Regs) : F64 :=
  fSub (nan 3) (fSub (nan 1) xn (fMul (nan 0) r.b1 r.s0)) (fMul (nan 2) r.b2 r.s1)

/-- yn = ((x[A0] *f wn) +f (x[A1] *f s0)) +f (x[A2] *f s1), from the pre-shift s0 and s1 (R162). -/
def filterYn (nan : Nat → F64) (wn : F64) (r : Regs) : F64 :=
  fAdd (nan 8) (fAdd (nan 6) (fMul (nan 4) r.a0 wn) (fMul (nan 5) r.a1 r.s0)) (fMul (nan 7) r.a2 r.s1)

/-- out = (x[D0] *f xn) +f (x[C0] *f yn) (R162). -/
def filterOut (nan : Nat → F64) (xn : F64) (r : Regs) : F64 :=
  fAdd (nan 11) (fMul (nan 9) r.d0 xn) (fMul (nan 10) r.c0 (filterYn nan (filterWn nan xn r) r))

/-- The registers FILTER_STEP(xn) leaves: the state shift x[S1] <- s0, x[S0] <- wn (R162). -/
def filterRegs (nan : Nat → F64) (xn : F64) (r : Regs) : Regs :=
  writeDelay (filterWn nan xn r) r.s0 r

/-- xn = f64(v) *f x[GAIN_LIN], the sample after gain (R164, R166). -/
def gainedSample (nan : Nat → F64) (v : BitVec 32) (r : Regs) : F64 :=
  fMul (nan 12) (fOfInt (decodedSample v)) r.gainLin

/-- BQ_CALC (R160). -/
def execBqCalc (rsvd : BitVec 24) (s : State) : Result :=
  if rsvd ≠ 0 then raiseStatus .reservedNonzero s
  else if !(isValid s.regs .cutoffW) || !(isValid s.regs .qW) || !(isValid s.regs .srateW) then
    raiseStatus .notConfigured s
  else if s.regs.algo ≠ 3 then raiseStatus .notImplemented s
  else respond 0 (nextDraw (withRegs (writeCoeffs (coeffsOf (nanBits s.draws) s.regs) s.regs) s))

/-- GAIN_CALC (R161). -/
def execGainCalc (rsvd : BitVec 24) (s : State) : Result :=
  if rsvd ≠ 0 then raiseStatus .reservedNonzero s
  else if !(isValid s.regs .gdbW) then raiseStatus .notConfigured s
  else respond 0 (nextDraw (withRegs (writeGain (gainOf (nanBits s.draws) s.regs) s.regs) s))

/-- BQ_CLR (R163). -/
def execBqClr (rsvd : BitVec 24) (s : State) : Result :=
  if rsvd ≠ 0 then raiseStatus .reservedNonzero s
  else respond 0 (withRegs (writeDelay posZero posZero s.regs) s)

/-- FILTER_STEP(xn) and its response bits64(out) (R162, R164, R165). -/
def filterStep (xn : F64) (s : State) : Result :=
  respond (filterOut (nanBits s.draws) xn s.regs)
    (nextDraw (withRegs (filterRegs (nanBits s.draws) xn s.regs) s))

/-- BQ_PROC (R164). -/
def execBqProc (rsvd : BitVec 24) (v : BitVec 32) (s : State) : Result :=
  if rsvd ≠ 0 then raiseStatus .reservedNonzero s
  else if !(isValid s.regs .coefV) || !(isValid s.regs .gainV) then raiseStatus .notConfigured s
  else filterStep (gainedSample (nanBits s.draws) v s.regs) s

/-- BQ_PROCR (R165). -/
def execBqProcr (rsvd : BitVec 24) (x : F64) (s : State) : Result :=
  if rsvd ≠ 0 then raiseStatus .reservedNonzero s
  else if !(fIsFinite x) then raiseStatus .illegalValue s
  else if !(isValid s.regs .coefV) then raiseStatus .notConfigured s
  else filterStep x s

end Sys2Proof.Machine
end

