-- ==== Sys2Proof/Machine/Control.lean ====
section
/-! DEFINITION. The control commands NOP, REG_WR, REG_RD and RESET (spec/43_control.md R200 to R209). -/

namespace Sys2Proof.Machine

/-- NOP (R200). -/
def execNop (rsvd : BitVec 24) (s : State) : Result :=
  if rsvd ≠ 0 then raiseStatus .reservedNonzero s else respond 0 s

/-- REG_WR (R201). -/
def execRegWr (rsel : BitVec 8) (rsvd : BitVec 16) (w : Word64) (s : State) : Result :=
  if rsvd ≠ 0 then raiseStatus .reservedNonzero s
  else match regOfRsel rsel with
    | none => raiseStatus .illegalReg s
    | some x => match paramOf x with
      | none => raiseStatus .readOnly s
      | some p =>
        if legalValue p w then respond 0 (withRegs (writeParam p w s.regs) s)
        else raiseStatus .illegalValue s

/-- REG_RD (R207). -/
def execRegRd (rsel : BitVec 8) (rsvd : BitVec 16) (s : State) : Result :=
  if rsvd ≠ 0 then raiseStatus .reservedNonzero s
  else match regOfRsel rsel with
    | none => raiseStatus .illegalReg s
    | some x =>
      if isUnwritten s.regs x then raiseStatus .notConfigured s
      else respond (portValue s.regs x) s

/-- RESET (R209). -/
def execReset (rsvd : BitVec 24) (s : State) : Result :=
  if rsvd ≠ 0 then raiseStatus .reservedNonzero s else respond 0 (resetRegs s)

end Sys2Proof.Machine
end

