-- ==== Sys2Proof/Machine/Dispatch.lean ====
section
/-! DEFINITION. The dispatch: one arm per command of spec/opcode_table.json. -/

namespace Sys2Proof.Machine

def exec (i : Instr) (s : State) : Host.Outcome State Fault Refusal :=
  match i with
  | .nop rsvd => Sys2Proof.Machine.execNop rsvd s
  | .adInit rsvd => Sys2Proof.Machine.execAdInit rsvd s
  | .adNib rsvd n => Sys2Proof.Machine.execAdNib rsvd n s
  | .adByte rsvd b => Sys2Proof.Machine.execAdByte rsvd b s
  | .regWr rsel rsvd w => Sys2Proof.Machine.execRegWr rsel rsvd w s
  | .regRd rsel rsvd => Sys2Proof.Machine.execRegRd rsel rsvd s
  | .bqCalc rsvd => Sys2Proof.Machine.execBqCalc rsvd s
  | .gainCalc rsvd => Sys2Proof.Machine.execGainCalc rsvd s
  | .bqClr rsvd => Sys2Proof.Machine.execBqClr rsvd s
  | .bqProc rsvd v => Sys2Proof.Machine.execBqProc rsvd v s
  | .bqProcr rsvd x => Sys2Proof.Machine.execBqProcr rsvd x s
  | .reset rsvd => Sys2Proof.Machine.execReset rsvd s

end Sys2Proof.Machine
end

