-- ==== Sys2Proof/Machine/Port.lean ====
section
/-! DEFINITION. The command port: one transaction (spec/30_encoding.md R80, R88), the hardware reset input
(spec/70_reset_and_hazards.md R260, R261), and the host's list of what it does next (spec/20_memory.md R70). -/

namespace Sys2Proof.Machine

/-- One transaction, from the command word to the response: a listed OPC runs its command, an unlisted
one raises ILLEGAL_OPCODE (R83, R88). -/
def transact (t : Transaction) (s : State) : Result :=
  match decode t with
  | .instr i => exec i s
  | .illegalOpcode _ => raiseStatus .illegalOpcode s

/-- RST: reset, and nothing else; a command in progress is abandoned and returns no response (R261; log
entry 15). -/
def hardwareReset (s : State) : State := resetRegs s

/-- How many commands of the host's list an event takes: its index advances by 1 per command
(spec/10_state.md R21; log entry 4). -/
def commandsIn : PortEvent → Nat
  | .command _ => 1
  | .rst (some _) => 1
  | .rst none => 0

/-- The state once the host has done `e`, the rest of its list still to come. -/
def takeEvent (e : PortEvent) (rest : List PortEvent) (s : State) : State :=
  { s with pending := rest, position := s.position + commandsIn e }

/-- What an event does to the instance. -/
def handleEvent (e : PortEvent) (s : State) : Result :=
  match e with
  | .command t => transact t s
  | .rst _ => .next (hardwareReset s)

/-- The host issues a transaction as the very next thing it does. -/
def presentNext (t : Transaction) (s : State) : State :=
  { s with pending := .command t :: s.pending }

/-- Transactions one after the other, as the host issues them (R70). -/
def transactAll : List Transaction → State → Result
  | [], s => .next s
  | t :: ts, s =>
    match transact t s with
    | .next s' => transactAll ts s'
    | .fault f => .fault f
    | .refused q => .refused q

end Sys2Proof.Machine
end

