-- ==== Sys2Proof/Machine/Step.lean ====
section
/-! DEFINITION. One step of the machine: the instance takes what the host does next at its port.
With nothing issued the block does nothing (spec/70_reset_and_hazards.md R262; log entry 1). -/

namespace Sys2Proof.Machine

/-- One step (spec/20_memory.md R67, R70). -/
def step (s : State) : Host.Outcome State Fault Refusal :=
  match s.pending with
  | [] => .next s
  | e :: rest => handleEvent e (takeEvent e rest s)

/-- The state in which the host issues a row's word next, with the operand bits the table gives no row
zero (log entries 2 and 18). -/
def State.withFetchWord (s : State) (nbits w : Nat) : State :=
  presentNext (transactionOfTableWord nbits w) s

end Sys2Proof.Machine
end

