-- ==== Sys2Proof/Machine/Asm.lean ====
section
/-! DEFINITION. The text forms of the commands and the pseudo-commands (spec/30_encoding.md R92, R93).
They are the assembler's: the block sees only the transactions they stand for. -/

namespace Sys2Proof.Machine

/-! ### Pseudo-commands (R93) -/

/-- STREAM_BEGIN -/
def streamBegin : List Instr := [.adInit 0, .bqClr 0]

/-- `REG_WR <reg>, <value>` -/
def regWrite (x : Reg) (w : Word64) : Instr := .regWr (rselOfReg x) 0 w

/-- BQ_SETUP: CUTOFF, QREG, SRATE, GAIN_DB, then GAIN_CALC, BQ_CALC, BQ_CLR. -/
def bqSetup (fc q : F64) (fs : Word64) (gdb : F64) : List Instr :=
  [regWrite .cutoff fc, regWrite .qreg q, regWrite .srate fs, regWrite .gainDb gdb,
   .gainCalc 0, .bqCalc 0, .bqClr 0]

/-- AD_BYTES -/
def adBytes (bs : List Byte) : List Instr := bs.map (.adByte 0 ·)

/-- AD_BYTE_SPLIT: the high nibble, then the low nibble. -/
def adByteSplit (b : Byte) : List Instr := [.adNib 0 (highNibble b), .adNib 0 (lowNibble b)]

/-! ### Numbers (R92) -/

/-- The binary64 value nearest to the decimal mant * 10^exp10, ties to even. -/
def fOfDecimal (neg : Bool) (mant : Nat) (exp10 : Int) : F64 :=
  if 0 ≤ exp10 then fRound neg (mant * 10 ^ exp10.toNat * oneUnits) 1
  else fRound neg (mant * oneUnits) (10 ^ (-exp10).toNat)

/-- The value of a decimal digit. -/
def decDigit (c : Char) : Option Nat :=
  if '0' ≤ c ∧ c ≤ '9' then some (c.toNat - 48) else none

/-- The value of a hexadecimal digit. -/
def hexDigit (c : Char) : Option Nat :=
  if '0' ≤ c ∧ c ≤ '9' then some (c.toNat - 48)
  else if 'A' ≤ c ∧ c ≤ 'F' then some (c.toNat - 55)
  else if 'a' ≤ c ∧ c ≤ 'f' then some (c.toNat - 87) else none

/-- A numeral's value in a base, after the digits already read. -/
def digitsFrom (digit : Char → Option Nat) (base : Nat) : Nat → List Char → Option Nat
  | acc, [] => some acc
  | acc, c :: cs =>
    match digit c with
    | some d => digitsFrom digit base (acc * base + d) cs
    | none => none

/-- A numeral has at least one digit. -/
def numeral (digit : Char → Option Nat) (base : Nat) (cs : List Char) : Option Nat :=
  if cs.isEmpty then none else digitsFrom digit base 0 cs

/-- `<decimal>` without a sign. -/
def parseNat (cs : List Char) : Option Nat := numeral decDigit 10 cs

/-- `<decimal>` with an optional sign. -/
def parseInt (cs : List Char) : Option Int :=
  match cs with
  | '-' :: rest => (parseNat rest).map fun n => -(n : Int)
  | _ => (parseNat cs).map fun n => (n : Int)

/-- `0x<hex>` -/
def parseHex (cs : List Char) : Option Nat :=
  match cs with
  | '0' :: 'x' :: rest => numeral hexDigit 16 rest
  | _ => none

/-- A number of a command's operand: decimal or 0x hexadecimal (DESIGN CHOICE, log entry 21). -/
def parseNumber (cs : List Char) : Option Nat :=
  match parseHex cs with
  | some n => some n
  | none => parseNat cs

/-- The text up to a separator, and the text after it if the separator occurs. -/
def cutAt (sep : Char) : List Char → List Char × Option (List Char)
  | [] => ([], none)
  | c :: cs =>
    if c = sep then ([], some cs) else (c :: (cutAt sep cs).1, (cutAt sep cs).2)

/-- An unsigned decimal fraction: digits, with an optional point, and the exponent added. -/
def parseFraction (neg : Bool) (e : Int) (cs : List Char) : Option F64 :=
  match cutAt '.' cs with
  | (whole, none) => (parseNat whole).map fun m => fOfDecimal neg m e
  | (whole, some frac) =>
    match parseNat whole, parseNat frac with
    | some _, some _ =>
      (parseNat (whole ++ frac)).map fun m => fOfDecimal neg m (e - (frac.length : Int))
    | _, _ => none

/-- An unsigned decimal: a fraction with an optional exponent `e<int>` (log entry 21). -/
def parseScaled (neg : Bool) (cs : List Char) : Option F64 :=
  match cutAt 'e' cs with
  | (mant, none) => parseFraction neg 0 mant
  | (mant, some ex) =>
    match parseInt ex with
    | some e => parseFraction neg e mant
    | none => none

/-- The binary64 nearest to a decimal, ties to even. -/
def parseF64 (cs : List Char) : Option F64 :=
  match cs with
  | '-' :: rest => parseScaled true rest
  | _ => parseScaled false cs

/-- A signed integer placed as sext_64; none outside 64 bits. -/
def word64OfInt (v : Int) : Option Word64 :=
  if -(2 ^ 63) ≤ v ∧ v < 2 ^ 63 then some (BitVec.ofInt 64 v) else none

/-- An unsigned integer of `w` bits; none if it does not fit. -/
def bitsOfNat (w n : Nat) : Option (BitVec w) :=
  if n < 2 ^ w then some (BitVec.ofNat w n) else none

/-- A WDATA operand: `f64:<decimal>`, `i:<decimal>`, `u:<decimal>` or `0x<hex>` (R92). -/
def parseValue (cs : List Char) : Option Word64 :=
  match cs with
  | 'f' :: '6' :: '4' :: ':' :: rest => parseF64 rest
  | 'i' :: ':' :: rest => (parseInt rest).bind word64OfInt
  | 'u' :: ':' :: rest => (parseNat rest).bind (bitsOfNat 64)
  | _ => (parseHex cs).bind (bitsOfNat 64)

/-- A WDATA operand in one of R92's forms, or written bare as `bare` reads it: R92 leaves open whether the forms
that name their operand otherwise take both, and the programs write both (DESIGN CHOICE, log entry 21). -/
def parseValueOr (bare : List Char → Option Word64) (cs : List Char) : Option Word64 :=
  match parseValue cs with
  | some w => some w
  | none => bare cs

/-- BQ_PROC's operand: a signed 32-bit integer, bare or as `i:<decimal>`; no other form (DESIGN CHOICE, log
entry 21). -/
def parseSample (cs : List Char) : Option (BitVec 32) :=
  let v := match cs with
    | 'i' :: ':' :: rest => parseInt rest
    | _ => parseInt cs
  v.bind fun v => if -(2 ^ 31) ≤ v ∧ v < 2 ^ 31 then some (BitVec.ofInt 32 v) else none

/-! ### Lines (R92) -/

/-- Text without the spaces before it. -/
def trimLeft : List Char → List Char
  | [] => []
  | c :: cs => if c = ' ' ∨ c = '\t' then trimLeft cs else c :: cs

/-- Text without the spaces around it. -/
def trim (cs : List Char) : List Char := (trimLeft (trimLeft cs).reverse).reverse

/-- The pieces of a text between commas. -/
def splitCommas : List Char → List (List Char)
  | [] => [[]]
  | c :: cs =>
    if c = ',' then [] :: splitCommas cs
    else match splitCommas cs with
      | [] => [[c]]
      | p :: ps => (c :: p) :: ps

/-- The names of R84. -/
def regNames : List (String × Reg) :=
  [("PRED", .pred), ("SIDX", .sidx), ("ALGO", .algo), ("CUTOFF", .cutoff), ("QREG", .qreg),
   ("SRATE", .srate), ("GAIN_DB", .gainDb), ("A0", .a0), ("A1", .a1), ("A2", .a2), ("B1", .b1),
   ("B2", .b2), ("C0", .c0), ("D0", .d0), ("S0", .s0), ("S1", .s1), ("GAIN_LIN", .gainLin),
   ("ERRLOG", .errlog), ("VALID", .valid)]

/-- The number of a register named, or written as a number (log entry 21). -/
def parseReg (cs : List Char) : Option (BitVec 8) :=
  match regNames.find? (fun p => p.1.toList == cs) with
  | some p => some (rselOfReg p.2)
  | none => (parseHex cs).bind (bitsOfNat 8)

/-- The operands of a list all parse. -/
def parseAll {α : Type} (parse : List Char → Option α) : List (List Char) → Option (List α)
  | [] => some []
  | x :: xs =>
    match parse x, parseAll parse xs with
    | some a, some as => some (a :: as)
    | _, _ => none

/-- The transactions of a mnemonic and its operands (R92, R93). Which way of writing a number each operand takes is
R92's only for the values of REG_WR; for the others it is the model's (DESIGN CHOICE, log entry 21): AD_NIB, AD_BYTE
and `.word`'s CMD take a decimal or 0x, BQ_PROC a bare integer or `i:`, BQ_PROCR and `.word`'s WDATA R92's four forms
or a bare decimal, BQ_SETUP bare decimals. -/
def assembleCommand (m : String) (args : List (List Char)) : Option (List Transaction) :=
  match m, args with
  | "NOP", [] => some [encode (.nop 0)]
  | "AD_INIT", [] => some [encode (.adInit 0)]
  | "AD_NIB", [n] => ((parseNumber n).bind (bitsOfNat 4)).map fun n => [encode (.adNib 0 n)]
  | "AD_BYTE", [b] => ((parseNumber b).bind (bitsOfNat 8)).map fun b => [encode (.adByte 0 b)]
  | "REG_WR", [r, v] =>
    (parseReg r).bind fun r => (parseValue v).map fun w => [encode (.regWr r 0 w)]
  | "REG_RD", [r] => (parseReg r).map fun r => [encode (.regRd r 0)]
  | "BQ_CALC", [] => some [encode (.bqCalc 0)]
  | "GAIN_CALC", [] => some [encode (.gainCalc 0)]
  | "BQ_CLR", [] => some [encode (.bqClr 0)]
  | "BQ_PROC", [i] => (parseSample i).map fun v => [encode (.bqProc 0 v)]
  | "BQ_PROCR", [x] => (parseValueOr parseF64 x).map fun x => [encode (.bqProcr 0 x)]
  | "RESET", [] => some [encode (.reset 0)]
  | ".word", [c, w] =>
    ((parseNumber c).bind (bitsOfNat 32)).bind fun c =>
      (parseValueOr (fun w => (parseNat w).bind (bitsOfNat 64)) w).map fun w => [⟨c, w⟩]
  | "STREAM_BEGIN", [] => some (streamBegin.map encode)
  | "BQ_SETUP", [fc, q, fs, g] =>
    (parseF64 fc).bind fun fc => (parseF64 q).bind fun q =>
      ((parseNat fs).bind (bitsOfNat 64)).bind fun fs => (parseF64 g).map fun g =>
        (bqSetup fc q fs g).map encode
  | "AD_BYTES", b :: bs =>
    (parseAll (fun x => (parseNumber x).bind (bitsOfNat 8)) (b :: bs)).map fun bs =>
      (adBytes bs).map encode
  | "AD_BYTE_SPLIT", [b] =>
    ((parseNumber b).bind (bitsOfNat 8)).map fun b => (adByteSplit b).map encode
  | _, _ => none

/-- The transactions of a line without its comment, its outer spaces removed. -/
def assembleText (cs : List Char) : Option (List Transaction) :=
  match cutAt ' ' cs with
  | ([], none) => some []
  | (m, none) => assembleCommand (String.ofList m) []
  | (m, some rest) => assembleCommand (String.ofList m) ((splitCommas rest).map trim)

/-- One line of a program: `;` starts a comment, an empty line is no command (R92). -/
def assembleLine (line : String) : Option (List Transaction) :=
  assembleText (trim (cutAt ';' line.toList).1)

/-- A program: one command a line. -/
def assemble : List String → Option (List Transaction)
  | [] => some []
  | l :: ls =>
    match assembleLine l, assemble ls with
    | some t, some ts => some (t ++ ts)
    | _, _ => none

end Sys2Proof.Machine
end

