-- ==== Sys2Proof/Machine/FloatSpec.lean ====
section
/-! DEFINITION. What it is to round an exact value to nearest, ties to even, in IEEE 754 binary64
(spec/00_scope.md R10, spec/42_biquad.md R151, R152), said without computing it. -/

namespace Sys2Proof.Machine

/-- The least magnitude that rounds to infinity, (2^53 - 1/2) * 2^971, in units of 2^-1074. -/
def overflowUnits : Nat := (2 ^ 54 - 1) * 2 ^ 2044

/-- `z` is the exact value num/den (in units of 2^-1074) rounded to nearest, ties to even. -/
structure RoundsTo (num : Int) (den : Nat) (z : F64) : Prop where
  /-- rounding a number gives no NaN -/
  notNaN : fIsNaN z = false
  /-- a magnitude too large becomes an infinity (R152) -/
  finite_iff : fIsFinite z = true ↔ num.natAbs < overflowUnits * den
  /-- no finite binary64 value is nearer -/
  nearest : fIsFinite z = true → ∀ w, fIsFinite w = true →
    |fVal z * den - num| ≤ |fVal w * den - num|
  /-- where another value is as near, the result's fraction is even -/
  tiesEven : fIsFinite z = true → ∀ w, fIsFinite w = true → fVal w ≠ fVal z →
    |fVal w * den - num| = |fVal z * den - num| → z.getLsbD 0 = false
  /-- a nonzero exact value keeps its sign, also where it rounds to a zero or an infinity -/
  sign : num ≠ 0 → fSign z = decide (num < 0)

end Sys2Proof.Machine
end

