-- ==== Sys2Proof/Machine/Platform.lean ====
section
/-! DEFINITION. A platform of N_INST instances that share nothing (spec/00_scope.md R7, spec/20_memory.md R71,
spec/60_exceptions.md R240; log entry 16).
N_INST is the length of the list; which instance acts next is given as a list of instance numbers. -/

namespace Sys2Proof.Machine

/-- The instances, numbered from 0 by their place (R240). -/
structure Platform where
  instances : List State
  deriving DecidableEq, Repr

/-- The state a step leaves; every step leaves one (R230). -/
def afterStep (s : State) : State :=
  match step s with
  | .next s' => s'
  | .fault _ => s
  | .refused _ => s

/-- Instance `k` takes one step; no other instance changes (R71). -/
def platformStep (k : Nat) (p : Platform) : Platform := ⟨p.instances.modify k afterStep⟩

/-- The instances named by a schedule step one after the other. -/
def runSchedule : List Nat → Platform → Platform
  | [], p => p
  | k :: ks, p => runSchedule ks (platformStep k p)

/-- `n` steps of one instance alone. -/
def runAlone : Nat → State → State
  | 0, s => s
  | n + 1, s => runAlone n (afterStep s)

/-- A platform right after reset: each instance starts from its own reset (R240). -/
def platformReset (nInst : Nat) : Platform := ⟨List.replicate nInst State.reset⟩

end Sys2Proof.Machine
end

