-- ==== Sys2Proof/Safety.lean ====
section
/-! DEFINITION. What holds of a state at every command boundary, and what a run without errors is
(spec/10_state.md R26 to R43, spec/60_exceptions.md R234). -/

namespace Sys2Proof

open Machine

/-- "No fault recorded" (spec/60_exceptions.md R234). -/
abbrev noErrorRecorded (s : State) : Prop := s.regs.errlog = 0

/-- Not a NaN, or a quiet one: what arithmetic leaves (spec/42_biquad.md R153). -/
abbrev quietOrNumber (x : F64) : Prop := fIsNaN x = true → x.getLsbD 51 = true

/-- The clamp invariant (spec/10_state.md R39). -/
abbrev clampInv (r : Regs) : Prop :=
  -2048 ≤ r.pred.toInt ∧ r.pred.toInt ≤ 2047 ∧ 0 ≤ r.sidx.toInt ∧ r.sidx.toInt ≤ 48

/-- The parameter registers hold only legal values (spec/10_state.md R28 to R32). -/
abbrev paramsLegal (r : Regs) : Prop :=
  r.algo.toNat ≤ 5 ∧
  (isValid r .cutoffW = true → fIsFinite r.cutoff = true) ∧
  (isValid r .qW = true → fIsFinite r.qreg = true) ∧
  (isValid r .srateW = true → r.srate ≠ 0) ∧
  (isValid r .gdbW = true → fIsFinite r.gainDb = true)

/-- The hardwired bits of VALID and ERRLOG read 0 (spec/10_state.md R36, R37). -/
abbrev hardwiredZero (r : Regs) : Prop :=
  r.valid.extractLsb' 6 58 = 0 ∧ r.errlog.getLsbD 0 = false ∧ r.errlog.extractLsb' 8 56 = 0

/-- The seven coefficient registers. -/
abbrev coeffsIn (r : Regs) : Coeffs := ⟨r.a0, r.a1, r.a2, r.b1, r.b2, r.c0, r.d0⟩

/-- Valid coefficients are those of the present parameters, up to the bits of NaNs
(spec/10_state.md R33, spec/43_control.md R205). -/
abbrev coeffsCurrent (r : Regs) : Prop :=
  isValid r .coefV = true →
    isValid r .cutoffW = true ∧ isValid r .qW = true ∧ isValid r .srateW = true ∧ r.algo = 3 ∧
    ∃ draw, coeffsIn r = coeffsOf (nanBits draw) r

/-- A valid gain is that of the present GAIN_DB (spec/10_state.md R35, spec/43_control.md R205). -/
abbrev gainCurrent (r : Regs) : Prop :=
  isValid r .gainV = true →
    isValid r .gdbW = true ∧ ∃ draw, r.gainLin = gainOf (nanBits draw) r

/-- What holds of the registers at every command boundary. -/
structure RegsInv (r : Regs) : Prop where
  clamp : clampInv r
  params : paramsLegal r
  hardwired : hardwiredZero r
  coeffs : coeffsCurrent r
  gain : gainCurrent r
  delay : quietOrNumber r.s0 ∧ quietOrNumber r.s1

/-- What holds of a state at every command boundary. -/
structure Inv (s : State) : Prop where
  table : tableAdmissible s.stepTable
  regs : RegsInv s.regs

/-- Two register files that no command can tell apart: every register that holds a value holds the same
value, so they differ at most in what unwritten registers physically hold (spec/10_state.md R40). -/
abbrev sameVisible (r q : Regs) : Prop :=
  ∀ x, isUnwritten r x = false → portValue r x = portValue q x

end Sys2Proof
end

