-- ==== Sys2Proof/WellFormed.lean ====
section
/-! DEFINITION. Well-formed commands: the fields a format requires to be 0 are 0
(spec/30_encoding.md R82, R89) and a register number names a register (R84, R90).
An ill-formed command still has a meaning: it ends with a status. -/

namespace Sys2Proof

/-- The format's fixed-zero slice of CMD is zero (R82, R89). -/
def reservedZero : Instr → Bool
  | .nop rsvd => rsvd == 0
  | .adInit rsvd => rsvd == 0
  | .adNib rsvd _ => rsvd == 0
  | .adByte rsvd _ => rsvd == 0
  | .regWr _ rsvd _ => rsvd == 0
  | .regRd _ rsvd => rsvd == 0
  | .bqCalc rsvd => rsvd == 0
  | .gainCalc rsvd => rsvd == 0
  | .bqClr rsvd => rsvd == 0
  | .bqProc rsvd _ => rsvd == 0
  | .bqProcr rsvd _ => rsvd == 0
  | .reset rsvd => rsvd == 0

/-- The register number, where the command has one, is not reserved (R84). -/
def registerListed : Instr → Bool
  | .regWr rsel _ _ => (Machine.regOfRsel rsel).isSome
  | .regRd rsel _ => (Machine.regOfRsel rsel).isSome
  | .nop _ => true
  | .adInit _ => true
  | .adNib _ _ => true
  | .adByte _ _ => true
  | .bqCalc _ => true
  | .gainCalc _ => true
  | .bqClr _ => true
  | .bqProc _ _ => true
  | .bqProcr _ _ => true
  | .reset _ => true

/-- A command the text forms of R92 can write without the .word escape. -/
def wellFormed (i : Instr) : Bool := reservedZero i && registerListed i

end Sys2Proof
end

