-- ==== Sys2Proof/Certificates/Slice0/Obligations.lean ====
section
/-! DEFINITION. The statements about the model, and the words they are said in. -/

namespace Sys2Proof.Claims

open Machine

/-! ### Words the statements use -/

/-- The command completes: the registers become `r`, the host gets the response `x`, and nothing else of
the state changes but the model's own counter of draws. -/
def endsWith (o : Result) (s : State) (r : Regs) (x : Response) : Prop :=
  ∃ d, o = .next { s with regs := r, responses := x :: s.responses, draws := d }

/-- The command fails with status code `k`: the response is (k, 0), ERRLOG bit k is set, and nothing else of
the state changes (R233, R234). -/
def failsWith (o : Result) (s : State) (k : Nat) : Prop :=
  o = .next { s with
    regs := { s.regs with errlog := s.regs.errlog ||| BitVec.ofNat 64 (2 ^ k) }
    responses := ⟨BitVec.ofNat 4 k, 0⟩ :: s.responses }

/-- The command word of an OPC value and the 24 bits below it (R81). -/
def word (opc : BitVec 8) (low : BitVec 24) : Word32 := opc ++ low

/-- The opcode map of R83, row by row. -/
def opcodeMap : List (BitVec 8 × Opcode) :=
  [(0x00, .nop), (0x01, .adInit), (0x02, .adNib), (0x03, .adByte), (0x10, .regWr), (0x11, .regRd),
   (0x20, .bqCalc), (0x21, .gainCalc), (0x22, .bqClr), (0x23, .bqProc), (0x24, .bqProcr), (0x30, .reset)]

/-- The OPC values R88 calls illegal. -/
def illegalOpc (opc : Nat) : Prop :=
  (0x04 ≤ opc ∧ opc ≤ 0x0F) ∨ (0x12 ≤ opc ∧ opc ≤ 0x1F) ∨ (0x25 ≤ opc ∧ opc ≤ 0x2F) ∨
    (0x31 ≤ opc ∧ opc ≤ 0xFF)

/-- The RSEL values R84 reserves. -/
def reservedRsel (r : Nat) : Prop :=
  (0x02 ≤ r ∧ r ≤ 0x07) ∨ (0x0D ≤ r ∧ r ≤ 0x0F) ∨ r = 0x17 ∨ (0x1B ≤ r ∧ r ≤ 0x1D) ∨
    (0x20 ≤ r ∧ r ≤ 0xFF)

/-- The RSEL values of the read-only registers of R84. -/
def readOnlyRsel (r : Nat) : Prop :=
  r = 0x00 ∨ r = 0x01 ∨ (0x10 ≤ r ∧ r ≤ 0x16) ∨ (0x18 ≤ r ∧ r ≤ 0x1A) ∨ r = 0x1E ∨ r = 0x1F

/-- Neither an infinity nor a NaN: the exponent field is not all ones (R10, R43). -/
def finite64 (x : F64) : Prop := x.extractLsb' 52 11 ≠ 0x7FF#11

/-- The values R202 to R204 make legal for a writable register. -/
def legalFor (rsel : BitVec 8) (w : Word64) : Prop :=
  (rsel = 0x08 ∧ w.toNat ≤ 5) ∨ (rsel = 0x09 ∧ finite64 w) ∨ (rsel = 0x0A ∧ finite64 w) ∨
    (rsel = 0x0B ∧ 1 ≤ w.toNat ∧ w.toNat ≤ 2 ^ 32 - 1) ∨ (rsel = 0x0C ∧ finite64 w)

/-- The encodings `nan` gives are quiet NaNs (R153). -/
def quietNaNs (nan : Nat → F64) : Prop :=
  ∀ k, fIsNaN (nan k) = true ∧ (nan k).getLsbD 51 = true

/-- IDX_TABLE as R24 lists it. -/
def idxList : List Int := [-1, -1, -1, -1, 2, 4, 6, 8, -1, -1, -1, -1, 2, 4, 6, 8]

/-- Steps 2 to 6 of R113 for a nibble, a step size, a predictor and a step index: the new predictor and the new
step index, with the floor of R116 and the clamps of R115 and R117. -/
def nibbleStep (ss : Nat) (n : Nat) (p i : Int) : Int × Int :=
  let diff : Int := ((2 * (n % 8) + 1) * ss / 8 : Nat)
  (max (-2048) (min 2047 (if 8 ≤ n then p - diff else p + diff)),
   max 0 (min 48 (i + idxList.getD n 0)))

/-- The responses and the last predictor and step index of R124's decode of a list of bytes. -/
def decodeBytes (t : Vector Nat 49) : List Byte → Int → Int → List Response × Int × Int
  | [], p, i => ([], p, i)
  | b :: bs, p, i =>
    let hi := nibbleStep ((t[i.toNat]?).getD 0) (b.toNat / 16) p i
    let lo := nibbleStep ((t[hi.2.toNat]?).getD 0) (b.toNat % 16) hi.1 hi.2
    let rest := decodeBytes t bs lo.1 lo.2
    (⟨0, BitVec.ofInt 32 (lo.1 * 16) ++ BitVec.ofInt 32 (hi.1 * 16)⟩ :: rest.1, rest.2)

/-- A clamp in 16-bit two's complement. -/
def clamp16 (v lo hi : BitVec 16) : BitVec 16 := if v.slt lo then lo else if hi.slt v then hi else v

/-- R113 evaluated in 16-bit two's-complement arithmetic throughout (R119): predictor, step index, output. -/
def decode16 (ss : Nat) (n : Nibble) (p i : BitVec 16) : BitVec 16 × BitVec 16 × BitVec 16 :=
  let m : BitVec 16 := (n.extractLsb' 0 3).zeroExtend 16
  let diff : BitVec 16 := ((2 * m + 1) * BitVec.ofNat 16 ss).sshiftRight 3
  let p2 := clamp16 (if n.getLsbD 3 then p - diff else p + diff) (-2048) 2047
  let i2 := clamp16 (i + BitVec.ofInt 16 (idxList.getD n.toNat 0)) 0 48
  (p2, i2, p2 <<< (4 : Nat))

/-- COEFFS_HPF2 as R159 writes it, with the NaNs of `nan`. -/
def hpf2 (sin cos : F64 → F64) (nan : Nat → F64) (c fs qe : F64) : Coeffs :=
  let theta := fDiv (nan 2) (fMul (nan 1) (fMul (nan 0) 0x4000000000000000 0x400921FB54442D18) c) fs
  let d := fDiv (nan 3) 0x3FF0000000000000 qe
  let k := fMul (nan 5) (fDiv (nan 4) d 0x4000000000000000) (sin theta)
  let beta := fDiv (nan 9) (fMul (nan 7) 0x3FE0000000000000 (fSub (nan 6) 0x3FF0000000000000 k))
    (fAdd (nan 8) 0x3FF0000000000000 k)
  let gamma := fMul (nan 11) (fAdd (nan 10) 0x3FE0000000000000 beta) (cos theta)
  let alpha := fDiv (nan 14) (fAdd (nan 13) (fAdd (nan 12) 0x3FE0000000000000 beta) gamma) 0x4000000000000000
  { a0 := alpha, a1 := fMul (nan 15) 0xC000000000000000 alpha, a2 := alpha,
    b1 := fMul (nan 16) 0xC000000000000000 gamma, b2 := fMul (nan 17) 0x4000000000000000 beta,
    c0 := 0x3FF0000000000000, d0 := 0x0000000000000000 }

/-- FILTER_STEP(xn) as R162 writes it, with the NaNs of `nan`: the output and the new S0 (the new S1 is the old
S0). -/
def filterStep (nan : Nat → F64) (xn : F64) (r : Regs) : F64 × F64 :=
  let wn := fSub (nan 3) (fSub (nan 1) xn (fMul (nan 0) r.b1 r.s0)) (fMul (nan 2) r.b2 r.s1)
  let yn := fAdd (nan 8) (fAdd (nan 6) (fMul (nan 4) r.a0 wn) (fMul (nan 5) r.a1 r.s0))
    (fMul (nan 7) r.a2 r.s1)
  (fAdd (nan 11) (fMul (nan 9) r.d0 xn) (fMul (nan 10) r.c0 yn), wn)

/-- The cause of failing status `k` is present for a command in a state (R231). -/
def cause (k : Nat) (i : Instr) (s : State) : Prop :=
  match k, i with
  | 2, i => reservedZero i = false
  | 3, .regWr rsel _ _ => reservedRsel rsel.toNat
  | 3, .regRd rsel _ => reservedRsel rsel.toNat
  | 4, .regWr rsel _ _ => readOnlyRsel rsel.toNat
  | 5, .regWr rsel _ w => 0x08 ≤ rsel.toNat ∧ rsel.toNat ≤ 0x0C ∧ ¬ legalFor rsel w
  | 5, .bqProcr _ x => ¬ finite64 x
  | 6, .regRd rsel _ =>
    (rsel = 0x09 ∧ s.regs.valid.getLsbD 0 = false) ∨ (rsel = 0x0A ∧ s.regs.valid.getLsbD 1 = false) ∨
    (rsel = 0x0B ∧ s.regs.valid.getLsbD 2 = false) ∨ (rsel = 0x0C ∧ s.regs.valid.getLsbD 3 = false) ∨
    (0x10 ≤ rsel.toNat ∧ rsel.toNat ≤ 0x16 ∧ s.regs.valid.getLsbD 4 = false) ∨
    (rsel = 0x1A ∧ s.regs.valid.getLsbD 5 = false)
  | 6, .bqCalc _ =>
    s.regs.valid.getLsbD 0 = false ∨ s.regs.valid.getLsbD 1 = false ∨ s.regs.valid.getLsbD 2 = false
  | 6, .gainCalc _ => s.regs.valid.getLsbD 3 = false
  | 6, .bqProc _ _ => s.regs.valid.getLsbD 4 = false ∨ s.regs.valid.getLsbD 5 = false
  | 6, .bqProcr _ _ => s.regs.valid.getLsbD 4 = false
  | 7, .bqCalc _ => s.regs.algo ≠ 3
  | _, _ => False

/-- The cause of failing status `k` is present for a transaction in a state (R231): status 1 is decided on OPC alone. -/
def causeFor (k : Nat) (t : Transaction) (s : State) : Prop :=
  (k = 1 ∧ illegalOpc (t.cmd.toNat / 2 ^ 24)) ∨ ∃ i, decode t = .instr i ∧ cause k i s

/-- The failing statuses R235 lets a listed command raise. -/
def mayRaise : Opcode → List Nat
  | .nop => [2]
  | .adInit => [2]
  | .adNib => [2]
  | .adByte => [2]
  | .bqClr => [2]
  | .reset => [2]
  | .regWr => [2, 3, 4, 5]
  | .regRd => [2, 3, 6]
  | .bqCalc => [2, 6, 7]
  | .gainCalc => [2, 6]
  | .bqProc => [2, 6]
  | .bqProcr => [2, 5, 6]

/-- The infinity of a sign. -/
def signedInf (neg : Bool) : F64 := if neg then 0xFFF0000000000000 else 0x7FF0000000000000

/-- The zero of a sign. -/
def signedZero (neg : Bool) : F64 := if neg then 0x8000000000000000 else 0x0000000000000000

/-- What R156 states of a sine. -/
structure AdmissibleSine (f : F64 → F64) : Prop where
  finite : ∀ v, finite64 v → finite64 (f v) ∧ |fVal (f v)| ≤ 2 ^ 1074
  posZero : f 0x0000000000000000 = 0x0000000000000000
  negZero : f 0x8000000000000000 = 0x8000000000000000
  nan : ∀ v, ¬ finite64 v → fIsNaN (f v) = true

/-- What R156 states of a cosine. -/
structure AdmissibleCosine (f : F64 → F64) : Prop where
  finite : ∀ v, finite64 v → finite64 (f v) ∧ |fVal (f v)| ≤ 2 ^ 1074
  posZero : f 0x0000000000000000 = 0x3FF0000000000000
  negZero : f 0x8000000000000000 = 0x3FF0000000000000
  nan : ∀ v, ¬ finite64 v → fIsNaN (f v) = true

/-- What R156 states of a power of ten: +0.0, a positive value or +inf for every non-NaN operand. -/
structure AdmissiblePow10 (f : F64 → F64) : Prop where
  posZero : f 0x0000000000000000 = 0x3FF0000000000000
  negZero : f 0x8000000000000000 = 0x3FF0000000000000
  number : ∀ v, fIsNaN v = false → fIsNaN (f v) = false ∧ (f v).getLsbD 63 = false
  nan : ∀ v, fIsNaN v = true → fIsNaN (f v) = true

end Sys2Proof.Claims

open Sys2Proof Sys2Proof.Machine Sys2Proof.Claims

/-! ### The port and the encoding -/

/-- Decoding an encoded command gives it back, ill-formed ones too (R81 to R86, R92). -/
def Obligations.DecodeOfEncodeGivesCommandBack : Prop := ∀ i : Instr, decode (encode i) = .instr i

/-- No bit of CMD is dropped by decoding, and no WDATA bit that is an operand (R81, R86). -/
def Obligations.DecodingDropsNoOperandBit : Prop :=
  ∀ (t : Transaction) (i : Instr), decode t = .instr i →
    (encode i).cmd = t.cmd ∧
    (opcodeOf i = .regWr ∨ opcodeOf i = .bqProcr → (encode i).wdata = t.wdata) ∧
    (opcodeOf i = .bqProc → (encode i).wdata.extractLsb' 0 32 = t.wdata.extractLsb' 0 32)

/-- The opcode map: OPC alone selects the command, by the rows of R83. -/
def Obligations.OpcAloneSelectsTheCommand : Prop :=
  ∀ (t : Transaction) (op : Opcode),
    (∃ i, decode t = .instr i ∧ opcodeOf i = op) ↔
      (BitVec.ofNat 8 (t.cmd.toNat / 2 ^ 24), op) ∈ opcodeMap

/-- The CMD and WDATA of every command's text form, row by row (R92, with R84's register numbers). -/
def Obligations.TextFormsHaveTheirWords : Prop :=
  encode (.nop 0) = ⟨0x00000000, 0⟩ ∧ encode (.adInit 0) = ⟨0x01000000, 0⟩ ∧
  (∀ n : Nibble, encode (.adNib 0 n) = ⟨BitVec.ofNat 32 (0x02000000 + n.toNat), 0⟩) ∧
  (∀ b : Byte, encode (.adByte 0 b) = ⟨BitVec.ofNat 32 (0x03000000 + b.toNat), 0⟩) ∧
  (∀ (rsel : BitVec 8) (w : Word64),
    encode (.regWr rsel 0 w) = ⟨BitVec.ofNat 32 (0x10000000 + rsel.toNat * 2 ^ 16), w⟩ ∧
    encode (.regRd rsel 0) = ⟨BitVec.ofNat 32 (0x11000000 + rsel.toNat * 2 ^ 16), 0⟩) ∧
  encode (.bqCalc 0) = ⟨0x20000000, 0⟩ ∧ encode (.gainCalc 0) = ⟨0x21000000, 0⟩ ∧
  encode (.bqClr 0) = ⟨0x22000000, 0⟩ ∧
  (∀ v : BitVec 32, encode (.bqProc 0 v) = ⟨0x23000000, BitVec.ofInt 64 v.toInt⟩) ∧
  (∀ x : F64, encode (.bqProcr 0 x) = ⟨0x24000000, x⟩) ∧ encode (.reset 0) = ⟨0x30000000, 0⟩

/-- A word of each format decodes to its command (words written out from R82 and R83). -/
def Obligations.WordsOfEachFormatDecode : Prop :=
  decode ⟨0b00000001000000000000000000000000, 7⟩ = .instr (.adInit 0) ∧
  decode ⟨0b00000010000000000000000000001101, 0⟩ = .instr (.adNib 0 13) ∧
  decode ⟨0b00000011000000000000000001110111, 0⟩ = .instr (.adByte 0 0x77) ∧
  decode ⟨0b00010000000010010000000000000000, 5⟩ = .instr (.regWr 0x09 0 5) ∧
  decode ⟨0b00100100000000000000000000000000, 9⟩ = .instr (.bqProcr 0 9) ∧
  decode ⟨0b00000101000000000000000000000000, 0⟩ = .illegalOpcode 5

/-- A step runs the decoded command in the state in which the host's list has moved on by that command
(R70; the list and its index are the model's, log entries 1 and 4). -/
def Obligations.StepRunsTheDecodedCommand : Prop :=
  ∀ (s : State) (t : Transaction) (rest : List PortEvent) (i : Instr),
    s.pending = .command t :: rest → decode t = .instr i →
      step s = exec i { s with pending := rest, position := s.position + 1 }

/-- With nothing issued the block does nothing (R262; the idle step is the model's, log entry 1). -/
def Obligations.IdleStepChangesNothing : Prop := ∀ s : State, s.pending = [] → step s = .next s

/-- The word of a table row placed next is the one the next step runs (log entries 2 and 18). -/
def Obligations.PlacedWordRunsNext : Prop :=
  ∀ (s : State) (nbits w : Nat) (i : Instr), decodeTableWord nbits w = some i →
    step (s.withFetchWord nbits w) = exec i { s with position := s.position + 1 }

/-- An unlisted OPC raises ILLEGAL_OPCODE and has no other effect (R88). -/
def Obligations.IllegalOpcodeRaisesStatusOne : Prop :=
  ∀ (t : Transaction) (s : State), illegalOpc (t.cmd.toNat / 2 ^ 24) → failsWith (transact t s) s 1

/-- A listed command with a nonzero reserved field raises RESERVED_NONZERO and has no other effect (R89). -/
def Obligations.NonzeroReservedFieldRaisesStatusTwo : Prop :=
  ∀ (t : Transaction) (s : State) (op : Opcode),
    (BitVec.ofNat 8 (t.cmd.toNat / 2 ^ 24), op) ∈ opcodeMap →
    (t.cmd.extractLsb' 8 8 ≠ 0 ∨
     (op ≠ .regWr ∧ op ≠ .regRd ∧ t.cmd.extractLsb' 16 8 ≠ 0) ∨
     (op ≠ .adNib ∧ op ≠ .adByte ∧ t.cmd.extractLsb' 0 8 ≠ 0) ∨
     (op = .adNib ∧ t.cmd.extractLsb' 4 4 ≠ 0)) →
    failsWith (transact t s) s 2

/-- A reserved RSEL value in REG_WR or REG_RD raises ILLEGAL_REG and has no other effect (R90). -/
def Obligations.ReservedRegisterRaisesStatusThree : Prop :=
  ∀ (rsel : BitVec 8) (w : Word64) (s : State), reservedRsel rsel.toNat →
    failsWith (exec (.regWr rsel 0 w) s) s 3 ∧ failsWith (exec (.regRd rsel 0) s) s 3

/-- The WDATA bits R87 lists have no effect. -/
def Obligations.IgnoredDataBitsHaveNoEffect : Prop :=
  ∀ (cmd : Word32) (w w' : Word64) (s : State),
    (cmd.toNat / 2 ^ 24 ∈ [0x00, 0x01, 0x02, 0x03, 0x11, 0x20, 0x21, 0x22, 0x30] →
      transact ⟨cmd, w⟩ s = transact ⟨cmd, w'⟩ s) ∧
    (cmd.toNat / 2 ^ 24 = 0x23 → w.extractLsb' 0 32 = w'.extractLsb' 0 32 →
      transact ⟨cmd, w⟩ s = transact ⟨cmd, w'⟩ s)

/-! ### Statuses -/

/-- Every command completes with exactly one response; no command changes the lookup table, and none touches the
host's list or its index (R230, R27; the list and the index are the model's, log entries 1 and 4). -/
def Obligations.EveryCommandCompletesWithOneResponse : Prop :=
  ∀ (t : Transaction) (s : State), ∃ r x, endsWith (transact t s) s r x

/-- No step stops (R230, R238; the idle step is the model's, log entry 1). -/
def Obligations.NoStepStops : Prop := ∀ s : State, ∃ t, step s = .next t

/-- A command that ends with a nonzero status writes nothing but the ERRLOG bit of its code, and returns RDATA 0;
the code is one of 1 to 7 (R233, R231). -/
def Obligations.FailedCommandWritesOnlyItsErrlogBit : Prop :=
  ∀ (t : Transaction) (s u : State) (x : Response), transact t s = .next u →
    u.responses = x :: s.responses → x.status ≠ 0 →
      x.status.toNat ≤ 7 ∧ failsWith (transact t s) s x.status.toNat

/-- ERRLOG bit k is set exactly by a command that ends with status k, and cleared only by a successful RESET
(R37, R234). -/
def Obligations.ErrlogRecordsEveryStatusUntilReset : Prop :=
  ∀ (t : Transaction) (s u : State) (x : Response) (k : Nat), transact t s = .next u →
    u.responses = x :: s.responses → 1 ≤ k → k ≤ 7 →
      (t.cmd ≠ 0x30000000 → u.regs.errlog.getLsbD k = (s.regs.errlog.getLsbD k || x.status == BitVec.ofNat 4 k)) ∧
      (t.cmd = 0x30000000 → x.status = 0 ∧ u.regs.errlog = 0)

/-- ERRLOG is zero after a list of commands without RESET exactly if it was zero before and none of them failed
(R234). -/
def Obligations.ErrlogZeroMeansNoCommandFailed : Prop :=
  ∀ (ts : List Transaction) (s u : State), transactAll ts s = .next u →
    (∀ t ∈ ts, t.cmd ≠ 0x30000000) → s.regs.errlog = 0 →
      (u.regs.errlog = 0 ↔ ∀ x ∈ u.responses.take ts.length, x.status = 0)

/-- The commands can raise exactly the statuses R235 lists for them (a table the spec marks
derived). -/
def Obligations.CommandsRaiseExactlyTheirStatuses : Prop :=
  ∀ (op : Opcode) (k : Nat), 1 ≤ k → k ≤ 15 →
    ((∃ i s u, opcodeOf i = op ∧ exec i s = .next u ∧ u.responses = ⟨BitVec.ofNat 4 k, 0⟩ :: s.responses ∧
        u.regs.errlog.getLsbD k = true) ↔ k ∈ mayRaise op)

/-- The status reported is the lowest-numbered cause that applies, ILLEGAL_OPCODE on OPC alone, and OK where none does
(R231, R232). -/
def Obligations.LowestNumberedCauseIsReported : Prop :=
  ∀ (t : Transaction) (s u : State) (x : Response), transact t s = .next u → u.responses = x :: s.responses →
    (x.status = 0 → ∀ k, ¬ causeFor k t s) ∧
    (x.status ≠ 0 → causeFor x.status.toNat t s ∧ ∀ k < x.status.toNat, ¬ causeFor k t s)

/-- No command's computation depends on ERRLOG: with another ERRLOG, every command but REG_RD ERRLOG gives the same
response and the same other registers (R38). -/
def Obligations.NoComputationDependsOnErrlog : Prop :=
  ∀ (i : Instr) (s : State) (e : Word64), (∀ rsvd, i ≠ .regRd 0x1E rsvd) →
    ∃ r x d e', exec i s = .next { s with regs := r, responses := x :: s.responses, draws := d } ∧
      exec i { s with regs := { s.regs with errlog := e } } =
        .next { s with regs := { r with errlog := e' }, responses := x :: s.responses, draws := d }

/-! ### Control commands -/

/-- NOP (R200). -/
def Obligations.NopDoesNothing : Prop :=
  ∀ (rsvd : BitVec 24) (s : State),
    (∀ w, decode ⟨word 0x00 rsvd, w⟩ = .instr (.nop rsvd)) ∧
    (rsvd = 0 → endsWith (exec (.nop rsvd) s) s s.regs ⟨0, 0⟩) ∧
    (rsvd ≠ 0 → failsWith (exec (.nop rsvd) s) s 2)

/-- REG_WR: a legal value is stored and VALID updated, nothing else; everything else is refused, the lowest-numbered
cause first (R201, R203, R204, R205). -/
def Obligations.RegWrStoresLegalValuesOnly : Prop :=
  ∀ (rsel : BitVec 8) (rsvd : BitVec 16) (w : Word64) (s : State),
    let o := exec (.regWr rsel rsvd w) s
    decode ⟨word 0x10 (rsel ++ rsvd), w⟩ = .instr (.regWr rsel rsvd w) ∧
    (rsvd = 0 → rsel = 0x08 → w.toNat ≤ 5 → endsWith o s
      { s.regs with algo := w, valid := s.regs.valid &&& ~~~0x10#64 } ⟨0, 0⟩) ∧
    (rsvd = 0 → rsel = 0x09 → finite64 w → endsWith o s
      { s.regs with cutoff := w, valid := (s.regs.valid ||| 0x01#64) &&& ~~~0x10#64 } ⟨0, 0⟩) ∧
    (rsvd = 0 → rsel = 0x0A → finite64 w → endsWith o s
      { s.regs with qreg := w, valid := (s.regs.valid ||| 0x02#64) &&& ~~~0x10#64 } ⟨0, 0⟩) ∧
    (rsvd = 0 → rsel = 0x0B → 1 ≤ w.toNat ∧ w.toNat ≤ 2 ^ 32 - 1 → endsWith o s
      { s.regs with srate := w.extractLsb' 0 32, valid := (s.regs.valid ||| 0x04#64) &&& ~~~0x10#64 } ⟨0, 0⟩) ∧
    (rsvd = 0 → rsel = 0x0C → finite64 w → endsWith o s
      { s.regs with gainDb := w, valid := (s.regs.valid ||| 0x08#64) &&& ~~~0x20#64 } ⟨0, 0⟩) ∧
    (rsvd ≠ 0 → failsWith o s 2) ∧
    (rsvd = 0 → reservedRsel rsel.toNat → failsWith o s 3) ∧
    (rsvd = 0 → readOnlyRsel rsel.toNat → failsWith o s 4) ∧
    (rsvd = 0 → 0x08 ≤ rsel.toNat → rsel.toNat ≤ 0x0C → ¬ legalFor rsel w → failsWith o s 5)

/-- Writing the same legal value twice leaves the registers as writing it once (a sentence of R68 the
spec marks derived). -/
def Obligations.RegWrIsIdempotent : Prop :=
  ∀ (rsel : BitVec 8) (w : Word64) (s u v : State), legalFor rsel w →
    exec (.regWr rsel 0 w) s = .next u → exec (.regWr rsel 0 w) u = .next v → v.regs = u.regs

/-- REG_RD returns the register's value and changes no register; its refusals, the lowest-numbered cause first
(R206 to R208). -/
def Obligations.RegRdReturnsTheRegister : Prop :=
  ∀ (rsel : BitVec 8) (rsvd : BitVec 16) (s : State),
    let o := exec (.regRd rsel rsvd) s
    let valid (k : Nat) := s.regs.valid.getLsbD k = true
    let reads (r : BitVec 8) (v : Word64) := rsel = r → endsWith o s s.regs ⟨0, v⟩
    (∀ w, decode ⟨word 0x11 (rsel ++ rsvd), w⟩ = .instr (.regRd rsel rsvd)) ∧
    (rsvd = 0 →
      reads 0x00 (BitVec.ofInt 64 s.regs.pred.toInt) ∧ reads 0x01 (BitVec.ofNat 64 s.regs.sidx.toNat) ∧
      reads 0x08 s.regs.algo ∧ reads 0x18 s.regs.s0 ∧ reads 0x19 s.regs.s1 ∧ reads 0x1E s.regs.errlog ∧
      reads 0x1F s.regs.valid ∧
      (valid 0 → reads 0x09 s.regs.cutoff) ∧ (valid 1 → reads 0x0A s.regs.qreg) ∧
      (valid 2 → reads 0x0B (BitVec.ofNat 64 s.regs.srate.toNat)) ∧ (valid 3 → reads 0x0C s.regs.gainDb) ∧
      (valid 4 → reads 0x10 s.regs.a0 ∧ reads 0x11 s.regs.a1 ∧ reads 0x12 s.regs.a2 ∧ reads 0x13 s.regs.b1 ∧
        reads 0x14 s.regs.b2 ∧ reads 0x15 s.regs.c0 ∧ reads 0x16 s.regs.d0) ∧
      (valid 5 → reads 0x1A s.regs.gainLin)) ∧
    (rsvd ≠ 0 → failsWith o s 2) ∧
    (rsvd = 0 → reservedRsel rsel.toNat → failsWith o s 3) ∧
    (rsvd = 0 →
      (rsel = 0x09 ∧ ¬ valid 0) ∨ (rsel = 0x0A ∧ ¬ valid 1) ∨ (rsel = 0x0B ∧ ¬ valid 2) ∨
      (rsel = 0x0C ∧ ¬ valid 3) ∨ (0x10 ≤ rsel.toNat ∧ rsel.toNat ≤ 0x16 ∧ ¬ valid 4) ∨
      (rsel = 0x1A ∧ ¬ valid 5) →
      failsWith o s 6)

/-- RESET gives every register its reset value and leaves the table (R209, R41, R261). -/
def Obligations.ResetCommandResetsEveryRegister : Prop :=
  ∀ (rsvd : BitVec 24) (s : State),
    (∀ w, decode ⟨word 0x30 rsvd, w⟩ = .instr (.reset rsvd)) ∧
    (rsvd = 0 → ∃ r, endsWith (exec (.reset rsvd) s) s r ⟨0, 0⟩ ∧
      r.pred = 0 ∧ r.sidx = 0 ∧ r.algo = 3 ∧ r.s0 = 0 ∧ r.s1 = 0 ∧ r.valid = 0 ∧ r.errlog = 0) ∧
    (rsvd ≠ 0 → failsWith (exec (.reset rsvd) s) s 2)

/-- RST has the effect of reset and no other, also with a command in progress, which is abandoned (R260, R261).
The clauses on the host's list, its index and its responses are the model's (log entries 1, 3, 4, 15). -/
def Obligations.HardwareResetAbandonsTheCommand : Prop :=
  ∀ (s : State) (c : Option Transaction) (rest : List PortEvent), s.pending = .rst c :: rest →
    ∃ u, step s = .next u ∧ u.regs.pred = 0 ∧ u.regs.sidx = 0 ∧ u.regs.algo = 3 ∧ u.regs.s0 = 0 ∧
      u.regs.s1 = 0 ∧ u.regs.valid = 0 ∧ u.regs.errlog = 0 ∧ u.stepTable = s.stepTable ∧
      u.pending = rest ∧ u.responses = s.responses ∧
      u.position = s.position + (if c.isSome then 1 else 0)

/-! ### ADPCM commands -/

/-- AD_INIT (R121). -/
def Obligations.AdInitClearsTheCodec : Prop :=
  ∀ (rsvd : BitVec 24) (s : State),
    (∀ w, decode ⟨word 0x01 rsvd, w⟩ = .instr (.adInit rsvd)) ∧
    (rsvd = 0 → endsWith (exec (.adInit rsvd) s) s { s.regs with pred := 0, sidx := 0 } ⟨0, 0⟩) ∧
    (rsvd ≠ 0 → failsWith (exec (.adInit rsvd) s) s 2)

/-- AD_NIB decodes one nibble by R113 and returns the sample sign-extended (R122). -/
def Obligations.AdNibDecodesOneNibble : Prop :=
  ∀ (rsvd : BitVec 20) (n : Nibble) (s : State) (ss : Nat),
    (∀ w, decode ⟨word 0x02 (rsvd ++ n), w⟩ = .instr (.adNib rsvd n)) ∧
    (rsvd = 0 → s.stepTable[s.regs.sidx.toNat]? = some ss →
      let new := nibbleStep ss n.toNat s.regs.pred.toInt s.regs.sidx.toInt
      endsWith (exec (.adNib rsvd n) s) s
        { s.regs with pred := BitVec.ofInt 16 new.1, sidx := BitVec.ofInt 16 new.2 }
        ⟨0, BitVec.ofInt 64 (new.1 * 16)⟩) ∧
    (rsvd ≠ 0 → failsWith (exec (.adNib rsvd n) s) s 2)

/-- AD_BYTE decodes the high nibble, then the low nibble from the state the first left, and packs the two samples; in every
state it leaves the registers that AD_NIB b[7:4] and then AD_NIB b[3:0] leave (R123, R65, R111). The last clause is the
sentence of R123 that the spec marks derived, from R111 and R122. -/
def Obligations.AdByteDecodesHighThenLowNibble : Prop :=
  ∀ (rsvd : BitVec 16) (b : Byte) (s : State) (ss1 ss2 : Nat),
    (∀ w, decode ⟨word 0x03 (rsvd ++ b), w⟩ = .instr (.adByte rsvd b)) ∧
    (rsvd = 0 → s.stepTable[s.regs.sidx.toNat]? = some ss1 →
      let hi := nibbleStep ss1 (b.toNat / 16) s.regs.pred.toInt s.regs.sidx.toInt
      s.stepTable[hi.2.toNat]? = some ss2 →
      let lo := nibbleStep ss2 (b.toNat % 16) hi.1 hi.2
      endsWith (exec (.adByte rsvd b) s) s
        { s.regs with pred := BitVec.ofInt 16 lo.1, sidx := BitVec.ofInt 16 lo.2 }
        ⟨0, BitVec.ofInt 32 (lo.1 * 16) ++ BitVec.ofInt 32 (hi.1 * 16)⟩) ∧
    (rsvd ≠ 0 → failsWith (exec (.adByte rsvd b) s) s 2) ∧
    (rsvd = 0 → ∃ t u v,
      exec (.adByte rsvd b) s = .next t ∧
      exec (.adNib 0 (BitVec.ofNat 4 (b.toNat / 16))) s = .next u ∧
      exec (.adNib 0 (BitVec.ofNat 4 (b.toNat % 16))) u = .next v ∧ t.regs = v.regs)

/-- Decoding a buffer of L bytes: AD_INIT and one AD_BYTE per byte give the 2L samples of the left fold, in
order, from any state (R124, R125, which the spec marks derived). -/
def Obligations.BufferDecodesToTheFoldOfItsBytes : Prop :=
  ∀ (bs : List Byte) (s : State), ∃ u,
    transactAll (encode (.adInit 0) :: (adBytes bs).map encode) s = .next u ∧
    u.responses = (decodeBytes s.stepTable bs 0 0).1.reverse ++ ⟨0, 0⟩ :: s.responses ∧
    u.regs = { s.regs with
      pred := BitVec.ofInt 16 (decodeBytes s.stepTable bs 0 0).2.1
      sidx := BitVec.ofInt 16 (decodeBytes s.stepTable bs 0 0).2.2 }

/-- For every admissible table, R113 in 16-bit two's-complement arithmetic gives the result of exact arithmetic,
and the quantities stay within R119's bounds (R119 is marked derived by the spec). -/
def Obligations.SixteenBitArithmeticSuffices : Prop :=
  ∀ (t : Vector Nat 49) (n : Nibble) (r : Regs) (ss : Nat), tableAdmissible t → clampInv r →
    t[r.sidx.toNat]? = some ss →
    let m := n.toNat % 8
    let diff : Int := ((2 * m + 1) * ss / 8 : Nat)
    let got := decode16 ss n r.pred r.sidx
    (16 ≤ (2 * m + 1) * ss ∧ (2 * m + 1) * ss ≤ 23280) ∧ (2 ≤ diff ∧ diff ≤ 2910) ∧
    (-4958 ≤ r.pred.toInt - diff ∧ r.pred.toInt + diff ≤ 4957) ∧
    (-1 ≤ r.sidx.toInt + idxList.getD n.toNat 0 ∧ r.sidx.toInt + idxList.getD n.toNat 0 ≤ 56) ∧
    (nibbleRegs t n r).pred = got.1 ∧ (nibbleRegs t n r).sidx = got.2.1 ∧ nibbleSample t n r = got.2.2 ∧
    (-32768 ≤ got.2.2.toInt ∧ got.2.2.toInt ≤ 32752)

/-- Reading the byte as signed and shifting arithmetically gives the same nibble, and IDX_TABLE repeats with period 8
(R120, which the spec marks derived; R24). -/
def Obligations.SignedShiftGivesTheSameNibble : Prop :=
  (∀ b : Byte, (b.sshiftRight 4).extractLsb' 0 4 = highNibble b) ∧
  (∀ n : Nibble, idxAdjust n = idxList.getD n.toNat 0 ∧
    idxList.getD n.toNat 0 = idxList.getD (n.toNat % 8) 0)

/-! ### Biquad commands -/

/-- BQ_CALC computes the Hpf2 coefficients, with some quiet NaN wherever an operation gives NaN, and marks them valid;
its refusals in priority order (R157 to R160). -/
def Obligations.BqCalcWritesTheHpf2Coefficients : Prop :=
  ∀ (rsvd : BitVec 24) (s : State),
    let written := s.regs.valid.getLsbD 0 = true ∧ s.regs.valid.getLsbD 1 = true ∧ s.regs.valid.getLsbD 2 = true
    (∀ w, decode ⟨word 0x20 rsvd, w⟩ = .instr (.bqCalc rsvd)) ∧
    (rsvd = 0 → written → s.regs.algo = 3 → ∃ nan, quietNaNs nan ∧
      let c := hpf2 sin64 cos64 nan s.regs.cutoff (fOfInt s.regs.srate.toNat)
        (if fLeZero s.regs.qreg then 0x3FE69FBE76C8B439 else s.regs.qreg)
      endsWith (exec (.bqCalc rsvd) s) s
        { s.regs with
          a0 := c.a0, a1 := c.a1, a2 := c.a2, b1 := c.b1, b2 := c.b2, c0 := c.c0, d0 := c.d0,
          valid := s.regs.valid ||| 0x10#64 } ⟨0, 0⟩) ∧
    (rsvd ≠ 0 → failsWith (exec (.bqCalc rsvd) s) s 2) ∧
    (rsvd = 0 → ¬ written → failsWith (exec (.bqCalc rsvd) s) s 6) ∧
    (rsvd = 0 → written → s.regs.algo ≠ 3 → failsWith (exec (.bqCalc rsvd) s) s 7)

/-- The q guard: with QREG <= 0 (either zero, or any negative finite value) BQ_CALC writes the coefficients of QREG =
0.707 and leaves QREG (R158). -/
def Obligations.NonpositiveQCountsAsDefaultQ : Prop :=
  ∀ (s u v : State), finite64 s.regs.qreg →
    (s.regs.qreg.getLsbD 63 = true ∨ s.regs.qreg = 0) →
    exec (.bqCalc 0) s = .next u →
    exec (.bqCalc 0) { s with regs := { s.regs with qreg := 0x3FE69FBE76C8B439 } } = .next v →
      coeffsIn u.regs = coeffsIn v.regs ∧ u.regs.qreg = s.regs.qreg

/-- GAIN_CALC writes POW10_64(GAIN_DB /f 20.0) and marks it valid; its refusals (R161). -/
def Obligations.GainCalcWritesTheLinearGain : Prop :=
  ∀ (rsvd : BitVec 24) (s : State),
    (∀ w, decode ⟨word 0x21 rsvd, w⟩ = .instr (.gainCalc rsvd)) ∧
    (rsvd = 0 → s.regs.valid.getLsbD 3 = true → ∃ nan, quietNaNs nan ∧
      endsWith (exec (.gainCalc rsvd) s) s
        { s.regs with
          gainLin := pow10f64 (fDiv (nan 0) s.regs.gainDb 0x4034000000000000)
          valid := s.regs.valid ||| 0x20#64 } ⟨0, 0⟩) ∧
    (rsvd ≠ 0 → failsWith (exec (.gainCalc rsvd) s) s 2) ∧
    (rsvd = 0 → s.regs.valid.getLsbD 3 = false → failsWith (exec (.gainCalc rsvd) s) s 6)

/-- BQ_CLR (R163). -/
def Obligations.BqClrClearsTheDelayRegisters : Prop :=
  ∀ (rsvd : BitVec 24) (s : State),
    (∀ w, decode ⟨word 0x22 rsvd, w⟩ = .instr (.bqClr rsvd)) ∧
    (rsvd = 0 → endsWith (exec (.bqClr rsvd) s) s { s.regs with s0 := 0, s1 := 0 } ⟨0, 0⟩) ∧
    (rsvd ≠ 0 → failsWith (exec (.bqClr rsvd) s) s 2)

/-- BQ_PROC multiplies the sample by the gain and filters it; its refusals (R162, R164). -/
def Obligations.BqProcGainsThenFilters : Prop :=
  ∀ (rsvd : BitVec 24) (v : BitVec 32) (s : State),
    let valid := s.regs.valid.getLsbD 4 = true ∧ s.regs.valid.getLsbD 5 = true
    (∀ h : BitVec 32, decode ⟨word 0x23 rsvd, h ++ v⟩ = .instr (.bqProc rsvd v)) ∧
    (rsvd = 0 → valid → ∃ nan, quietNaNs nan ∧
      let xn := fMul (nan 12) (fOfInt v.toInt) s.regs.gainLin
      endsWith (exec (.bqProc rsvd v) s) s
        { s.regs with s0 := (filterStep nan xn s.regs).2, s1 := s.regs.s0 }
        ⟨0, (filterStep nan xn s.regs).1⟩) ∧
    (rsvd ≠ 0 → failsWith (exec (.bqProc rsvd v) s) s 2) ∧
    (rsvd = 0 → ¬ valid → failsWith (exec (.bqProc rsvd v) s) s 6)

/-- BQ_PROCR filters a finite binary64 sample without gain; its refusals in priority order (R162, R165). -/
def Obligations.BqProcrFiltersWithoutGain : Prop :=
  ∀ (rsvd : BitVec 24) (x : F64) (s : State),
    decode ⟨word 0x24 rsvd, x⟩ = .instr (.bqProcr rsvd x) ∧
    (rsvd = 0 → finite64 x → s.regs.valid.getLsbD 4 = true → ∃ nan, quietNaNs nan ∧
      endsWith (exec (.bqProcr rsvd x) s) s
        { s.regs with s0 := (filterStep nan x s.regs).2, s1 := s.regs.s0 }
        ⟨0, (filterStep nan x s.regs).1⟩) ∧
    (rsvd ≠ 0 → failsWith (exec (.bqProcr rsvd x) s) s 2) ∧
    (rsvd = 0 → ¬ finite64 x → failsWith (exec (.bqProcr rsvd x) s) s 5) ∧
    (rsvd = 0 → finite64 x → s.regs.valid.getLsbD 4 = false → failsWith (exec (.bqProcr rsvd x) s) s 6)

/-- After a successful write of ALGO, CUTOFF, QREG or SRATE the coefficients read as unwritten and both filter commands
raise NOT_CONFIGURED; after one of GAIN_DB, BQ_PROC does; S0 and S1 stay (R267, which the spec marks
derived; R205). -/
def Obligations.ParameterWriteInvalidatesWhatItDetermines : Prop :=
  ∀ (rsel : BitVec 8) (w : Word64) (s u : State) (v : BitVec 32) (x : F64), legalFor rsel w → finite64 x →
    exec (.regWr rsel 0 w) s = .next u →
      u.regs.s0 = s.regs.s0 ∧ u.regs.s1 = s.regs.s1 ∧
      failsWith (exec (.bqProc 0 v) u) u 6 ∧
      (rsel ≠ 0x0C → failsWith (exec (.bqProcr 0 x) u) u 6 ∧ failsWith (exec (.regRd 0x10 0) u) u 6) ∧
      (rsel = 0x0C → failsWith (exec (.regRd 0x1A 0) u) u 6)

/-! ### Binary64 arithmetic -/

/-- On finite operands each operation is the exact result rounded once, to nearest with ties to even (R10, R151;
IEEE 754's definition of the rounding is presumed, log entry 12). -/
def Obligations.ArithmeticRoundsToNearestEven : Prop :=
  ∀ (nan x y : F64), finite64 x → finite64 y →
    RoundsTo (fVal x + fVal y) 1 (fAdd nan x y) ∧
    RoundsTo (fVal x - fVal y) 1 (fSub nan x y) ∧
    RoundsTo (fVal x * fVal y) (2 ^ 1074) (fMul nan x y) ∧
    (fVal y ≠ 0 → RoundsTo (fVal x * fVal y * 2 ^ 1074) (fVal y * fVal y).toNat (fDiv nan x y))

/-- Where IEEE 754 gives NaN the result is the encoding the operation is given, and it is NaN nowhere else: a NaN operand,
inf - inf, 0 * inf, inf / inf and 0 / 0 (R153). -/
def Obligations.NaNExactlyWhereIeeeGivesNaN : Prop :=
  ∀ (nan x y : F64), fIsNaN nan = true →
    let anyNaN := fIsNaN x = true ∨ fIsNaN y = true
    let result (z : F64) (invalid : Prop) := (anyNaN ∨ invalid → z = nan) ∧ (¬ (anyNaN ∨ invalid) → fIsNaN z = false)
    result (fAdd nan x y) (fIsInf x = true ∧ fIsInf y = true ∧ fSign x ≠ fSign y) ∧
    result (fSub nan x y) (fIsInf x = true ∧ fIsInf y = true ∧ fSign x = fSign y) ∧
    result (fMul nan x y) ((fIsInf x = true ∧ fIsZero y = true) ∨ (fIsZero x = true ∧ fIsInf y = true)) ∧
    result (fDiv nan x y) ((fIsInf x = true ∧ fIsInf y = true) ∨ (fIsZero x = true ∧ fIsZero y = true))

/-- Operands that are zeros or infinities, where the result is no NaN: an infinity outweighs a finite value, products and
quotients take the sign of the operands' signs, a nonzero value over a zero is an infinity, an exact zero sum is +0 unless
both operands are -0, an exact zero difference is +0 unless it is -0 - (+0) (R10, R152; IEEE 754's definitions are
presumed, log entry 12). -/
def Obligations.SpecialOperandsFollowIeee : Prop :=
  ∀ nan x y inf inf' : F64, finite64 x → finite64 y → fIsInf inf = true → fIsInf inf' = true →
    let sign (a b : F64) := fSign a != fSign b
    fAdd nan inf x = inf ∧ fAdd nan x inf = inf ∧ fSub nan inf x = inf ∧ fSub nan x inf = fNeg inf ∧
    (fSign inf = fSign inf' → fAdd nan inf inf' = inf) ∧
    (fSign inf ≠ fSign inf' → fSub nan inf inf' = inf) ∧
    fMul nan inf inf' = signedInf (sign inf inf') ∧
    (fVal x ≠ 0 → fMul nan x inf = signedInf (sign x inf) ∧ fMul nan inf x = signedInf (sign inf x)) ∧
    fDiv nan inf x = signedInf (sign inf x) ∧ fDiv nan x inf = signedZero (sign x inf) ∧
    (fVal x ≠ 0 → fVal y = 0 → fDiv nan x y = signedInf (sign x y)) ∧
    (fVal x = 0 → fVal y ≠ 0 → fDiv nan x y = signedZero (sign x y)) ∧
    (fVal x * fVal y = 0 → fMul nan x y = signedZero (sign x y)) ∧
    (fVal x + fVal y = 0 → fAdd nan x y = signedZero (fSign x && fSign y)) ∧
    (fVal x - fVal y = 0 → fSub nan x y = signedZero (fSign x && !fSign y))

/-- Every integer of magnitude at most 2^53 converts exactly, with the sign of the integer; f64(0) is +0 (R154, which the
spec marks derived; R10; that 0 converts to +0, as V-B12's +0 for BQ_PROC 0 needs, is presumed of IEEE 754, log entry
12). -/
def Obligations.IntegersConvertExactly : Prop :=
  ∀ v : Int, |v| ≤ 2 ^ 53 →
    finite64 (fOfInt v) ∧ fVal (fOfInt v) = v * 2 ^ 1074 ∧ fSign (fOfInt v) = decide (v < 0)

/-- SIN64, COS64 and POW10_64 have the properties R156 states. -/
def Obligations.TranscendentalsHaveTheirProperties : Prop :=
  AdmissibleSine sin64 ∧ AdmissibleCosine cos64 ∧ AdmissiblePow10 pow10f64

/-- The model leaves the three functions free: every function with R156's properties is one the model's construction
gives (R156, R7; the construction is the model's, log entry 7). -/
def Obligations.EveryAdmissibleFunctionIsAllowed : Prop :=
  (∀ f, AdmissibleSine f → sinOf f = f) ∧ (∀ f, AdmissibleCosine f → cosOf f = f) ∧
    (∀ f, AdmissiblePow10 f → pow10Of f = f)

/-- Laws of the coefficients: A2 = A0; A1, B1 and B2 are exact doublings of -A0, -gamma and beta; A0 +f A1 +f A2 = 0
exactly; C0 = 1 and D0 = +0 (R167, which the spec marks derived; R159). -/
def Obligations.CoefficientsObeyTheirLaws : Prop :=
  ∀ (sin cos : F64 → F64) (nan : Nat → F64) (n1 n2 c fs qe : F64),
    let k := coeffsHpf2With sin cos nan c fs qe
    let beta := hpf2Beta nan (hpf2K nan (sin (hpf2Theta nan c fs)) qe)
    let gamma := hpf2Gamma nan beta (cos (hpf2Theta nan c fs))
    k.a2 = k.a0 ∧ k.c0 = 0x3FF0000000000000 ∧ k.d0 = 0 ∧
    (finite64 k.a0 → finite64 k.a1 → fVal k.a1 = -2 * fVal k.a0 ∧
      fVal (fAdd n1 (fAdd n2 k.a0 k.a1) k.a2) = 0) ∧
    (finite64 gamma → finite64 k.b1 → fVal k.b1 = -2 * fVal gamma) ∧
    (finite64 beta → finite64 k.b2 → fVal k.b2 = 2 * fVal beta)

/-- The first output after BQ_CLR for input 1.0 is A0, for a finite nonzero A0 and finite other coefficients (R167,
which the spec marks derived). -/
def Obligations.FirstOutputAfterClearIsA0 : Prop :=
  ∀ (s u v : State), s.regs.valid.getLsbD 4 = true →
    s.regs.c0 = 0x3FF0000000000000 → s.regs.d0 = 0 →
    finite64 s.regs.a0 → fVal s.regs.a0 ≠ 0 → finite64 s.regs.a1 → finite64 s.regs.a2 →
    finite64 s.regs.b1 → finite64 s.regs.b2 →
    exec (.bqClr 0) s = .next u → exec (.bqProcr 0 0x3FF0000000000000) u = .next v →
      v.responses = ⟨0, s.regs.a0⟩ :: ⟨0, 0⟩ :: s.responses

/-- A cutoff of +0.0 gives the identity filter's coefficients, whatever the sine and cosine: {1, -2, 1, -2, 1, 1, +0}
(R160's corner case), where 1/q does not overflow. -/
def Obligations.ZeroCutoffGivesTheIdentityFilter : Prop :=
  ∀ (s u : State) (n : F64), s.regs.valid.getLsbD 0 = true → s.regs.valid.getLsbD 1 = true →
    s.regs.valid.getLsbD 2 = true → s.regs.algo = 3 → s.regs.srate ≠ 0 → s.regs.cutoff = 0 →
    finite64 s.regs.qreg → finite64 (fDiv n 0x3FF0000000000000 (effectiveQ s.regs.qreg)) →
    exec (.bqCalc 0) s = .next u →
      coeffsIn u.regs = ⟨0x3FF0000000000000, 0xC000000000000000, 0x3FF0000000000000, 0xC000000000000000,
        0x3FF0000000000000, 0x3FF0000000000000, 0x0000000000000000⟩

/-! ### The whole machine -/

/-- The registers hold only what the rules admit right after reset (R41; the fields of unwritten registers are the
model's, log entry 10, and the clauses on them are empty while VALID is 0). -/
def Obligations.ResetStateKeepsTheInvariant : Prop := Inv State.reset

/-- From every state that satisfies it, a step keeps the invariant: the clamp ranges, legal parameters, hardwired bits,
coefficients and gain that are those of the present parameters, quiet NaNs only, an admissible table (R26, R28 to R39,
R43). -/
def Obligations.StepKeepsTheInvariant : Prop :=
  ∀ s u : State, Inv s → step s = .next u → Inv u

/-- Only the commands the rules name write a register (R22, R23, R28 to R36, R168). -/
def Obligations.OnlyTheNamedCommandsWriteARegister : Prop :=
  ∀ (i : Instr) (s u : State), exec i s = .next u →
    (opcodeOf i ∉ [.adInit, .adNib, .adByte, .reset] →
      u.regs.pred = s.regs.pred ∧ u.regs.sidx = s.regs.sidx) ∧
    (opcodeOf i ∉ [.regWr, .reset] →
      u.regs.algo = s.regs.algo ∧ u.regs.cutoff = s.regs.cutoff ∧ u.regs.qreg = s.regs.qreg ∧
      u.regs.srate = s.regs.srate ∧ u.regs.gainDb = s.regs.gainDb) ∧
    (opcodeOf i ∉ [.bqCalc, .reset] → coeffsIn u.regs = coeffsIn s.regs) ∧
    (opcodeOf i ∉ [.gainCalc, .reset] → u.regs.gainLin = s.regs.gainLin) ∧
    (opcodeOf i ∉ [.bqClr, .bqProc, .bqProcr, .reset] →
      u.regs.s0 = s.regs.s0 ∧ u.regs.s1 = s.regs.s1) ∧
    (opcodeOf i ∉ [.regWr, .bqCalc, .gainCalc, .reset] → u.regs.valid = s.regs.valid) ∧
    u.stepTable = s.stepTable

/-- The two units are independent: with any other biquad registers an ADPCM command gives the same response, PRED and
SIDX, and with any other PRED and SIDX a biquad command gives the same response and the same other registers (R110,
which the spec marks derived; R150). -/
def Obligations.TheTwoUnitsAreIndependent : Prop :=
  ∀ (i : Instr) (s : State) (q : Regs) (p si : BitVec 16),
    (opcodeOf i ∈ [.adInit, .adNib, .adByte] → q.pred = s.regs.pred → q.sidx = s.regs.sidx →
      ∃ r r' x, endsWith (exec i s) s r x ∧ endsWith (exec i { s with regs := q }) s r' x ∧
        r.pred = r'.pred ∧ r.sidx = r'.sidx) ∧
    (opcodeOf i ∈ [.bqCalc, .gainCalc, .bqClr, .bqProc, .bqProcr] →
      ∃ r x, endsWith (exec i s) s r x ∧
        endsWith (exec i { s with regs := { s.regs with pred := p, sidx := si } }) s
          { r with pred := p, sidx := si } x)

/-- What an unwritten register physically holds is not observable: two states that agree on every register that holds a
value take the same step, give the same responses, and agree again (R40). -/
def Obligations.UnwrittenContentIsNeverObservable : Prop :=
  ∀ (s : State) (q : Regs), sameVisible s.regs q →
    ∃ u q', step s = .next u ∧ step { s with regs := q } = .next { u with regs := q' } ∧ sameVisible u.regs q'

/-- Parallel safety: in any interleaving each instance ends as it ends when it runs alone (R71; R241, which
the spec marks derived; the platform and its schedule are the model's, log entry 16). -/
def Obligations.InterleavedInstancesRunAsIfAlone : Prop :=
  ∀ (ks : List Nat) (p : Platform) (j : Nat),
    (runSchedule ks p).instances[j]? = (p.instances[j]?).map (runAlone (ks.count j))

/-- STREAM_BEGIN leaves nothing of an earlier stream in PRED, SIDX, S0 and S1 and keeps the rest, whatever the state (R264,
R93). -/
def Obligations.StreamBeginForgetsTheEarlierStream : Prop :=
  ∀ s : State, ∃ u, transactAll (streamBegin.map encode) s = .next u ∧
    u.regs = { s.regs with pred := 0, sidx := 0, s0 := 0, s1 := 0 } ∧
    u.responses = ⟨0, 0⟩ :: ⟨0, 0⟩ :: s.responses

/-- BQ_SETUP with legal values makes the filter ready: its seven commands succeed and BQ_PROC then completes (R263,
R93). -/
def Obligations.BqSetupMakesTheFilterReady : Prop :=
  ∀ (s : State) (fc q g : F64) (fs : Word64) (v : BitVec 32), s.regs.algo = 3 →
    finite64 fc → finite64 q → finite64 g → 1 ≤ fs.toNat → fs.toNat ≤ 2 ^ 32 - 1 →
    ∃ u, transactAll ((bqSetup fc q fs g).map encode) s = .next u ∧
      u.responses = List.replicate 7 ⟨0, 0⟩ ++ s.responses ∧
      u.regs.cutoff = fc ∧ u.regs.qreg = q ∧ u.regs.srate.toNat = fs.toNat ∧ u.regs.gainDb = g ∧
      u.regs.valid = s.regs.valid ||| 0x3F ∧ u.regs.s0 = 0 ∧ u.regs.s1 = 0 ∧
      u.regs.errlog = s.regs.errlog ∧ u.regs.pred = s.regs.pred ∧ u.regs.sidx = s.regs.sidx ∧
      ∃ w y, exec (.bqProc 0 v) u = .next w ∧ w.responses = ⟨0, y⟩ :: u.responses
end

