-- ==== Sys2Proof/Laws/Decode.lean ====
section
/-! SUPPORT. The decoder's and the encoder's small lemmas: the opcode map in both directions, and what an
encoded command's OPC is. -/

namespace Sys2Proof

@[simp] theorem opcodeOfByte_byteOfOpcode (op : Opcode) : opcodeOfByte (byteOfOpcode op) = some op := by
  cases op <;> rfl

theorem byteOfOpcode_of_opcodeOfByte {b : BitVec 8} {op : Opcode} (h : opcodeOfByte b = some op) :
    byteOfOpcode op = b := by
  unfold opcodeOfByte at h
  split at h <;> first | (cases h; rfl) | cases h

@[simp] theorem opcodeOf_operandsOf (op : Opcode) (t : Transaction) : opcodeOf (operandsOf op t) = op := by
  cases op <;> rfl

@[simp] theorem opcField_encode (i : Instr) : opcField (encode i).cmd = byteOfOpcode (opcodeOf i) := by
  rw [opcField, encode, BitVec.extractLsb'_append_eq_left]

/-- OPC as the number CMD / 2^24. -/
theorem opcField_eq_ofNat (cmd : Word32) : opcField cmd = BitVec.ofNat 8 (cmd.toNat / 2 ^ 24) := by
  apply BitVec.eq_of_toNat_eq
  simp [opcField, Nat.shiftRight_eq_div_pow]

/-- A transaction decodes to a command exactly if its OPC is listed, and then to that command's operands. -/
theorem decode_eq_instr_iff {t : Transaction} {i : Instr} :
    decode t = .instr i ↔ ∃ op, opcodeOfByte (opcField t.cmd) = some op ∧ i = operandsOf op t := by
  unfold decode
  cases opcodeOfByte (opcField t.cmd) with
  | none => simp
  | some op => simp [eq_comm (a := i)]

/-- A word the fields of which are known: a slice of both sides. -/
theorem append_and_append {m n : Nat} (a c : BitVec m) (b d : BitVec n) :
    (a ++ b) &&& (c ++ d) = (a &&& c) ++ (b &&& d) := by
  rw [BitVec.and_append]

theorem append_eq_append_iff {m n : Nat} (a c : BitVec m) (b d : BitVec n) :
    a ++ b = c ++ d ↔ a = c ∧ b = d := by
  constructor
  · intro h
    constructor
    · rw [← BitVec.extractLsb'_append_eq_left (a := a) (b := b), h, BitVec.extractLsb'_append_eq_left]
    · rw [← BitVec.extractLsb'_append_eq_right (a := a) (b := b), h, BitVec.extractLsb'_append_eq_right]
  · rintro ⟨rfl, rfl⟩; rfl

end Sys2Proof
end

