-- ==== Sys2Proof/Laws/Float.lean ====
section
/-! SUPPORT. Rounding is right: fRound gives the nearest binary64 value, ties to even (fRound_roundsTo), for every exact
fraction.
The proof follows the definition: the integer quotient is nearest (roundEven), its scale is the spacing of the
result's binade (roundScale), and the encoding made of the two has the rounded magnitude (fMag_scaled). -/

namespace Sys2Proof.Machine

/-! ### The nearest integer -/


theorem roundEven_nearest (num den m : Nat) (hd : 0 < den) :
    |((roundEven num den : Int) * den - num)| ≤ |((m : Int) * den - num)| := by
  have hmod := Nat.div_add_mod num den
  have hlt := Nat.mod_lt num hd
  set q := num / den
  set r := num % den
  have e : (num : Int) = den * q + r := by exact_mod_cast hmod.symm
  have key : ∀ k : Int, k * den - num = (k - q) * den - r := by intro k; rw [e]; ring
  rw [key, key]
  have hm : (m : Int) - q ≤ 0 ∨ 1 ≤ (m : Int) - q := by omega
  have low : (m : Int) - q ≤ 0 → (r : Int) ≤ |((m : Int) - q) * den - r| := by
    intro h
    have : ((m : Int) - q) * den ≤ 0 := mul_nonpos_of_nonpos_of_nonneg h (by positivity)
    rw [abs_of_nonpos (by linarith [Int.natCast_nonneg r])]; linarith
  have high : 1 ≤ (m : Int) - q → (den : Int) - r ≤ |((m : Int) - q) * den - r| := by
    intro h
    have : (den : Int) ≤ ((m : Int) - q) * den := by nlinarith [Int.natCast_nonneg den]
    exact le_trans (by linarith) (le_abs_self _)
  unfold roundEven
  change |((if 2 * r < den then q else if den < 2 * r then q + 1 else q + q % 2 : Nat) - (q:Int)) * den - r| ≤ _
  have hr0 : (0 : Int) ≤ r := by positivity
  have hrd : (r : Int) < den := by exact_mod_cast hlt
  split
  · rename_i h
    have h' : 2 * (r : Int) < den := by exact_mod_cast h
    simp only [sub_self, zero_mul, zero_sub, abs_neg, abs_of_nonneg hr0]
    rcases hm with hm | hm
    · exact low hm
    · have := high hm; linarith
  · split
    · rename_i h1 h
      have h' : (den : Int) < 2 * r := by exact_mod_cast h
      push_cast
      rw [show ((q : Int) + 1 - q) * den - r = den - r by ring, abs_of_nonneg (by linarith)]
      rcases hm with hm | hm
      · have := low hm; linarith
      · exact high hm
    · rename_i h1 h2
      have h' : (den : Int) = 2 * r := by have : den = 2 * r := by omega
                                          exact_mod_cast this
      have : |((q + q % 2 : Nat) - (q:Int)) * den - r| = r := by
        rcases Nat.mod_two_eq_zero_or_one q with h | h <;> rw [h] <;> push_cast
        · simp
        · rw [show ((q : Int) + 1 - q) * den - r = den - r by ring, h', abs_of_nonneg (by linarith)]; ring
      rw [this]
      rcases hm with hm | hm
      · exact low hm
      · have := high hm; linarith

theorem roundEven_tie (num den m : Nat) (hd : 0 < den) (hm : m ≠ roundEven num den)
    (h : |((m : Int) * den - num)| = |((roundEven num den : Int) * den - num)|) :
    roundEven num den % 2 = 0 := by
  have hmod := Nat.div_add_mod num den
  have hlt := Nat.mod_lt num hd
  unfold roundEven at *
  set q := num / den
  set r := num % den
  have e : (num : Int) = den * q + r := by exact_mod_cast hmod.symm
  have hr0 : (0 : Int) ≤ r := by positivity
  have hrd : (r : Int) < den := by exact_mod_cast hlt
  have key : ∀ k : Int, k * den - num = (k - q) * den - r := by intro k; rw [e]; ring
  rw [key, key] at h
  have hcase : (m : Int) - q ≤ -1 ∨ (m : Int) - q = 0 ∨ (m : Int) - q = 1 ∨ 2 ≤ (m : Int) - q := by omega
  have l1 : (m : Int) - q ≤ -1 → (den : Int) + r ≤ |((m : Int) - q) * den - r| := by
    intro h
    have : ((m : Int) - q) * den ≤ -den := by nlinarith
    rw [abs_of_nonpos (by linarith)]; linarith
  have l2 : 2 ≤ (m : Int) - q → 2 * (den : Int) - r ≤ |((m : Int) - q) * den - r| := by
    intro h
    have : 2 * (den : Int) ≤ ((m : Int) - q) * den := by nlinarith
    exact le_trans (by linarith) (le_abs_self _)
  have l3 : (m : Int) - q = 0 → |((m : Int) - q) * den - r| = r := by
    intro h; rw [h]; simp
  have l4 : (m : Int) - q = 1 → |((m : Int) - q) * den - r| = den - r := by
    intro h; rw [h, one_mul, abs_of_nonneg (by linarith)]
  by_cases c1 : 2 * r < den
  · simp only [c1, if_true] at h hm ⊢
    have c1' : 2 * (r : Int) < den := by exact_mod_cast c1
    simp only [sub_self, zero_mul, zero_sub, abs_neg, abs_of_nonneg hr0] at h
    rcases hcase with c | c | c | c
    · have := l1 c; linarith
    · omega
    · have := l4 c; linarith
    · have := l2 c; linarith
  · by_cases c2 : den < 2 * r
    · simp only [c1, c2, if_true, if_false] at h hm ⊢
      have c2' : (den : Int) < 2 * r := by exact_mod_cast c2
      push_cast at h
      rw [show ((q : Int) + 1 - q) * den - r = den - r by ring, abs_of_nonneg (by linarith : (0:Int) ≤ den - r)] at h
      rcases hcase with c | c | c | c
      · have := l1 c; linarith
      · have := l3 c; linarith
      · omega
      · have := l2 c; linarith
    · simp only [c1, c2, if_false] at hm ⊢
      omega

theorem roundEven_le {num den b : Nat} (hd : 0 < den) (h : num ≤ b * den) : roundEven num den ≤ b := by
  have hq : num / den ≤ b := Nat.div_le_of_le_mul (by rw [mul_comm]; exact h)
  have hmod := Nat.div_add_mod num den
  unfold roundEven
  split
  · exact hq
  · have : num / den < b := by
      rcases Nat.lt_or_eq_of_le hq with h' | h'
      · exact h'
      · exfalso
        rw [h', mul_comm] at hmod
        have : num % den = 0 := by omega
        omega
    split
    · omega
    · have := Nat.mod_lt (num / den) (by norm_num : 0 < 2); omega

theorem le_roundEven {num den b : Nat} (h : b ≤ num / den) : b ≤ roundEven num den := by
  unfold roundEven; split
  · exact h
  · split <;> omega

/-! ### The fields of an encoding made of a sign and a magnitude -/


theorem toNat_signMag (neg : Bool) {e : Nat} (h : e < 2 ^ 63) :
    (BitVec.ofNat 64 ((if neg then 2 ^ 63 else 0) + e)).toNat = (if neg then 2 ^ 63 else 0) + e := by
  rw [BitVec.toNat_ofNat, Nat.mod_eq_of_lt]; cases neg <;> simp <;> omega

theorem fSign_eq (x : F64) : fSign x = decide (2 ^ 63 ≤ x.toNat) := by
  have := x.isLt
  rw [fSign, BitVec.getLsbD, Nat.testBit_eq_decide_div_mod_eq]
  by_cases h : 2 ^ 63 ≤ x.toNat <;> simp <;> omega

theorem fExp_eq (x : F64) : fExp x = x.toNat / 2 ^ 52 % 2 ^ 11 := by
  rw [fExp, BitVec.extractLsb'_toNat, Nat.shiftRight_eq_div_pow]

theorem fFrac_eq (x : F64) : fFrac x = x.toNat % 2 ^ 52 := by
  rw [fFrac, BitVec.extractLsb'_toNat, Nat.shiftRight_eq_div_pow]; simp

theorem lsb_eq (x : F64) : x.getLsbD 0 = decide (x.toNat % 2 = 1) := by
  rw [BitVec.getLsbD, Nat.testBit_eq_decide_div_mod_eq]; simp

section signMag
variable (neg : Bool) {e : Nat} (h : e < 2 ^ 63)
include h

theorem fSign_signMag : fSign (BitVec.ofNat 64 ((if neg then 2 ^ 63 else 0) + e)) = neg := by
  rw [fSign_eq, toNat_signMag neg h]; cases neg <;> simp <;> omega

theorem fExp_signMag : fExp (BitVec.ofNat 64 ((if neg then 2 ^ 63 else 0) + e)) = e / 2 ^ 52 := by
  rw [fExp_eq, toNat_signMag neg h]; cases neg <;> simp <;> omega

theorem fFrac_signMag : fFrac (BitVec.ofNat 64 ((if neg then 2 ^ 63 else 0) + e)) = e % 2 ^ 52 := by
  rw [fFrac_eq, toNat_signMag neg h]; cases neg <;> simp <;> omega
end signMag

/-- The scale of the binade: what fRoundMag shifts by. -/
def roundScale (num den : Nat) : Nat := Nat.log2 (num / den) - 52

theorem fRoundMag_eq (num den : Nat) : fRoundMag num den =
    min (roundScale num den * 2 ^ 52 + roundEven num (den * 2 ^ roundScale num den)) (2047 * 2 ^ 52) := by
  unfold fRoundMag roundScale; rfl

theorem fRoundMag_lt (num den : Nat) : fRoundMag num den < 2 ^ 63 := by
  rw [fRoundMag_eq]; omega

theorem quot_lt (num den : Nat) : num / den < 2 ^ (53 + roundScale num den) := by
  have h1 := Nat.lt_log2_self (n := num / den)
  refine lt_of_lt_of_le h1 (Nat.pow_le_pow_right (by norm_num) ?_)
  unfold roundScale; omega

theorem scaled_le {num den : Nat} (hd : 0 < den) :
    roundEven num (den * 2 ^ roundScale num den) ≤ 2 ^ 53 := by
  refine roundEven_le (by positivity) ?_
  have h1 := quot_lt num den
  have h2 := (Nat.div_lt_iff_lt_mul hd).1 h1
  rw [pow_add] at h2
  nlinarith

theorem quot_ge {num den : Nat} (h : roundScale num den ≠ 0) :
    2 ^ (52 + roundScale num den) ≤ num / den := by
  have hq : num / den ≠ 0 := by
    intro h0; rw [roundScale, h0] at h; simp at h
  have := Nat.log2_self_le hq
  have e : 52 + roundScale num den = Nat.log2 (num / den) := by unfold roundScale at *; omega
  rwa [e]

theorem le_scaled {num den : Nat} (h : roundScale num den ≠ 0) :
    2 ^ 52 ≤ roundEven num (den * 2 ^ roundScale num den) := by
  apply le_roundEven
  rw [← Nat.div_div_eq_div_mul, Nat.le_div_iff_mul_le (by positivity), ← pow_add]
  exact quot_ge h

/-- An encoding below infinity that fRoundMag makes has the rounded magnitude. -/
theorem fMag_scaled (neg : Bool) {k n : Nat} (hn : n ≤ 2 ^ 53) (hk : k ≠ 0 → 2 ^ 52 ≤ n)
    (hE : k * 2 ^ 52 + n < 2047 * 2 ^ 52) :
    fMag (BitVec.ofNat 64 ((if neg then 2 ^ 63 else 0) + (k * 2 ^ 52 + n))) = n * 2 ^ k := by
  rw [fMag, fExp_signMag neg (by omega), fFrac_signMag neg (by omega)]
  by_cases h0 : (k * 2 ^ 52 + n) / 2 ^ 52 = 0
  · have : k = 0 := by omega
    subst this
    rw [if_pos h0]; simp; omega
  · rw [if_neg h0]
    by_cases h1 : n = 2 ^ 53
    · subst h1
      have e1 : (k * 2 ^ 52 + 2 ^ 53) / 2 ^ 52 = k + 2 := by omega
      have e2 : (k * 2 ^ 52 + 2 ^ 53) % 2 ^ 52 = 0 := by omega
      rw [e1, e2, show k + 2 - 1 = k + 1 by omega]; ring
    · by_cases h2 : 2 ^ 52 ≤ n
      · have e1 : (k * 2 ^ 52 + n) / 2 ^ 52 = k + 1 := by omega
        have e2 : 2 ^ 52 + (k * 2 ^ 52 + n) % 2 ^ 52 = n := by omega
        rw [e1, e2, show k + 1 - 1 = k by omega]
      · have : k = 0 := by by_contra hk0; exact h2 (hk hk0)
        omega

/-- A finite magnitude is a multiple of the spacing of any binade it reaches. -/
theorem fMag_multiple {w : F64} {k : Nat} (h : 2 ^ (52 + k) ≤ fMag w) : ∃ m, fMag w = m * 2 ^ k := by
  unfold fMag at *
  have hf : fFrac w < 2 ^ 52 := by rw [fFrac_eq]; exact Nat.mod_lt _ (by norm_num)
  split at h
  · rename_i h0
    exfalso
    have : 2 ^ 52 ≤ 2 ^ (52 + k) := Nat.pow_le_pow_right (by norm_num) (by omega)
    omega
  · rename_i h0
    rw [if_neg h0]
    have hk : k ≤ fExp w - 1 := by
      by_contra hk
      have h1 : (2 ^ 52 + fFrac w) * 2 ^ (fExp w - 1) < 2 ^ 53 * 2 ^ (fExp w - 1) :=
        Nat.mul_lt_mul_of_pos_right (by omega) (by positivity)
      rw [← pow_add] at h1
      have h2 : 2 ^ (53 + (fExp w - 1)) ≤ 2 ^ (52 + k) := Nat.pow_le_pow_right (by norm_num) (by omega)
      omega
    exact ⟨(2 ^ 52 + fFrac w) * 2 ^ (fExp w - 1 - k), by
      rw [mul_assoc, ← pow_add, Nat.sub_add_cancel hk]⟩

/-- No finite magnitude is nearer than the rounded one, and one as near leaves it even. -/
theorem roundedMag_nearest {num den : Nat} (hd : 0 < den) (w : F64) :
    let n := roundEven num (den * 2 ^ roundScale num den)
    let r := n * 2 ^ roundScale num den
    |(r : Int) * den - num| ≤ |(fMag w : Int) * den - num| ∧
      (fMag w ≠ r → |(fMag w : Int) * den - num| = |(r : Int) * den - num| → n % 2 = 0) := by
  intro n r
  set k := roundScale num den with hk
  have hD : 0 < den * 2 ^ k := by positivity
  have hr : ∀ m : Nat, |((m * 2 ^ k : Nat) : Int) * den - num| = |(m : Int) * ((den * 2 ^ k : Nat) : Int) - num| := by
    intro m; congr 1; push_cast; ring
  have near : ∀ m : Nat, |(r : Int) * den - num| ≤ |((m * 2 ^ k : Nat) : Int) * den - num| := by
    intro m; rw [show r = n * 2 ^ k from rfl, hr, hr]; exact roundEven_nearest num _ m hD
  have tie : ∀ m : Nat, m * 2 ^ k ≠ r →
      |((m * 2 ^ k : Nat) : Int) * den - num| = |(r : Int) * den - num| → n % 2 = 0 := by
    intro m hm h
    rw [show r = n * 2 ^ k from rfl, hr, hr] at h
    exact roundEven_tie num _ m hD (by rintro rfl; exact hm rfl) h
  by_cases hw : ∃ m, fMag w = m * 2 ^ k
  · obtain ⟨m, hm⟩ := hw
    rw [hm]; exact ⟨near m, tie m⟩
  · have hk0 : k ≠ 0 := by rintro h0; exact hw ⟨fMag w, by rw [h0]; simp⟩
    have hlt : fMag w < 2 ^ (52 + k) := by
      by_contra h; exact hw (fMag_multiple (by omega))
    have hq := quot_ge (hk ▸ hk0 : roundScale num den ≠ 0)
    rw [← hk] at hq
    have hnum : 2 ^ (52 + k) * den ≤ num := (Nat.le_div_iff_mul_le hd).1 hq
    have h52 := near (2 ^ 52)
    rw [← pow_add] at h52
    have a1 : |((2 ^ (52 + k) : Nat) : Int) * den - num| = num - ((2 ^ (52 + k) : Nat) : Int) * den := by
      rw [abs_of_nonpos (by have : ((2 ^ (52 + k) * den : Nat) : Int) ≤ num := by exact_mod_cast hnum
                            push_cast at this ⊢; linarith)]; ring
    have hwd : (fMag w : Int) * den < ((2 ^ (52 + k) : Nat) : Int) * den := by
      have : fMag w * den < 2 ^ (52 + k) * den := Nat.mul_lt_mul_of_pos_right hlt hd
      exact_mod_cast this
    have a2 : |(fMag w : Int) * den - num| = num - (fMag w : Int) * den := by
      have : ((2 ^ (52 + k) * den : Nat) : Int) ≤ num := by exact_mod_cast hnum
      push_cast at this hwd
      rw [abs_of_nonpos (by linarith)]; ring
    rw [a1] at h52
    constructor
    · rw [a2]; linarith
    · intro _ h; rw [a2] at h; linarith

theorem roundEven_lt_even {num den b : Nat} (hd : 0 < den) (hb : b % 2 = 0) (hb0 : 0 < b) :
    roundEven num den < b ↔ 2 * num < (2 * b - 1) * den := by
  have hmod := Nat.div_add_mod num den
  have hlt := Nat.mod_lt num hd
  have e : (2 * b - 1) * den = 2 * (den * (b - 1)) + den := by
    obtain ⟨c, rfl⟩ : ∃ c, b = c + 1 := ⟨b - 1, by omega⟩
    rw [show 2 * (c + 1) - 1 = 2 * c + 1 by omega, show c + 1 - 1 = c by omega]; ring
  have tri : num / den + 1 ≤ b - 1 ∨ num / den = b - 1 ∨ b ≤ num / den := by omega
  rw [e]
  unfold roundEven
  rcases tri with c | c | c
  · have h1 : den * (num / den + 1) ≤ den * (b - 1) := Nat.mul_le_mul_left _ c
    rw [Nat.mul_add] at h1
    constructor
    · intro _; omega
    · intro _
      split
      · omega
      · split <;> omega
  · rw [← c]
    constructor
    · intro h
      split at h
      · omega
      · split at h <;> omega
    · intro h
      rw [if_pos (by omega)]; omega
  · have h1 : den * b ≤ den * (num / den) := Nat.mul_le_mul_left _ c
    have h2 : den * b = den * (b - 1) + den := by
      rw [← Nat.mul_add_one, Nat.sub_add_cancel hb0]
    constructor
    · intro h
      split at h
      · omega
      · split at h <;> omega
    · intro h; omega

/-- The encoding before it saturates. -/
def roundCode (num den : Nat) : Nat :=
  roundScale num den * 2 ^ 52 + roundEven num (den * 2 ^ roundScale num den)

theorem roundCode_lt {num den : Nat} (hd : 0 < den) :
    roundCode num den < 2047 * 2 ^ 52 ↔ num < overflowUnits * den := by
  have hle := scaled_le (num := num) hd
  have hge := le_scaled (num := num) (den := den)
  have hq := quot_lt num den
  have hq' := quot_ge (num := num) (den := den)
  unfold roundCode overflowUnits
  generalize hk : roundScale num den = k at *
  have tri : k ≤ 2044 ∨ k = 2045 ∨ 2046 ≤ k := by omega
  rcases tri with c | c | c
  · refine iff_of_true (by omega) ?_
    have h1 : num < 2 ^ (53 + k) * den := (Nat.div_lt_iff_lt_mul hd).1 hq
    have h2 : 2 ^ (53 + k) ≤ 2 ^ (53 + 2044) := Nat.pow_le_pow_right (by norm_num) (by omega)
    have h3 : 2 ^ (53 + 2044) * den ≤ (2 ^ 54 - 1) * 2 ^ 2044 * den := by
      rw [pow_add]
      exact Nat.mul_le_mul_right _ (Nat.mul_le_mul_right _ (by norm_num))
    exact lt_of_lt_of_le h1 (le_trans (Nat.mul_le_mul_right _ h2) h3)
  · subst c
    have hD : 0 < den * 2 ^ 2045 := Nat.mul_pos hd (Nat.pow_pos (by norm_num))
    have key := roundEven_lt_even (num := num) (b := 2 ^ 53) hD (by norm_num) (by norm_num)
    have h1 : 2045 * 2 ^ 52 + roundEven num (den * 2 ^ 2045) < 2047 * 2 ^ 52 ↔
        roundEven num (den * 2 ^ 2045) < 2 ^ 53 := by omega
    rw [h1, key, show (2 * 2 ^ 53 - 1) * (den * 2 ^ 2045) = 2 * ((2 ^ 54 - 1) * 2 ^ 2044 * den) by
      rw [show 2 * 2 ^ 53 = 2 ^ 54 by norm_num, pow_succ 2 2044]; ring]
    omega
  · refine iff_of_false (by have := hge (by omega); omega) ?_
    have h1 := (Nat.le_div_iff_mul_le hd).1 (hq' (by omega))
    have h2 : 2 ^ (54 + 2044) ≤ 2 ^ (52 + k) := Nat.pow_le_pow_right (by norm_num) (by omega)
    have h3 : (2 ^ 54 - 1) * 2 ^ 2044 * den ≤ 2 ^ (54 + 2044) * den := by
      rw [pow_add]
      exact Nat.mul_le_mul_right _ (Nat.mul_le_mul_right _ (by norm_num))
    exact not_lt.2 (le_trans h3 (le_trans (Nat.mul_le_mul_right _ h2) h1))

theorem fRound_eq (neg : Bool) (num den : Nat) : fRound neg num den =
    BitVec.ofNat 64 ((if neg then 2 ^ 63 else 0) + min (roundCode num den) (2047 * 2 ^ 52)) := by
  rw [fRound, fRoundMag_eq, roundCode]

@[simp] theorem fSign_fRound (neg : Bool) (num den : Nat) : fSign (fRound neg num den) = neg := by
  rw [fRound_eq]; exact fSign_signMag neg (by omega)

theorem fIsFinite_fRound {neg : Bool} {num den : Nat} (hd : 0 < den) :
    fIsFinite (fRound neg num den) = true ↔ num < overflowUnits * den := by
  rw [← roundCode_lt hd, fRound_eq, fIsFinite, fExp_signMag neg (by omega)]
  simp only [bne_iff_ne, ne_eq]
  omega

@[simp] theorem fIsNaN_fRound (neg : Bool) (num den : Nat) : fIsNaN (fRound neg num den) = false := by
  rw [fRound_eq, fIsNaN, fExp_signMag neg (by omega), fFrac_signMag neg (by omega)]
  simp only [Bool.and_eq_false_iff, beq_eq_false_iff_ne, bne_eq_false_iff_eq]
  omega

theorem fMag_fRound {neg : Bool} {num den : Nat} (hd : 0 < den) (h : roundCode num den < 2047 * 2 ^ 52) :
    fMag (fRound neg num den) =
      roundEven num (den * 2 ^ roundScale num den) * 2 ^ roundScale num den := by
  rw [fRound_eq, min_eq_left h.le]
  exact fMag_scaled neg (scaled_le hd) le_scaled h

theorem abs_signed (b : Bool) (m num : Nat) (den : Nat) :
    |(if b then -(m : Int) else m) * den - (if b then -(num : Int) else num)| = |(m : Int) * den - num| := by
  cases b
  · simp
  · simp only [if_true]; rw [← abs_neg]; congr 1; ring

/-- Rounding is to nearest, ties to even. -/
theorem fRound_roundsTo (neg : Bool) (num den : Nat) (hd : 0 < den) :
    RoundsTo (if neg then -(num : Int) else num) den (fRound neg num den) := by
  have key : fIsFinite (fRound neg num den) = true → ∀ w : F64,
      |fVal (fRound neg num den) * den - (if neg then -(num : Int) else num)| ≤
        |fVal w * den - (if neg then -(num : Int) else num)| ∧
      (fVal w ≠ fVal (fRound neg num den) →
        |fVal w * den - (if neg then -(num : Int) else num)| =
          |fVal (fRound neg num den) * den - (if neg then -(num : Int) else num)| →
        (fRound neg num den).getLsbD 0 = false) := by
    intro hf w
    have hc := (roundCode_lt hd).2 ((fIsFinite_fRound hd).1 hf)
    have hz : fVal (fRound neg num den) = if neg then -(fMag (fRound neg num den) : Int) else fMag (fRound neg num den) := by
      rw [fVal, fSign_fRound]
    have near := roundedMag_nearest (num := num) hd w
    simp only at near
    rw [← fMag_fRound (neg := neg) hd hc] at near
    have lsb : roundEven num (den * 2 ^ roundScale num den) % 2 = 0 → (fRound neg num den).getLsbD 0 = false := by
      intro h
      rw [lsb_eq, fRound_eq, min_eq_left hc.le, toNat_signMag neg (by omega)]
      unfold roundCode
      cases neg <;> simp <;> omega
    rw [hz, abs_signed]
    by_cases hs : fSign w = neg
    · have hw : fVal w = if neg then -(fMag w : Int) else fMag w := by rw [fVal, hs]
      rw [hw, abs_signed]
      refine ⟨near.1, fun hne heq => lsb (near.2 ?_ heq)⟩
      rintro h; rw [h] at hne; exact hne rfl
    · have hw : fVal w = if neg then (fMag w : Int) else -(fMag w : Int) := by
        rw [fVal]; cases neg <;> simp_all
      have far : |fVal w * den - (if neg then -(num : Int) else num)| = (fMag w : Int) * den + num := by
        rw [hw]
        cases neg
        · simp only [Bool.false_eq_true, if_false]
          rw [abs_of_nonpos (by nlinarith [Int.natCast_nonneg (fMag w), Int.natCast_nonneg den, Int.natCast_nonneg num, mul_nonneg (Int.natCast_nonneg (fMag w)) (Int.natCast_nonneg den)])]; ring
        · simp only [if_true]
          rw [abs_of_nonneg (by nlinarith [Int.natCast_nonneg num, mul_nonneg (Int.natCast_nonneg (fMag w)) (Int.natCast_nonneg den)])]; ring
      have hle : |(fMag w : Int) * den - num| ≤ (fMag w : Int) * den + num := by
        rw [abs_le]
        have h1 := mul_nonneg (Int.natCast_nonneg (fMag w)) (Int.natCast_nonneg den)
        have h2 := Int.natCast_nonneg num
        constructor <;> linarith
      have hz0 := roundedMag_nearest (num := num) hd 0
      simp only at hz0
      rw [← fMag_fRound (neg := neg) hd hc] at hz0
      have hzero : fMag (0 : F64) = 0 := by decide
      rw [far]
      refine ⟨le_trans near.1 hle, fun hne heq => ?_⟩
      -- as far as the opposite sign: then the value and w are both zero, or the magnitudes tie
      have h0 := hz0.1
      rw [hzero] at h0
      simp only [Nat.cast_zero, zero_mul, zero_sub, abs_neg, Nat.abs_cast] at h0
      have h1 := mul_nonneg (Int.natCast_nonneg (fMag w)) (Int.natCast_nonneg den)
      have hw0 : (fMag w : Int) * den = 0 := by linarith
      have hw0' : fMag w = 0 := by
        rcases mul_eq_zero.1 hw0 with h | h
        · exact_mod_cast h
        · exfalso; have : den = 0 := by exact_mod_cast h
          omega
      apply lsb
      apply hz0.2
      · rw [hzero]; intro h
        apply hne
        rw [hw, hw0', ← h]; simp
      · rw [hzero, ← heq, hw0]; simp
  refine ⟨fIsNaN_fRound .., ?_, fun hf w _ => (key hf w).1, fun hf w _ => (key hf w).2, ?_⟩
  · rw [fIsFinite_fRound hd]; cases neg <;> simp
  · intro h
    rw [fSign_fRound]
    cases neg
    · simp
    · simp at h ⊢; omega

end Sys2Proof.Machine
end

