-- ==== Sys2Proof/Laws/FloatExact.lean ====
section
/-! SUPPORT. Exact results: an encoding is determined by its sign and magnitude (eq_of_fSign_fMag), and an operation whose
exact result is a binary64 value gives that value's encoding (fRound_exact and, for each operation, one lemma). -/

namespace Sys2Proof.Machine

theorem fFrac_lt (x : F64) : fFrac x < 2 ^ 52 := by rw [fFrac_eq]; exact Nat.mod_lt _ (by norm_num)

theorem fExp_lt (x : F64) : fExp x < 2048 := by rw [fExp_eq]; exact Nat.mod_lt _ (by norm_num)

/-- The larger biased exponent has the larger magnitude. -/
theorem fMag_lt_of_fExp_lt {x y : F64} (h : fExp x < fExp y) : fMag x < fMag y := by
  have hx := fFrac_lt x
  have hy : 2 ^ 52 * 2 ^ (fExp y - 1) ≤ fMag y := by
    rw [fMag, if_neg (by omega)]; exact Nat.mul_le_mul_right _ (by omega)
  refine lt_of_lt_of_le ?_ hy
  by_cases h0 : fExp x = 0
  · rw [fMag, if_pos h0]
    exact lt_of_lt_of_le hx (Nat.le_mul_of_pos_right _ (by positivity))
  · rw [fMag, if_neg h0]
    calc (2 ^ 52 + fFrac x) * 2 ^ (fExp x - 1) < 2 ^ 52 * 2 * 2 ^ (fExp x - 1) :=
          Nat.mul_lt_mul_of_pos_right (by omega) (by positivity)
      _ = 2 ^ 52 * 2 ^ (fExp x - 1 + 1) := by rw [pow_succ]; ring
      _ ≤ 2 ^ 52 * 2 ^ (fExp y - 1) :=
          Nat.mul_le_mul_left _ (Nat.pow_le_pow_right (by norm_num) (by omega))

/-- Sign and magnitude determine the encoding. -/
theorem eq_of_fSign_fMag {x y : F64} (hs : fSign x = fSign y) (hm : fMag x = fMag y) : x = y := by
  have he : fExp x = fExp y := by
    rcases lt_trichotomy (fExp x) (fExp y) with h | h | h
    · exact absurd hm (fMag_lt_of_fExp_lt h).ne
    · exact h
    · exact absurd hm (fMag_lt_of_fExp_lt h).ne'
  have hf : fFrac x = fFrac y := by
    unfold fMag at hm
    rw [he] at hm
    split at hm
    · exact hm
    · have := Nat.eq_of_mul_eq_mul_right (by positivity) hm
      omega
  apply BitVec.eq_of_toNat_eq
  have hx := x.isLt
  have hy := y.isLt
  rw [fSign_eq, fSign_eq, decide_eq_decide] at hs
  rw [fExp_eq, fExp_eq] at he
  rw [fFrac_eq, fFrac_eq] at hf
  omega

theorem fVal_natAbs (x : F64) : (fVal x).natAbs = fMag x := by
  unfold fVal; split <;> simp

/-- A zero or a value of the other sign aside, the value determines the encoding. -/
theorem eq_of_fSign_fVal {x y : F64} (hs : fSign x = fSign y) (hv : fVal x = fVal y) : x = y :=
  eq_of_fSign_fMag hs (by rw [← fVal_natAbs, ← fVal_natAbs, hv])

theorem fSign_of_fVal_ne_zero {x : F64} (h : fVal x ≠ 0) : fSign x = decide (fVal x < 0) := by
  unfold fVal at *
  cases hs : fSign x <;> simp_all; omega

/-- Every finite value is below the least magnitude that rounds to infinity. -/
theorem fMag_lt_overflowUnits {x : F64} (h : fIsFinite x = true) : fMag x < overflowUnits := by
  have he : fExp x ≤ 2046 := by
    have := fExp_lt x
    simp only [fIsFinite, bne_iff_ne, ne_eq] at h
    omega
  have hf := fFrac_lt x
  have hp : (2 : Nat) ^ 2045 = 2 * 2 ^ 2044 := by rw [← pow_succ']
  have h2 : 0 < (2 : Nat) ^ 2044 := by positivity
  unfold overflowUnits fMag
  split
  · exact lt_of_lt_of_le hf (le_trans (by norm_num) (Nat.le_mul_of_pos_right (2 ^ 54 - 1) h2))
  · have h1 : 2 ^ (fExp x - 1) ≤ 2 ^ 2045 := Nat.pow_le_pow_right (by norm_num) (by omega)
    have h3 : 2 ^ 52 + fFrac x ≤ 2 ^ 53 - 1 := by omega
    calc (2 ^ 52 + fFrac x) * 2 ^ (fExp x - 1) ≤ (2 ^ 53 - 1) * 2 ^ 2045 := Nat.mul_le_mul h3 h1
      _ < (2 ^ 54 - 1) * 2 ^ 2044 := by
        rw [hp]; generalize (2 : Nat) ^ 2044 = a at *; omega

/-- Rounding a value that has an encoding gives it. -/
theorem fRound_exact {w : F64} {num den : Nat} (hd : 0 < den) (hw : fIsFinite w = true)
    (h : num = fMag w * den) : fRound (fSign w) num den = w := by
  have R := fRound_roundsTo (fSign w) num den hd
  have hfin : fIsFinite (fRound (fSign w) num den) = true := by
    rw [fIsFinite_fRound hd, h]
    exact Nat.mul_lt_mul_of_pos_right (fMag_lt_overflowUnits hw) hd
  have hval : fVal w * den - (if fSign w then -(num : Int) else num) = 0 := by
    subst h; unfold fVal; split <;> push_cast <;> ring
  have hn := R.nearest hfin w hw
  rw [hval, abs_zero, abs_nonpos_iff] at hn
  refine eq_of_fSign_fVal (fSign_fRound ..) ?_
  have : (den : Int) ≠ 0 := by exact_mod_cast hd.ne'
  have h' : fVal (fRound (fSign w) num den) * den = fVal w * den := by linarith
  exact mul_right_cancel₀ this h'

/-! ### Finite operands -/

theorem fIsNaN_of_finite {x : F64} (h : fIsFinite x = true) : fIsNaN x = false := by
  simp only [fIsFinite, bne_iff_ne, ne_eq] at h
  simp [fIsNaN, h]

theorem fIsInf_of_finite {x : F64} (h : fIsFinite x = true) : fIsInf x = false := by
  simp only [fIsFinite, bne_iff_ne, ne_eq] at h
  simp [fIsInf, h]

theorem fMag_eq_zero_iff (x : F64) : fMag x = 0 ↔ fIsZero x = true := by
  unfold fMag fIsZero
  split
  · rename_i h; simp [h]
  · rename_i h; simp [h]

theorem oneUnits_pos : 0 < oneUnits := by unfold oneUnits; positivity

/-- A finite sum that has an encoding and is not zero. -/
theorem fAdd_exact {nan x y w : F64} (hx : fIsFinite x = true) (hy : fIsFinite y = true) (hw : fIsFinite w = true)
    (h : fVal x + fVal y = fVal w) (h0 : fVal w ≠ 0) : fAdd nan x y = w := by
  rw [fAdd, fIsNaN_of_finite hx, fIsNaN_of_finite hy, fIsInf_of_finite hx, fIsInf_of_finite hy, h, if_neg h0,
    ← fSign_of_fVal_ne_zero h0, fVal_natAbs]
  simpa using fRound_exact (w := w) Nat.one_pos hw (by simp)

/-- A finite product that has an encoding. -/
theorem fMul_exact {nan x y w : F64} (hx : fIsFinite x = true) (hy : fIsFinite y = true) (hw : fIsFinite w = true)
    (hs : fSign w = (fSign x != fSign y)) (h : fMag x * fMag y = fMag w * oneUnits) : fMul nan x y = w := by
  rw [fMul, fIsNaN_of_finite hx, fIsNaN_of_finite hy, fIsInf_of_finite hx, fIsInf_of_finite hy, ← hs]
  simpa using fRound_exact oneUnits_pos hw h

/-- A finite quotient that has an encoding. -/
theorem fDiv_exact {nan x y w : F64} (hx : fIsFinite x = true) (hy : fIsFinite y = true) (hw : fIsFinite w = true)
    (hs : fSign w = (fSign x != fSign y)) (hy0 : fMag y ≠ 0) (h : fMag x * oneUnits = fMag w * fMag y) :
    fDiv nan x y = w := by
  have hz : fIsZero y = false := by
    rw [Bool.eq_false_iff]; exact fun hz => hy0 ((fMag_eq_zero_iff y).2 hz)
  rw [fDiv, fIsNaN_of_finite hx, fIsNaN_of_finite hy, fIsInf_of_finite hx, fIsInf_of_finite hy, hz, ← hs]
  simpa using fRound_exact (Nat.pos_of_ne_zero hy0) hw h

end Sys2Proof.Machine
end

