-- ==== Sys2Proof/Laws/State.lean ====
section
/-! SUPPORT. One lemma per field per update of the registers and of the state, so that no later proof unfolds a
record update. -/

namespace Sys2Proof.Machine

/-! ### Register updates -/

@[simp] theorem writeAdpcm_pred (p i : BitVec 16) (r : Regs) : (writeAdpcm p i r).pred = p := rfl
@[simp] theorem writeAdpcm_sidx (p i : BitVec 16) (r : Regs) : (writeAdpcm p i r).sidx = i := rfl
@[simp] theorem writeAdpcm_algo (p i : BitVec 16) (r : Regs) : (writeAdpcm p i r).algo = r.algo := rfl
@[simp] theorem writeAdpcm_cutoff (p i : BitVec 16) (r : Regs) : (writeAdpcm p i r).cutoff = r.cutoff := rfl
@[simp] theorem writeAdpcm_qreg (p i : BitVec 16) (r : Regs) : (writeAdpcm p i r).qreg = r.qreg := rfl
@[simp] theorem writeAdpcm_srate (p i : BitVec 16) (r : Regs) : (writeAdpcm p i r).srate = r.srate := rfl
@[simp] theorem writeAdpcm_gainDb (p i : BitVec 16) (r : Regs) : (writeAdpcm p i r).gainDb = r.gainDb := rfl
@[simp] theorem writeAdpcm_a0 (p i : BitVec 16) (r : Regs) : (writeAdpcm p i r).a0 = r.a0 := rfl
@[simp] theorem writeAdpcm_a1 (p i : BitVec 16) (r : Regs) : (writeAdpcm p i r).a1 = r.a1 := rfl
@[simp] theorem writeAdpcm_a2 (p i : BitVec 16) (r : Regs) : (writeAdpcm p i r).a2 = r.a2 := rfl
@[simp] theorem writeAdpcm_b1 (p i : BitVec 16) (r : Regs) : (writeAdpcm p i r).b1 = r.b1 := rfl
@[simp] theorem writeAdpcm_b2 (p i : BitVec 16) (r : Regs) : (writeAdpcm p i r).b2 = r.b2 := rfl
@[simp] theorem writeAdpcm_c0 (p i : BitVec 16) (r : Regs) : (writeAdpcm p i r).c0 = r.c0 := rfl
@[simp] theorem writeAdpcm_d0 (p i : BitVec 16) (r : Regs) : (writeAdpcm p i r).d0 = r.d0 := rfl
@[simp] theorem writeAdpcm_s0 (p i : BitVec 16) (r : Regs) : (writeAdpcm p i r).s0 = r.s0 := rfl
@[simp] theorem writeAdpcm_s1 (p i : BitVec 16) (r : Regs) : (writeAdpcm p i r).s1 = r.s1 := rfl
@[simp] theorem writeAdpcm_gainLin (p i : BitVec 16) (r : Regs) : (writeAdpcm p i r).gainLin = r.gainLin := rfl
@[simp] theorem writeAdpcm_valid (p i : BitVec 16) (r : Regs) : (writeAdpcm p i r).valid = r.valid := rfl
@[simp] theorem writeAdpcm_errlog (p i : BitVec 16) (r : Regs) : (writeAdpcm p i r).errlog = r.errlog := rfl

@[simp] theorem writeCoeffs_pred (c : Coeffs) (r : Regs) : (writeCoeffs c r).pred = r.pred := rfl
@[simp] theorem writeCoeffs_sidx (c : Coeffs) (r : Regs) : (writeCoeffs c r).sidx = r.sidx := rfl
@[simp] theorem writeCoeffs_algo (c : Coeffs) (r : Regs) : (writeCoeffs c r).algo = r.algo := rfl
@[simp] theorem writeCoeffs_cutoff (c : Coeffs) (r : Regs) : (writeCoeffs c r).cutoff = r.cutoff := rfl
@[simp] theorem writeCoeffs_qreg (c : Coeffs) (r : Regs) : (writeCoeffs c r).qreg = r.qreg := rfl
@[simp] theorem writeCoeffs_srate (c : Coeffs) (r : Regs) : (writeCoeffs c r).srate = r.srate := rfl
@[simp] theorem writeCoeffs_gainDb (c : Coeffs) (r : Regs) : (writeCoeffs c r).gainDb = r.gainDb := rfl
@[simp] theorem writeCoeffs_a0 (c : Coeffs) (r : Regs) : (writeCoeffs c r).a0 = c.a0 := rfl
@[simp] theorem writeCoeffs_a1 (c : Coeffs) (r : Regs) : (writeCoeffs c r).a1 = c.a1 := rfl
@[simp] theorem writeCoeffs_a2 (c : Coeffs) (r : Regs) : (writeCoeffs c r).a2 = c.a2 := rfl
@[simp] theorem writeCoeffs_b1 (c : Coeffs) (r : Regs) : (writeCoeffs c r).b1 = c.b1 := rfl
@[simp] theorem writeCoeffs_b2 (c : Coeffs) (r : Regs) : (writeCoeffs c r).b2 = c.b2 := rfl
@[simp] theorem writeCoeffs_c0 (c : Coeffs) (r : Regs) : (writeCoeffs c r).c0 = c.c0 := rfl
@[simp] theorem writeCoeffs_d0 (c : Coeffs) (r : Regs) : (writeCoeffs c r).d0 = c.d0 := rfl
@[simp] theorem writeCoeffs_s0 (c : Coeffs) (r : Regs) : (writeCoeffs c r).s0 = r.s0 := rfl
@[simp] theorem writeCoeffs_s1 (c : Coeffs) (r : Regs) : (writeCoeffs c r).s1 = r.s1 := rfl
@[simp] theorem writeCoeffs_gainLin (c : Coeffs) (r : Regs) : (writeCoeffs c r).gainLin = r.gainLin := rfl
@[simp] theorem writeCoeffs_valid (c : Coeffs) (r : Regs) : (writeCoeffs c r).valid = validSet r.valid .coefV := rfl
@[simp] theorem writeCoeffs_errlog (c : Coeffs) (r : Regs) : (writeCoeffs c r).errlog = r.errlog := rfl

@[simp] theorem writeGain_pred (g : F64) (r : Regs) : (writeGain g r).pred = r.pred := rfl
@[simp] theorem writeGain_sidx (g : F64) (r : Regs) : (writeGain g r).sidx = r.sidx := rfl
@[simp] theorem writeGain_algo (g : F64) (r : Regs) : (writeGain g r).algo = r.algo := rfl
@[simp] theorem writeGain_cutoff (g : F64) (r : Regs) : (writeGain g r).cutoff = r.cutoff := rfl
@[simp] theorem writeGain_qreg (g : F64) (r : Regs) : (writeGain g r).qreg = r.qreg := rfl
@[simp] theorem writeGain_srate (g : F64) (r : Regs) : (writeGain g r).srate = r.srate := rfl
@[simp] theorem writeGain_gainDb (g : F64) (r : Regs) : (writeGain g r).gainDb = r.gainDb := rfl
@[simp] theorem writeGain_a0 (g : F64) (r : Regs) : (writeGain g r).a0 = r.a0 := rfl
@[simp] theorem writeGain_a1 (g : F64) (r : Regs) : (writeGain g r).a1 = r.a1 := rfl
@[simp] theorem writeGain_a2 (g : F64) (r : Regs) : (writeGain g r).a2 = r.a2 := rfl
@[simp] theorem writeGain_b1 (g : F64) (r : Regs) : (writeGain g r).b1 = r.b1 := rfl
@[simp] theorem writeGain_b2 (g : F64) (r : Regs) : (writeGain g r).b2 = r.b2 := rfl
@[simp] theorem writeGain_c0 (g : F64) (r : Regs) : (writeGain g r).c0 = r.c0 := rfl
@[simp] theorem writeGain_d0 (g : F64) (r : Regs) : (writeGain g r).d0 = r.d0 := rfl
@[simp] theorem writeGain_s0 (g : F64) (r : Regs) : (writeGain g r).s0 = r.s0 := rfl
@[simp] theorem writeGain_s1 (g : F64) (r : Regs) : (writeGain g r).s1 = r.s1 := rfl
@[simp] theorem writeGain_gainLin (g : F64) (r : Regs) : (writeGain g r).gainLin = g := rfl
@[simp] theorem writeGain_valid (g : F64) (r : Regs) : (writeGain g r).valid = validSet r.valid .gainV := rfl
@[simp] theorem writeGain_errlog (g : F64) (r : Regs) : (writeGain g r).errlog = r.errlog := rfl

@[simp] theorem writeDelay_pred (u v : F64) (r : Regs) : (writeDelay u v r).pred = r.pred := rfl
@[simp] theorem writeDelay_sidx (u v : F64) (r : Regs) : (writeDelay u v r).sidx = r.sidx := rfl
@[simp] theorem writeDelay_algo (u v : F64) (r : Regs) : (writeDelay u v r).algo = r.algo := rfl
@[simp] theorem writeDelay_cutoff (u v : F64) (r : Regs) : (writeDelay u v r).cutoff = r.cutoff := rfl
@[simp] theorem writeDelay_qreg (u v : F64) (r : Regs) : (writeDelay u v r).qreg = r.qreg := rfl
@[simp] theorem writeDelay_srate (u v : F64) (r : Regs) : (writeDelay u v r).srate = r.srate := rfl
@[simp] theorem writeDelay_gainDb (u v : F64) (r : Regs) : (writeDelay u v r).gainDb = r.gainDb := rfl
@[simp] theorem writeDelay_a0 (u v : F64) (r : Regs) : (writeDelay u v r).a0 = r.a0 := rfl
@[simp] theorem writeDelay_a1 (u v : F64) (r : Regs) : (writeDelay u v r).a1 = r.a1 := rfl
@[simp] theorem writeDelay_a2 (u v : F64) (r : Regs) : (writeDelay u v r).a2 = r.a2 := rfl
@[simp] theorem writeDelay_b1 (u v : F64) (r : Regs) : (writeDelay u v r).b1 = r.b1 := rfl
@[simp] theorem writeDelay_b2 (u v : F64) (r : Regs) : (writeDelay u v r).b2 = r.b2 := rfl
@[simp] theorem writeDelay_c0 (u v : F64) (r : Regs) : (writeDelay u v r).c0 = r.c0 := rfl
@[simp] theorem writeDelay_d0 (u v : F64) (r : Regs) : (writeDelay u v r).d0 = r.d0 := rfl
@[simp] theorem writeDelay_s0 (u v : F64) (r : Regs) : (writeDelay u v r).s0 = u := rfl
@[simp] theorem writeDelay_s1 (u v : F64) (r : Regs) : (writeDelay u v r).s1 = v := rfl
@[simp] theorem writeDelay_gainLin (u v : F64) (r : Regs) : (writeDelay u v r).gainLin = r.gainLin := rfl
@[simp] theorem writeDelay_valid (u v : F64) (r : Regs) : (writeDelay u v r).valid = r.valid := rfl
@[simp] theorem writeDelay_errlog (u v : F64) (r : Regs) : (writeDelay u v r).errlog = r.errlog := rfl

@[simp] theorem logError_pred (k : Status) (r : Regs) : (logError k r).pred = r.pred := rfl
@[simp] theorem logError_sidx (k : Status) (r : Regs) : (logError k r).sidx = r.sidx := rfl
@[simp] theorem logError_algo (k : Status) (r : Regs) : (logError k r).algo = r.algo := rfl
@[simp] theorem logError_cutoff (k : Status) (r : Regs) : (logError k r).cutoff = r.cutoff := rfl
@[simp] theorem logError_qreg (k : Status) (r : Regs) : (logError k r).qreg = r.qreg := rfl
@[simp] theorem logError_srate (k : Status) (r : Regs) : (logError k r).srate = r.srate := rfl
@[simp] theorem logError_gainDb (k : Status) (r : Regs) : (logError k r).gainDb = r.gainDb := rfl
@[simp] theorem logError_a0 (k : Status) (r : Regs) : (logError k r).a0 = r.a0 := rfl
@[simp] theorem logError_a1 (k : Status) (r : Regs) : (logError k r).a1 = r.a1 := rfl
@[simp] theorem logError_a2 (k : Status) (r : Regs) : (logError k r).a2 = r.a2 := rfl
@[simp] theorem logError_b1 (k : Status) (r : Regs) : (logError k r).b1 = r.b1 := rfl
@[simp] theorem logError_b2 (k : Status) (r : Regs) : (logError k r).b2 = r.b2 := rfl
@[simp] theorem logError_c0 (k : Status) (r : Regs) : (logError k r).c0 = r.c0 := rfl
@[simp] theorem logError_d0 (k : Status) (r : Regs) : (logError k r).d0 = r.d0 := rfl
@[simp] theorem logError_s0 (k : Status) (r : Regs) : (logError k r).s0 = r.s0 := rfl
@[simp] theorem logError_s1 (k : Status) (r : Regs) : (logError k r).s1 = r.s1 := rfl
@[simp] theorem logError_gainLin (k : Status) (r : Regs) : (logError k r).gainLin = r.gainLin := rfl
@[simp] theorem logError_valid (k : Status) (r : Regs) : (logError k r).valid = r.valid := rfl
@[simp] theorem logError_errlog (k : Status) (r : Regs) : (logError k r).errlog = errlogSet r.errlog k := rfl

/-! ### A parameter write: the written register and VALID change, nothing else (R201, R205) -/

@[simp] theorem writeParam_pred (p : Param) (w : Word64) (r : Regs) : (writeParam p w r).pred = r.pred := by cases p <;> rfl
@[simp] theorem writeParam_sidx (p : Param) (w : Word64) (r : Regs) : (writeParam p w r).sidx = r.sidx := by cases p <;> rfl
@[simp] theorem writeParam_algo (p : Param) (w : Word64) (r : Regs) :
    (writeParam p w r).algo = if p = .algo then w else r.algo := by cases p <;> rfl
@[simp] theorem writeParam_cutoff (p : Param) (w : Word64) (r : Regs) :
    (writeParam p w r).cutoff = if p = .cutoff then w else r.cutoff := by cases p <;> rfl
@[simp] theorem writeParam_qreg (p : Param) (w : Word64) (r : Regs) :
    (writeParam p w r).qreg = if p = .qreg then w else r.qreg := by cases p <;> rfl
@[simp] theorem writeParam_srate (p : Param) (w : Word64) (r : Regs) :
    (writeParam p w r).srate = if p = .srate then w.extractLsb' 0 32 else r.srate := by cases p <;> rfl
@[simp] theorem writeParam_gainDb (p : Param) (w : Word64) (r : Regs) :
    (writeParam p w r).gainDb = if p = .gainDb then w else r.gainDb := by cases p <;> rfl
@[simp] theorem writeParam_a0 (p : Param) (w : Word64) (r : Regs) : (writeParam p w r).a0 = r.a0 := by cases p <;> rfl
@[simp] theorem writeParam_a1 (p : Param) (w : Word64) (r : Regs) : (writeParam p w r).a1 = r.a1 := by cases p <;> rfl
@[simp] theorem writeParam_a2 (p : Param) (w : Word64) (r : Regs) : (writeParam p w r).a2 = r.a2 := by cases p <;> rfl
@[simp] theorem writeParam_b1 (p : Param) (w : Word64) (r : Regs) : (writeParam p w r).b1 = r.b1 := by cases p <;> rfl
@[simp] theorem writeParam_b2 (p : Param) (w : Word64) (r : Regs) : (writeParam p w r).b2 = r.b2 := by cases p <;> rfl
@[simp] theorem writeParam_c0 (p : Param) (w : Word64) (r : Regs) : (writeParam p w r).c0 = r.c0 := by cases p <;> rfl
@[simp] theorem writeParam_d0 (p : Param) (w : Word64) (r : Regs) : (writeParam p w r).d0 = r.d0 := by cases p <;> rfl
@[simp] theorem writeParam_s0 (p : Param) (w : Word64) (r : Regs) : (writeParam p w r).s0 = r.s0 := by cases p <;> rfl
@[simp] theorem writeParam_s1 (p : Param) (w : Word64) (r : Regs) : (writeParam p w r).s1 = r.s1 := by cases p <;> rfl
@[simp] theorem writeParam_gainLin (p : Param) (w : Word64) (r : Regs) : (writeParam p w r).gainLin = r.gainLin := by cases p <;> rfl
@[simp] theorem writeParam_valid (p : Param) (w : Word64) (r : Regs) :
    (writeParam p w r).valid = writeEffects p r.valid := rfl
@[simp] theorem writeParam_errlog (p : Param) (w : Word64) (r : Regs) : (writeParam p w r).errlog = r.errlog := by cases p <;> rfl

/-! ### State updates -/

@[simp] theorem withRegs_regs (r : Regs) (s : State) : (withRegs r s).regs = r := rfl
@[simp] theorem withRegs_stepTable (r : Regs) (s : State) : (withRegs r s).stepTable = s.stepTable := rfl
@[simp] theorem withRegs_pending (r : Regs) (s : State) : (withRegs r s).pending = s.pending := rfl
@[simp] theorem withRegs_position (r : Regs) (s : State) : (withRegs r s).position = s.position := rfl
@[simp] theorem withRegs_responses (r : Regs) (s : State) : (withRegs r s).responses = s.responses := rfl
@[simp] theorem withRegs_draws (r : Regs) (s : State) : (withRegs r s).draws = s.draws := rfl

@[simp] theorem reply_regs (x : Response) (s : State) : (reply x s).regs = s.regs := rfl
@[simp] theorem reply_stepTable (x : Response) (s : State) : (reply x s).stepTable = s.stepTable := rfl
@[simp] theorem reply_pending (x : Response) (s : State) : (reply x s).pending = s.pending := rfl
@[simp] theorem reply_position (x : Response) (s : State) : (reply x s).position = s.position := rfl
@[simp] theorem reply_responses (x : Response) (s : State) : (reply x s).responses = x :: s.responses := rfl
@[simp] theorem reply_draws (x : Response) (s : State) : (reply x s).draws = s.draws := rfl

@[simp] theorem nextDraw_regs (s : State) : (nextDraw s).regs = s.regs := rfl
@[simp] theorem nextDraw_stepTable (s : State) : (nextDraw s).stepTable = s.stepTable := rfl
@[simp] theorem nextDraw_pending (s : State) : (nextDraw s).pending = s.pending := rfl
@[simp] theorem nextDraw_position (s : State) : (nextDraw s).position = s.position := rfl
@[simp] theorem nextDraw_responses (s : State) : (nextDraw s).responses = s.responses := rfl
@[simp] theorem nextDraw_draws (s : State) : (nextDraw s).draws = s.draws + 1 := rfl

@[simp] theorem resetRegs_regs (s : State) : (resetRegs s).regs = regsReset := rfl
@[simp] theorem resetRegs_stepTable (s : State) : (resetRegs s).stepTable = s.stepTable := rfl
@[simp] theorem resetRegs_pending (s : State) : (resetRegs s).pending = s.pending := rfl
@[simp] theorem resetRegs_position (s : State) : (resetRegs s).position = s.position := rfl
@[simp] theorem resetRegs_responses (s : State) : (resetRegs s).responses = s.responses := rfl
@[simp] theorem resetRegs_draws (s : State) : (resetRegs s).draws = s.draws := rfl

end Sys2Proof.Machine
end

