-- ==== Sys2Proof/Laws/Ops.lean ====
section
/-! SUPPORT. What each shared operation can do, said once: ending a command with a response or with a status,
the register map, the fields of VALID and ERRLOG, and what one command can do to the state around the registers. -/

namespace Sys2Proof.Machine

/-! ### Outcomes -/

theorem respond_eq_next {v : Word64} {s t : State} (h : respond v s = .next t) :
    t = reply ⟨0, v⟩ s := by
  simpa [respond, eq_comm] using h

theorem raiseStatus_eq_next {k : Status} {s t : State} (h : raiseStatus k s = .next t) :
    t = reply ⟨statusCode k, 0⟩ (withRegs (logError k s.regs) s) := by
  simpa [raiseStatus, eq_comm] using h

/-! ### Status codes -/

@[simp] theorem statusCode_ne_zero (k : Status) : statusCode k ≠ 0 := by cases k <;> decide

theorem statusCode_injective {k l : Status} (h : statusCode k = statusCode l) : k = l := by
  cases k <;> cases l <;> first | rfl | exact absurd h (by decide)

/-! ### The fields of VALID and the bits of ERRLOG -/

theorem validBit_injective {f g : ValidField} (h : validBit f = validBit g) : f = g := by
  cases f <;> cases g <;> first | rfl | exact absurd h (by decide)

theorem validBit_lt (f : ValidField) : validBit f < 6 := by cases f <;> decide

theorem getLsbD_oneBit (n i : Nat) (h : n < 64) : (1#64 <<< n).getLsbD i = decide (i = n) := by
  by_cases hi : i = n
  · subst hi; simp [h]
  · have : ¬ (i - n = 0 ∧ n ≤ i) := by omega
    simp only [BitVec.getLsbD_shiftLeft, BitVec.getLsbD_one, hi, decide_false]
    by_cases h1 : i < n <;> simp [h1]
    intro; omega

theorem validSet_getLsbD (v : Word64) (f : ValidField) (i : Nat) :
    (validSet v f).getLsbD i = (v.getLsbD i || decide (i = validBit f)) := by
  have := validBit_lt f
  simp [validSet, getLsbD_oneBit _ i (by omega : validBit f < 64)]

theorem validClear_getLsbD (v : Word64) (f : ValidField) (i : Nat) :
    (validClear v f).getLsbD i = (v.getLsbD i && !decide (i = validBit f)) := by
  have := validBit_lt f
  by_cases hi : i < 64
  · rw [validClear, BitVec.getLsbD_and, BitVec.getLsbD_not, getLsbD_oneBit _ i (by omega)]
    simp [hi]
  · simp [validClear, BitVec.getLsbD_of_ge v i (by omega)]

theorem errlogSet_getLsbD (v : Word64) (k : Status) (i : Nat) :
    (errlogSet v k).getLsbD i = (v.getLsbD i || decide (i = (statusCode k).toNat)) := by
  have : (statusCode k).toNat < 64 := by have := (statusCode k).isLt; omega
  rw [errlogSet, BitVec.getLsbD_or, getLsbD_oneBit _ i this]

/-! ### What each register write does to the fields of VALID -/

theorem validBit_eq_iff {f g : ValidField} : validBit f = validBit g ↔ f = g :=
  ⟨validBit_injective, fun h => by rw [h]⟩

theorem isValid_set (r : Regs) (f g : ValidField) :
    (validSet r.valid g).getLsbD (validBit f) = (isValid r f || decide (f = g)) := by
  rw [validSet_getLsbD, isValid]; simp only [validBit_eq_iff]

@[simp] theorem isValid_writeCoeffs (c : Coeffs) (r : Regs) (f : ValidField) :
    isValid (writeCoeffs c r) f = (isValid r f || decide (f = .coefV)) := isValid_set r f .coefV

@[simp] theorem isValid_writeGain (g : F64) (r : Regs) (f : ValidField) :
    isValid (writeGain g r) f = (isValid r f || decide (f = .gainV)) := isValid_set r f .gainV

@[simp] theorem isValid_writeAdpcm (p i : BitVec 16) (r : Regs) (f : ValidField) :
    isValid (writeAdpcm p i r) f = isValid r f := rfl

@[simp] theorem isValid_writeDelay (u v : F64) (r : Regs) (f : ValidField) :
    isValid (writeDelay u v r) f = isValid r f := rfl

@[simp] theorem isValid_logError (k : Status) (r : Regs) (f : ValidField) :
    isValid (logError k r) f = isValid r f := rfl

@[simp] theorem isValid_regsReset (f : ValidField) : isValid regsReset f = false := by
  cases f <;> rfl

/-- A parameter write marks its own register written and the coefficients, or the gain, not valid (R205). -/
theorem isValid_writeParam (p : Param) (w : Word64) (r : Regs) (f : ValidField) :
    isValid (writeParam p w r) f =
      ((isValid r f || decide ((p, f) ∈ [(Param.cutoff, ValidField.cutoffW), (.qreg, .qW), (.srate, .srateW),
        (.gainDb, .gdbW)])) && !decide (f = if p = .gainDb then .gainV else .coefV)) := by
  unfold isValid
  rw [writeParam_valid]
  cases p <;> simp only [writeEffects, validClear_getLsbD, validSet_getLsbD] <;> cases f <;> simp [validBit]

/-! ### The register map -/

@[simp] theorem regOfRsel_rselOfReg (x : Reg) : regOfRsel (rselOfReg x) = some x := by
  cases x <;> rfl

theorem rselOfReg_of_regOfRsel {b : BitVec 8} {x : Reg} (h : regOfRsel b = some x) :
    rselOfReg x = b := by
  unfold regOfRsel at h
  split at h <;> first | (cases h; rfl) | cases h

/-! ### One command -/

/-- Every command ends in a next state with one more response; the host's list, its index and the table
stay as they were. -/
theorem exec_cases (i : Instr) (s : State) :
    ∃ r x d, exec i s = .next ⟨r, s.stepTable, s.pending, s.position, x :: s.responses, d⟩ := by
  cases i <;>
    simp only [exec, execNop, execAdInit, execAdNib, execAdByte, execRegWr, execRegRd, execBqCalc,
      execGainCalc, execBqClr, execBqProc, execBqProcr, execReset, filterStep] <;>
    (repeat' split) <;>
    exact ⟨_, _, _, rfl⟩

/-- A transaction ends in a next state with one more response. -/
theorem transact_cases (t : Transaction) (s : State) :
    ∃ r x d, transact t s = .next ⟨r, s.stepTable, s.pending, s.position, x :: s.responses, d⟩ := by
  unfold transact
  split
  · exact exec_cases _ s
  · exact ⟨_, _, _, rfl⟩

/-- With nothing issued, a step changes nothing. -/
theorem step_idle {s : State} (h : s.pending = []) : step s = .next s := by
  unfold step; rw [h]

/-- A step with something issued handles that event. -/
theorem step_event {s : State} {e : PortEvent} {rest : List PortEvent} (h : s.pending = e :: rest) :
    step s = handleEvent e (takeEvent e rest s) := by
  unfold step; rw [h]

/-- What a step can do: nothing, a reset, or one transaction. -/
theorem step_cases (s : State) :
    step s = .next s ∨
    (∃ c rest, s.pending = .rst c :: rest ∧
      step s = .next (hardwareReset (takeEvent (.rst c) rest s))) ∨
    (∃ t rest, s.pending = .command t :: rest ∧
      step s = transact t (takeEvent (.command t) rest s)) := by
  cases h : s.pending with
  | nil => exact .inl (step_idle h)
  | cons e rest =>
    cases e with
    | command t => exact .inr (.inr ⟨t, rest, rfl, step_event h⟩)
    | rst c => exact .inr (.inl ⟨c, rest, rfl, step_event h⟩)

end Sys2Proof.Machine
end

