-- ==== Sys2Proof/Laws/PerInstr.lean ====
section
/-! SUPPORT. One lemma per command: the fields its format requires to be 0 are 0 exactly if its encoding
matches its row of spec/opcode_table.json (spec/30_encoding.md R82, R83, R89). -/

namespace Sys2Proof.Laws.TableRow

/-- The (mask, match) pair of a command's row. -/
def maskMatch : Opcode → Word32 × Word32
  | .nop => (0xFFFFFFFF, 0x00000000)
  | .adInit => (0xFFFFFFFF, 0x01000000)
  | .adNib => (0xFFFFFFF0, 0x02000000)
  | .adByte => (0xFFFFFF00, 0x03000000)
  | .regWr => (0xFF00FFFF, 0x10000000)
  | .regRd => (0xFF00FFFF, 0x11000000)
  | .bqCalc => (0xFFFFFFFF, 0x20000000)
  | .gainCalc => (0xFFFFFFFF, 0x21000000)
  | .bqClr => (0xFFFFFFFF, 0x22000000)
  | .bqProc => (0xFFFFFFFF, 0x23000000)
  | .bqProcr => (0xFFFFFFFF, 0x24000000)
  | .reset => (0xFFFFFFFF, 0x30000000)

/-- The encoding matches the command's row exactly if its fixed-zero fields are zero. -/
def Statement (i : Instr) : Prop :=
  (encode i).cmd &&& (maskMatch (opcodeOf i)).1 = (maskMatch (opcodeOf i)).2 ↔ reservedZero i = true

/-- A word of OPC and 24 low bits against a mask and a pattern of the same shape. -/
theorem low24_iff (o : BitVec 8) (l m : BitVec 24) :
    (o ++ l : Word32) &&& (0xFF#8 ++ m) = o ++ 0#24 ↔ l &&& m = 0 := by
  have h : ∀ o : BitVec 8, o &&& 0xFF#8 = o := by decide
  rw [append_and_append, append_eq_append_iff, h]
  simp

theorem whole_iff (o : BitVec 8) (l : BitVec 24) :
    (o ++ l : Word32) &&& 0xFFFFFFFF = o ++ 0#24 ↔ (l == 0) = true := by
  rw [show (0xFFFFFFFF : Word32) = 0xFF#8 ++ 0xFFFFFF#24 from rfl, low24_iff,
    show (0xFFFFFF#24) = BitVec.allOnes 24 from rfl, BitVec.and_allOnes]
  simp

theorem register_iff (o rsel : BitVec 8) (l : BitVec 16) :
    (o ++ (rsel ++ l : BitVec 24) : Word32) &&& 0xFF00FFFF = o ++ 0#24 ↔ (l == 0) = true := by
  rw [show (0xFF00FFFF : Word32) = 0xFF#8 ++ (0#8 ++ BitVec.allOnes 16 : BitVec 24) from rfl, low24_iff,
    append_and_append, BitVec.and_allOnes, BitVec.and_zero, show (0 : BitVec 24) = 0#8 ++ 0#16 from rfl,
    append_eq_append_iff]
  simp

theorem nop (rsvd : BitVec 24) : Statement (.nop rsvd) := whole_iff 0x00 rsvd
theorem adInit (rsvd : BitVec 24) : Statement (.adInit rsvd) := whole_iff 0x01 rsvd

theorem adNib (rsvd : BitVec 20) (n : Nibble) : Statement (.adNib rsvd n) := by
  show (0x02#8 ++ (rsvd ++ n : BitVec 24) : Word32) &&& 0xFFFFFFF0 = 0x02#8 ++ 0#24 ↔ (rsvd == 0) = true
  rw [show (0xFFFFFFF0 : Word32) = 0xFF#8 ++ (BitVec.allOnes 20 ++ 0#4 : BitVec 24) from rfl, low24_iff,
    append_and_append, BitVec.and_allOnes, BitVec.and_zero, show (0 : BitVec 24) = 0#20 ++ 0#4 from rfl,
    append_eq_append_iff]
  simp

theorem adByte (rsvd : BitVec 16) (b : Byte) : Statement (.adByte rsvd b) := by
  show (0x03#8 ++ (rsvd ++ b : BitVec 24) : Word32) &&& 0xFFFFFF00 = 0x03#8 ++ 0#24 ↔ (rsvd == 0) = true
  rw [show (0xFFFFFF00 : Word32) = 0xFF#8 ++ (BitVec.allOnes 16 ++ 0#8 : BitVec 24) from rfl, low24_iff,
    append_and_append, BitVec.and_allOnes, BitVec.and_zero, show (0 : BitVec 24) = 0#16 ++ 0#8 from rfl,
    append_eq_append_iff]
  simp

theorem regWr (rsel : BitVec 8) (rsvd : BitVec 16) (w : Word64) : Statement (.regWr rsel rsvd w) :=
  register_iff 0x10 rsel rsvd
theorem regRd (rsel : BitVec 8) (rsvd : BitVec 16) : Statement (.regRd rsel rsvd) :=
  register_iff 0x11 rsel rsvd
theorem bqCalc (rsvd : BitVec 24) : Statement (.bqCalc rsvd) := whole_iff 0x20 rsvd
theorem gainCalc (rsvd : BitVec 24) : Statement (.gainCalc rsvd) := whole_iff 0x21 rsvd
theorem bqClr (rsvd : BitVec 24) : Statement (.bqClr rsvd) := whole_iff 0x22 rsvd
theorem bqProc (rsvd : BitVec 24) (v : BitVec 32) : Statement (.bqProc rsvd v) := whole_iff 0x23 rsvd
theorem bqProcr (rsvd : BitVec 24) (x : F64) : Statement (.bqProcr rsvd x) := whole_iff 0x24 rsvd
theorem reset (rsvd : BitVec 24) : Statement (.reset rsvd) := whole_iff 0x30 rsvd

end Sys2Proof.Laws.TableRow
end

