-- ==== Sys2Proof/Tests/Slice0.lean ====
section
/-! SUPPORT. Small tests, their expected results taken from spec/95_test_vectors.md (named in each docstring) or
written out from spec/30_encoding.md, and for every statement with hypotheses a concrete case that meets them. -/

namespace Sys2Proof.Tests

open Machine Claims

/-! ### Helpers -/

/-- The outcome is a next state with this property. -/
def ends (o : Result) (p : State → Bool) : Bool :=
  match o with
  | .next t => p t
  | .fault _ => false
  | .refused _ => false

/-- The reset state with other registers. -/
def withR (r : Regs) : State := { State.reset with regs := r }

/-- The registers with an ADPCM state. -/
def adRegs (p i : Int) : Regs := { regsReset with pred := BitVec.ofInt 16 p, sidx := BitVec.ofInt 16 i }

/-- From (p, i) the command ends in (p', i') with STATUS 0 and RDATA `v`, and changes no other register. -/
def adGives (c : Instr) (p i p' i' : Int) (v : Word64) : Bool :=
  ends (exec c (withR (adRegs p i))) fun t => t.regs == adRegs p' i' && t.responses == [⟨0, v⟩]

/-- The transaction ends with this status and changes no register but ERRLOG, which becomes `e`. -/
def failsFrom (r : Regs) (t : Transaction) (k : BitVec 4) (e : Word64) : Bool :=
  ends (transact t (withR r)) fun u => u.regs == { r with errlog := e } && u.responses == [⟨k, 0⟩]

/-- V-B1's registers with GAIN_LIN 1.0 and a delay state. -/
def bqRegs (s0 s1 : F64) : Regs :=
  { regsReset with
    cutoff := 0x4034000000000000, qreg := 0x3FE69FBE76C8B439, srate := 44100, gainDb := 0
    a0 := 0x3FEFEF820A3B9806, a1 := 0xBFFFEF820A3B9806, a2 := 0x3FEFEF820A3B9806,
    b1 := 0xBFFFEF7DCA9C7721, b2 := 0x3FEFDF0C93B571D7, c0 := 0x3FF0000000000000, d0 := 0,
    s0 := s0, s1 := s1, gainLin := 0x3FF0000000000000, valid := 0x3F }

/-- The command ends with STATUS 0 and RDATA `v`, and leaves the registers `q`. -/
def okFrom (r : Regs) (c : Instr) (q : Regs) (v : Word64) : Bool :=
  ends (exec c (withR r)) fun u => u.regs == q && u.responses == [⟨0, v⟩]

/-- An encoding for every NaN, for tests in which none occurs. -/
def someNaN (_ : Nat) : F64 := 0x7FF8000000000000

/-! ### Well-formedness -/

theorem test_wellFormed_accepts :
    wellFormed (.nop 0) && wellFormed (.adNib 0 15) && wellFormed (.regWr 0x0C 0 7) && wellFormed (.regRd 0x1F 0)
      = true := by decide
theorem test_wellFormed_nop : wellFormed (.nop 1) = false := by decide
theorem test_wellFormed_adInit : wellFormed (.adInit 0x800000) = false := by decide
theorem test_wellFormed_adNib : wellFormed (.adNib 1 0) = false := by decide
theorem test_wellFormed_adByte : wellFormed (.adByte 0x8000 0) = false := by decide
theorem test_wellFormed_regWr_reserved : wellFormed (.regWr 0x08 1 3) = false := by decide
theorem test_wellFormed_regWr_unlisted : wellFormed (.regWr 0x0D 0 3) = false := by decide
theorem test_wellFormed_regRd_reserved : wellFormed (.regRd 0x08 0x100) = false := by decide
theorem test_wellFormed_regRd_unlisted : wellFormed (.regRd 0x20 0) = false := by decide
theorem test_wellFormed_bqCalc : wellFormed (.bqCalc 1) = false := by decide
theorem test_wellFormed_gainCalc : wellFormed (.gainCalc 0x100) = false := by decide
theorem test_wellFormed_bqClr : wellFormed (.bqClr 0x10000) = false := by decide
theorem test_wellFormed_bqProc : wellFormed (.bqProc 1 0) = false := by decide
theorem test_wellFormed_bqProcr : wellFormed (.bqProcr 2 0) = false := by decide
theorem test_wellFormed_reset : wellFormed (.reset 1) = false := by decide

/-! ### Decoding: words written out bit by bit from R81 to R86 -/

theorem test_decode_nop : decode ⟨0b00000000000000000000000000000000, 5⟩ = .instr (.nop 0) := by decide
theorem test_decode_adInit : decode ⟨0b00000001000000000000000000000001, 0⟩ = .instr (.adInit 1) := by decide
theorem test_decode_adNib : decode ⟨0b00000010000000000000000000011010, 0⟩ = .instr (.adNib 1 0xA) := by decide
theorem test_decode_adByte : decode ⟨0b00000011000000000000000111111000, 0⟩ = .instr (.adByte 1 0xF8) := by decide
theorem test_decode_regWr :
    decode ⟨0b00010000000010110000000000000000, 0xAC44⟩ = .instr (.regWr 0x0B 0 44100) := by decide
theorem test_decode_regRd : decode ⟨0b00010001000111110000000000000000, 9⟩ = .instr (.regRd 0x1F 0) := by decide
theorem test_decode_bqCalc : decode ⟨0b00100000000000000000000000000000, 0⟩ = .instr (.bqCalc 0) := by decide
theorem test_decode_gainCalc : decode ⟨0b00100001000000000000000000000000, 0⟩ = .instr (.gainCalc 0) := by decide
theorem test_decode_bqClr : decode ⟨0b00100010000000000000000000000000, 0⟩ = .instr (.bqClr 0) := by decide
theorem test_decode_bqProc :
    decode ⟨0b00100011000000000000000000000000, 0x12345678FFFFFFFF⟩ = .instr (.bqProc 0 (-1)) := by decide
theorem test_decode_bqProcr :
    decode ⟨0b00100100000000000000000000000000, 0x3FF0000000000000⟩ = .instr (.bqProcr 0 0x3FF0000000000000) := by
  decide
theorem test_decode_reset : decode ⟨0b00110000000000000000000000000000, 0⟩ = .instr (.reset 0) := by decide
/-- V-C5 -/
theorem test_decode_illegal : decode ⟨0x05FFFFFF, 0⟩ = .illegalOpcode 5 := by decide
theorem test_decodeTableWord : decodeTableWord 32 0x0300003C = some (.adByte 0 0x3C) := by decide

/-! ### Binary64 arithmetic: the intermediate values of V-B1, V-B3, V-B4 -/

/-- V-B1: theta and d; V-B4: 1 / 5e-324 = +inf. -/
theorem test_fDiv :
    (hpf2Theta someNaN 0x4034000000000000 (fOfInt 44100) == 0x3F6757DEDE765A6A) &&
    (fDiv 0 oneF 0x3FE69FBE76C8B439 == 0x3FF6A17E5EDE5348) && (fDiv 0 oneF 1 == posInf) = true := by
  decide +kernel
/-- V-B1: k; P3: 64-bit products of the gain. -/
theorem test_fMul : hpf2K someNaN 0x3F6757DCCC777CFB 0x3FE69FBE76C8B439 = 0x3F6082360AA08B15 := by decide +kernel
/-- V-B1: beta (a subtraction, an addition, a quotient). -/
theorem test_fSub_fAdd : hpf2Beta someNaN 0x3F6082360AA08B15 = 0x3FDFDF0C93B571D7 := by decide +kernel
/-- f64 of the two extreme DecodedSamples (R154). -/
theorem test_fOfInt :
    (fOfInt (-2147483648) == 0xC1E0000000000000) && (fOfInt 2147483647 == 0x41DFFFFFFFC00000) = true := by
  decide +kernel

/-! ### ADPCM commands -/

/-- V-A6, V-A7 -/
theorem test_adInit : adGives (.adInit 0) 93 16 0 0 0 = true := by decide
theorem test_adInit_reserved : failsFrom (adRegs 93 16) ⟨0x01000001, 0⟩ 2 0x04 = true := by decide
/-- V-A2, V-A3, V-A4 -/
theorem test_adNib_corners :
    adGives (.adNib 0 7) 2047 48 2047 48 0x7FF0 && adGives (.adNib 0 15) 0 48 (-2048) 48 0xFFFFFFFFFFFF8000 &&
    adGives (.adNib 0 8) 2047 48 1853 47 0x73D0 && adGives (.adNib 0 11) (-1000) 30 (-1244) 29 0xFFFFFFFFFFFFB240 &&
    adGives (.adNib 0 12) (-2000) 44 (-2048) 46 0xFFFFFFFFFFFF8000 && adGives (.adNib 0 3) 0 2 16 1 256 = true := by
  decide
/-- E1, V-A1 -/
theorem test_adNib_fresh : adGives (.adNib 0 0) 0 0 2 0 32 && adGives (.adNib 0 13) 0 0 (-22) 4 (-352) = true := by
  decide
/-- V-A5 -/
theorem test_adByte :
    adGives (.adByte 0 0x77) 0 0 93 16 0x000005D0000001E0 && adGives (.adByte 0 0x80) 0 0 0 0 0x00000000FFFFFFE0 &&
    adGives (.adByte 0 0x07) 0 0 32 8 0x0000020000000020 = true := by decide
theorem test_adByte_reserved : failsFrom (adRegs 93 16) ⟨0x03000100, 0⟩ 2 0x04 = true := by decide

/-! ### Biquad commands -/

/-- V-B1's coefficients, with the sine and cosine the vector gives. -/
theorem test_bqCalc_values :
    coeffsHpf2With (fun _ => 0x3F6757DCCC777CFB) (fun _ => 0x3FEFFFF77C5F8BCE) someNaN 0x4034000000000000
      (fOfInt 44100) (effectiveQ 0x3FE69FBE76C8B439) = coeffsIn (bqRegs 0 0) := by decide +kernel
/-- V-B5 -/
theorem test_bqCalc_status :
    failsFrom regsReset ⟨0x20000000, 0⟩ 6 0x40 && failsFrom { regsReset with algo := 1, valid := 7 } ⟨0x20000000, 0⟩ 7 0x80 &&
    failsFrom { regsReset with algo := 1, valid := 5 } ⟨0x20000000, 0⟩ 6 0x40 = true := by decide
/-- V-B6: a gain of 0 dB is 1.0 under every admissible POW10_64. -/
theorem test_gainCalc :
    okFrom { regsReset with gainDb := 0, valid := 0x08 } (.gainCalc 0)
      { regsReset with gainDb := 0, valid := 0x28, gainLin := 0x3FF0000000000000 } 0 = true := by decide +kernel
/-- V-B6: the operand of POW10_64 for 6 dB. -/
theorem test_gainCalc_operand : fDiv 0 0x4018000000000000 twentyF = 0x3FD3333333333333 := by decide +kernel
/-- V-B13 -/
theorem test_bqClr :
    okFrom (bqRegs 0x4007E740F492C777 0x3FFFEF7DCA9C7721) (.bqClr 0) (bqRegs 0 0) 0 = true := by decide
/-- V-B7, row 1 -/
theorem test_bqProc :
    okFrom (bqRegs 0 0) (.bqProc 0 1) (bqRegs 0x3FF0000000000000 0) 0x3FEFEF820A3B9806 = true := by decide +kernel
/-- V-B15 -/
theorem test_bqProc_status :
    failsFrom { bqRegs 0 0 with valid := 0x1F } ⟨0x23000000, 1⟩ 6 0x40 &&
    failsFrom { bqRegs 0 0 with valid := 0x2F } ⟨0x23000000, 1⟩ 6 0x40 &&
    failsFrom (bqRegs 0 0) ⟨0x23000100, 1⟩ 2 0x04 = true := by decide
/-- V-B14, row 1 (row 2 of V-B7) -/
theorem test_bqProcr :
    okFrom (bqRegs 0x3FF0000000000000 0) (.bqProcr 0 0) (bqRegs 0x3FFFEF7DCA9C7721 0x3FF0000000000000)
      0xBF7079B34D6C5200 = true := by decide +kernel
/-- V-B14 and V-C11: 2 before 5 before 6. -/
theorem test_bqProcr_status :
    failsFrom (bqRegs 0 0) ⟨0x24000000, 0x7FF0000000000000⟩ 5 0x20 &&
    failsFrom regsReset ⟨0x24000000, 0x7FF8000000000000⟩ 5 0x20 &&
    failsFrom regsReset ⟨0x24000000, 0x3FF0000000000000⟩ 6 0x40 &&
    failsFrom regsReset ⟨0x24000100, 0x7FF0000000000000⟩ 2 0x04 = true := by decide

/-! ### Control commands -/

/-- V-C6 -/
theorem test_nop :
    ends (transact ⟨0x00000000, 0xDEADBEEFDEADBEEF⟩ State.reset) fun t =>
      t.regs == regsReset && t.responses == [⟨0, 0⟩] := by decide
theorem test_nop_reserved : failsFrom regsReset ⟨0x00000001, 0⟩ 2 0x04 = true := by decide
/-- V-C1, V-C3 -/
theorem test_regWr :
    okFrom regsReset (.regWr 0x0B 0 0xFFFFFFFF) { regsReset with srate := 0xFFFFFFFF, valid := 0x04 } 0 &&
    okFrom (bqRegs 1 2) (.regWr 0x0A 0 0x8000000000000000)
      { bqRegs 1 2 with qreg := 0x8000000000000000, valid := 0x2F } 0 &&
    okFrom (bqRegs 1 2) (.regWr 0x0C 0 0) { bqRegs 1 2 with valid := 0x1F } 0 = true := by decide
/-- V-C2 -/
theorem test_regWr_refusals :
    failsFrom regsReset ⟨0x10020100, 0⟩ 2 0x04 && failsFrom regsReset ⟨0x10200000, 0⟩ 3 0x08 &&
    failsFrom regsReset ⟨0x101F0000, 0xFFFFFFFFFFFFFFFF⟩ 4 0x10 && failsFrom regsReset ⟨0x10080000, 6⟩ 5 0x20 &&
    failsFrom regsReset ⟨0x100B0000, 0⟩ 5 0x20 && failsFrom regsReset ⟨0x100B0000, 0x100000000⟩ 5 0x20 &&
    failsFrom regsReset ⟨0x10090000, 0x7FF8000000000000⟩ 5 0x20 &&
    failsFrom regsReset ⟨0x100C0000, 0xFFF0000000000000⟩ 5 0x20 = true := by decide
/-- V-C4 -/
theorem test_regRd :
    adGives (.regRd 0x00 0) (-79) 24 (-79) 24 0xFFFFFFFFFFFFFFB1 && adGives (.regRd 0x01 0) (-79) 24 (-79) 24 0x18 &&
    okFrom (bqRegs 0 0) (.regRd 0x14 0) (bqRegs 0 0) 0x3FEFDF0C93B571D7 = true := by decide
theorem test_regRd_refusals :
    failsFrom regsReset ⟨0x111A0000, 0⟩ 6 0x40 && failsFrom regsReset ⟨0x11170000, 0⟩ 3 0x08 &&
    failsFrom regsReset ⟨0x11020001, 0⟩ 2 0x04 = true := by decide
/-- V-C7 -/
theorem test_reset : okFrom { bqRegs 5 6 with errlog := 0xFE, algo := 5 } (.reset 0)
    { bqRegs 0 0 with
      cutoff := 0, qreg := 0, srate := 0, a0 := 0, a1 := 0, a2 := 0, b1 := 0, b2 := 0, c0 := 0, gainLin := 0
      valid := 0 } 0 = true := by decide
theorem test_reset_reserved : failsFrom (bqRegs 5 6) ⟨0x30000001, 0⟩ 2 0x04 = true := by decide
/-- V-C5 -/
theorem test_illegal_opcode :
    failsFrom regsReset ⟨0x05FFFFFF, 7⟩ 1 0x02 && failsFrom (bqRegs 1 2) ⟨0xFF000000, 0⟩ 1 0x02 = true := by decide

/-! ### The assembler (R92, R93) -/

/-- P2, lines 1 to 4, and V-C1. -/
theorem test_assemble_regWr :
    assemble ["REG_WR CUTOFF, f64:20.0 ; the cutoff", "REG_WR QREG, f64:0.707", "REG_WR SRATE, u:44100",
      "REG_WR QREG, f64:-0.0"] =
      some [⟨0x10090000, 0x4034000000000000⟩, ⟨0x100A0000, 0x3FE69FBE76C8B439⟩, ⟨0x100B0000, 0xAC44⟩,
        ⟨0x100A0000, 0x8000000000000000⟩] := by decide +kernel
/-- P4, lines 3, 5 and 14, P5, line 6, and R92's `i:` form. -/
theorem test_assemble_forms :
    assemble [".word 0x05000000, 0", "REG_WR PRED, 0x0", "REG_RD ERRLOG", "", "AD_NIB 15", "BQ_PROC -1", "RESET"] =
      some [⟨0x05000000, 0⟩, ⟨0x10000000, 0⟩, ⟨0x111E0000, 0⟩, ⟨0x0200000F, 0⟩, ⟨0x23000000, 0xFFFFFFFFFFFFFFFF⟩,
        ⟨0x30000000, 0⟩] := by decide +kernel
/-- P6, lines 1 to 7, P3, lines 7 and 8, and V-C9. -/
theorem test_assemble_pseudo :
    assemble ["BQ_SETUP 0.0, 0.707, 44100, 0.0", "STREAM_BEGIN", "AD_BYTES 0x00, 0x77", "AD_BYTE_SPLIT 0xF8"] =
      some [⟨0x10090000, 0⟩, ⟨0x100A0000, 0x3FE69FBE76C8B439⟩, ⟨0x100B0000, 0xAC44⟩, ⟨0x100C0000, 0⟩,
        ⟨0x21000000, 0⟩, ⟨0x20000000, 0⟩, ⟨0x22000000, 0⟩, ⟨0x01000000, 0⟩, ⟨0x22000000, 0⟩, ⟨0x03000000, 0⟩,
        ⟨0x03000077, 0⟩, ⟨0x0200000F, 0⟩, ⟨0x02000008, 0⟩] := by decide +kernel
/-- V-B12's bare decimal, V-B14's rows, `f64:` for `.word`, `i:` for BQ_PROC; R92 bounds i. -/
theorem test_assemble_samples :
    assemble ["BQ_PROCR -0.0", "BQ_PROCR f64:1.0", "BQ_PROCR 0x7FF8000000000000", ".word 0x24000100, f64:-0.0",
      "BQ_PROC i:-1"] =
      some [⟨0x24000000, 0x8000000000000000⟩, ⟨0x24000000, 0x3FF0000000000000⟩, ⟨0x24000000, 0x7FF8000000000000⟩,
        ⟨0x24000100, 0x8000000000000000⟩, ⟨0x23000000, 0xFFFFFFFFFFFFFFFF⟩] ∧
    assembleLine "BQ_PROC 2147483648" = none := by decide +kernel
/-- R92: n and b are bounded, and an unknown mnemonic is no command. -/
theorem test_assemble_refuses :
    assembleLine "AD_NIB 16" = none ∧ assembleLine "AD_BYTE 256" = none ∧ assembleLine "JUMP 0" = none := by
  decide +kernel

/-! ### The step, reset and the platform -/

theorem test_step_runs_first_word :
    ends (step (State.reset.withFetchWord 32 0x0300003C)) fun t => t.position == 1 && t.pending == [] := by decide
theorem test_rst_abandons :
    ends (step { withR (bqRegs 1 2) with pending := [.rst (some ⟨0x03000077, 0⟩)] }) fun t =>
      t.regs == regsReset && t.responses == [] := by decide
/-- V-C12 in small: two instances, one AD_NIB each. -/
theorem test_platform :
    ((runSchedule [1, 0] ⟨[State.reset.withFetchWord 32 0x02000000, State.reset.withFetchWord 32 0x02000008]⟩).instances.map
      fun s => (s.regs.pred, s.responses)) = [(2, [⟨0, 32⟩]), (-2, [⟨0, -32⟩])] := by decide

/-! ### Witnesses: every statement's hypotheses are met together by a concrete case, clause by clause -/

/-- Unfolds the statements' words, so that a closed fact is decided. -/
theorem finite_one : finite64 0x3FF0000000000000 := by unfold finite64; decide
theorem finite_zero : finite64 0 := by unfold finite64; decide
theorem not_finite_inf : ¬ finite64 0xFFF0000000000000 := by unfold finite64; decide

theorem witness_DecodingDropsNoOperandBit :
    (∃ i, decode ⟨0x10090000, 5⟩ = .instr i ∧ opcodeOf i = .regWr) ∧
    (∃ i, decode ⟨0x24000001, 5⟩ = .instr i ∧ opcodeOf i = .bqProcr) ∧
    (∃ i, decode ⟨0x23000000, 5⟩ = .instr i ∧ opcodeOf i = .bqProc) :=
  ⟨⟨_, rfl, rfl⟩, ⟨_, rfl, rfl⟩, ⟨_, rfl, rfl⟩⟩

theorem witness_StepRunsTheDecodedCommand :
    (presentNext ⟨0x02000007, 0⟩ State.reset).pending = .command ⟨0x02000007, 0⟩ :: [] ∧
    decode ⟨0x02000007, 0⟩ = .instr (.adNib 0 7) := by decide

theorem witness_IdleStepChangesNothing : State.reset.pending = [] := rfl

theorem witness_PlacedWordRunsNext : decodeTableWord 32 0x02000007 = some (.adNib 0 7) := by decide

/-- The ends of R88's ranges. -/
theorem witness_IllegalOpcodeRaisesStatusOne :
    ∀ o ∈ [0x04, 0x0F, 0x12, 0x1F, 0x25, 0x2F, 0x31, 0xFF],
      illegalOpc ((⟨BitVec.ofNat 32 (o * 2 ^ 24), 0⟩ : Transaction).cmd.toNat / 2 ^ 24) := by
  unfold illegalOpc; decide

theorem witness_NonzeroReservedFieldRaisesStatusTwo :
    (∃ t : Transaction, (BitVec.ofNat 8 (t.cmd.toNat / 2 ^ 24), Opcode.regWr) ∈ opcodeMap ∧
      t.cmd.extractLsb' 8 8 ≠ 0) ∧
    (∃ t : Transaction, (BitVec.ofNat 8 (t.cmd.toNat / 2 ^ 24), Opcode.nop) ∈ opcodeMap ∧
      t.cmd.extractLsb' 16 8 ≠ 0) ∧
    (∃ t : Transaction, (BitVec.ofNat 8 (t.cmd.toNat / 2 ^ 24), Opcode.reset) ∈ opcodeMap ∧
      t.cmd.extractLsb' 0 8 ≠ 0) ∧
    (∃ t : Transaction, (BitVec.ofNat 8 (t.cmd.toNat / 2 ^ 24), Opcode.adNib) ∈ opcodeMap ∧
      t.cmd.extractLsb' 4 4 ≠ 0) :=
  ⟨⟨⟨0x10080100, 0⟩, by decide⟩, ⟨⟨0x00010000, 0⟩, by decide⟩, ⟨⟨0x30000001, 0⟩, by decide⟩,
    ⟨⟨0x02000017, 0⟩, by decide⟩⟩

/-- The ends of R84's gaps. -/
theorem witness_ReservedRegisterRaisesStatusThree :
    ∀ r ∈ [0x02, 0x07, 0x0D, 0x0F, 0x17, 0x1B, 0x1D, 0x20, 0xFF], reservedRsel (BitVec.ofNat 8 r).toNat := by
  unfold reservedRsel; decide

/-- The rows of R84 fall under exactly one of reserved, read-only and writable. -/
theorem test_rsel_classes : ∀ b : BitVec 8,
    (reservedRsel b.toNat ∨ readOnlyRsel b.toNat ∨ (8 ≤ b.toNat ∧ b.toNat ≤ 12)) ∧
    ¬ (reservedRsel b.toNat ∧ readOnlyRsel b.toNat) ∧ ¬ (reservedRsel b.toNat ∧ 8 ≤ b.toNat ∧ b.toNat ≤ 12) ∧
    ¬ (readOnlyRsel b.toNat ∧ 8 ≤ b.toNat ∧ b.toNat ≤ 12) := by
  unfold reservedRsel readOnlyRsel; decide

theorem witness_IgnoredDataBitsHaveNoEffect :
    (0x30000000#32).toNat / 2 ^ 24 ∈ [0x00, 0x01, 0x02, 0x03, 0x11, 0x20, 0x21, 0x22, 0x30] ∧
    (0x23000000#32).toNat / 2 ^ 24 = 0x23 ∧
    (0x0000000100000005#64).extractLsb' 0 32 = (0xFFFFFFFF00000005#64).extractLsb' 0 32 := by decide

/-- A failing and a successful command (for the statements about failing commands, about ERRLOG bit 1 and bit 7,
about RESET, about the reported cause, and about who writes what). -/
theorem witness_FailedCommandWritesOnlyItsErrlogBit :
    ∃ u x, transact ⟨0x30000001, 0⟩ State.reset = .next u ∧ u.responses = x :: State.reset.responses ∧
      x.status ≠ 0 := ⟨_, ⟨2, 0⟩, rfl, rfl, by decide⟩

theorem witness_ErrlogRecordsEveryStatusUntilReset :
    (∃ u x, transact ⟨0xFF000000, 0⟩ State.reset = .next u ∧ u.responses = x :: State.reset.responses ∧
      x.status = BitVec.ofNat 4 1 ∧ (0xFF000000#32) ≠ 0x30000000) ∧
    (∃ u x, transact ⟨0x20000000, 0⟩ (withR { regsReset with algo := 0, valid := 7 }) = .next u ∧
      u.responses = x :: [] ∧ x.status = BitVec.ofNat 4 7) ∧
    (∃ u x, transact ⟨0x30000000, 5⟩ (withR { regsReset with errlog := 0xFE }) = .next u ∧ u.responses = x :: []) :=
  ⟨⟨_, ⟨1, 0⟩, rfl, rfl, by decide⟩, ⟨_, ⟨7, 0⟩, rfl, rfl, rfl⟩, ⟨_, ⟨0, 0⟩, rfl, rfl⟩⟩

theorem witness_ErrlogZeroMeansNoCommandFailed :
    ∃ u, transactAll [⟨0x02000007, 0⟩, ⟨0x04000000, 0⟩] State.reset = .next u ∧ State.reset.regs.errlog = 0 ∧
      ∀ t ∈ [(⟨0x02000007, 0⟩ : Transaction), ⟨0x04000000, 0⟩], t.cmd ≠ 0x30000000 := ⟨_, rfl, rfl, by decide⟩

theorem witness_LowestNumberedCauseIsReported :
    (∃ u x, transact ⟨0x11090000, 0⟩ State.reset = .next u ∧ u.responses = x :: State.reset.responses ∧
      x.status ≠ 0) ∧
    (∃ u x, transact ⟨0x00000000, 0⟩ State.reset = .next u ∧ u.responses = x :: State.reset.responses ∧
      x.status = 0) := ⟨⟨_, ⟨6, 0⟩, rfl, rfl, by decide⟩, ⟨_, ⟨0, 0⟩, rfl, rfl, rfl⟩⟩

theorem witness_NoComputationDependsOnErrlog : ∀ rsvd, Instr.regRd 0x1F 0 ≠ .regRd 0x1E rsvd := by
  intro rsvd h; injection h with h; exact absurd h (by decide)

/-- A zero and a nonzero reserved field, for the statements about the commands without operands. -/
theorem witness_NopDoesNothing : (0 : BitVec 24) = 0 ∧ (1 : BitVec 24) ≠ 0 := by decide
theorem witness_AdInitClearsTheCodec : (0 : BitVec 24) = 0 ∧ (1 : BitVec 24) ≠ 0 := by decide
theorem witness_BqClrClearsTheDelayRegisters : (0 : BitVec 24) = 0 ∧ (0x800000 : BitVec 24) ≠ 0 := by decide
theorem witness_ResetCommandResetsEveryRegister : (0 : BitVec 24) = 0 ∧ (0x100 : BitVec 24) ≠ 0 := by decide

/-- A row's yes and a row's no in R235, at the ends of the range of k. -/
theorem witness_CommandsRaiseExactlyTheirStatuses :
    7 ∈ mayRaise .bqCalc ∧ 1 ∉ mayRaise .nop ∧ 15 ∉ mayRaise .regWr := by decide

/-- The ends of the legal ranges, and values just outside them (R202 to R204). -/
theorem witness_RegWrStoresLegalValuesOnly_legal :
    (5#64).toNat ≤ 5 ∧ ¬ (6#64).toNat ≤ 5 ∧ finite64 0x7FEFFFFFFFFFFFFF ∧ finite64 0x8000000000000001 ∧
    (1 ≤ (1#64).toNat ∧ (1#64).toNat ≤ 2 ^ 32 - 1) ∧ (1 ≤ (0xFFFFFFFF#64).toNat ∧ (0xFFFFFFFF#64).toNat ≤ 2 ^ 32 - 1) := by
  unfold finite64; decide

theorem witness_RegWrStoresLegalValuesOnly_refused :
    reservedRsel (0x0D#8).toNat ∧ readOnlyRsel (0x10#8).toNat ∧ readOnlyRsel (0x01#8).toNat ∧
    ¬ legalFor 0x08 6 ∧ ¬ legalFor 0x09 0x7FF0000000000000 ∧ ¬ legalFor 0x0A 0xFFF8000000000000 ∧
    ¬ legalFor 0x0B 0 ∧ ¬ legalFor 0x0B 0x100000000 ∧ ¬ legalFor 0x0C 0xFFF0000000000000 := by
  unfold reservedRsel readOnlyRsel legalFor finite64
  refine ⟨?_, ?_, ?_, ?_, ?_, ?_, ?_, ?_, ?_⟩ <;> decide

theorem witness_RegWrIsIdempotent :
    legalFor 0x0B 1 ∧ ∃ u v, exec (.regWr 0x0B 0 1) State.reset = .next u ∧ exec (.regWr 0x0B 0 1) u = .next v :=
  ⟨by unfold legalFor finite64; decide, _, _, rfl, rfl⟩

/-- For the clauses of REG_RD, BQ_CALC, GAIN_CALC, BQ_PROC and BQ_PROCR on valid registers. -/
theorem witness_RegRdReturnsTheRegister : ∀ k < 6, (bqRegs 0 0).valid.getLsbD k = true := by decide

theorem witness_RegRdReturnsTheRegister_refused :
    reservedRsel (0x1D#8).toNat ∧ (∀ k < 6, State.reset.regs.valid.getLsbD k = false) ∧
    (0x10 ≤ (0x16#8).toNat ∧ (0x16#8).toNat ≤ 0x16) := by unfold reservedRsel; decide

theorem witness_HardwareResetAbandonsTheCommand :
    ({ State.reset with pending := [.rst (some ⟨0x03000077, 0⟩)] } : State).pending =
      .rst (some ⟨0x03000077, 0⟩) :: [] := rfl

/-- Both ends of the table. -/
theorem witness_AdNibDecodesOneNibble :
    State.reset.stepTable[(adRegs 0 0).sidx.toNat]? = some 16 ∧
    State.reset.stepTable[(adRegs 0 48).sidx.toNat]? = some 1552 := by decide

theorem witness_AdByteDecodesHighThenLowNibble :
    State.reset.stepTable[(adRegs 0 47).sidx.toNat]? = some 1411 ∧
    State.reset.stepTable[(nibbleStep 1411 (0xF0 / 16) 0 47).2.toNat]? = some 1552 := by decide

theorem witness_SixteenBitArithmeticSuffices :
    tableAdmissible stepTableDefault ∧ clampInv (adRegs (-2048) 48) ∧ clampInv (adRegs 2047 0) ∧
    stepTableDefault[(adRegs (-2048) 48).sidx.toNat]? = some 1552 := by decide

theorem witness_BqCalcWritesTheHpf2Coefficients :
    (∀ k < 3, (bqRegs 0 0).valid.getLsbD k = true) ∧ (bqRegs 0 0).algo = 3 ∧ regsReset.valid.getLsbD 0 = false ∧
    ({ bqRegs 0 0 with algo := 2 } : Regs).algo ≠ 3 := by decide

theorem witness_NonpositiveQCountsAsDefaultQ :
    (finite64 0xBFF0000000000000 ∧ (0xBFF0000000000000#64).getLsbD 63 = true) ∧
    (finite64 0x8000000000000000 ∧ (0x8000000000000000#64).getLsbD 63 = true) ∧
    ∃ u v, exec (.bqCalc 0) (withR { bqRegs 0 0 with qreg := 0 }) = .next u ∧
      exec (.bqCalc 0) (withR { bqRegs 0 0 with qreg := 0x3FE69FBE76C8B439 }) = .next v :=
  ⟨by unfold finite64; decide, by unfold finite64; decide, _, _, rfl, rfl⟩

theorem witness_GainCalcWritesTheLinearGain :
    (bqRegs 0 0).valid.getLsbD 3 = true ∧ regsReset.valid.getLsbD 3 = false ∧ (1 : BitVec 24) ≠ 0 := by decide

theorem witness_BqProcGainsThenFilters :
    ((bqRegs 0 0).valid.getLsbD 4 = true ∧ (bqRegs 0 0).valid.getLsbD 5 = true) ∧
    ¬ ((0x1F#64).getLsbD 4 = true ∧ (0x1F#64).getLsbD 5 = true) ∧ (1 : BitVec 24) ≠ 0 := by decide

theorem witness_BqProcrFiltersWithoutGain :
    finite64 0x8000000000000001 ∧ ¬ finite64 0x7FF0000000000000 ∧ ¬ finite64 0xFFF8000000000001 ∧
    regsReset.valid.getLsbD 4 = false := by unfold finite64; decide

theorem witness_ParameterWriteInvalidatesWhatItDetermines :
    (legalFor 0x08 3 ∧ ∃ u, exec (.regWr 0x08 0 3) (withR (bqRegs 1 2)) = .next u) ∧
    (legalFor 0x0C 0 ∧ ∃ u, exec (.regWr 0x0C 0 0) (withR (bqRegs 1 2)) = .next u) ∧ finite64 0 :=
  ⟨⟨by unfold legalFor finite64; decide, _, rfl⟩, ⟨by unfold legalFor finite64; decide, _, rfl⟩, finite_zero⟩

theorem witness_ArithmeticRoundsToNearestEven :
    finite64 0x0000000000000001 ∧ finite64 0x7FEFFFFFFFFFFFFF ∧ fVal 0x7FEFFFFFFFFFFFFF ≠ 0 := by
  unfold finite64; decide +kernel

theorem witness_NaNExactlyWhereIeeeGivesNaN : fIsNaN 0x7FF8000000000000 = true := by decide

theorem witness_SpecialOperandsFollowIeee :
    fIsInf 0x7FF0000000000000 = true ∧ fIsInf 0xFFF0000000000000 = true ∧
    fSign 0x7FF0000000000000 ≠ fSign 0xFFF0000000000000 ∧ fVal 0x3FF0000000000000 ≠ 0 ∧
    fVal 0x8000000000000000 = 0 ∧ fVal 0x3FF0000000000000 + fVal 0xBFF0000000000000 = 0 ∧
    fVal 0x3FF0000000000000 - fVal 0x3FF0000000000000 = 0 ∧
    (fVal 0x8000000000000000 - fVal 0 = 0 ∧ (fSign 0x8000000000000000 && !fSign 0) = true) := by decide +kernel

theorem witness_IntegersConvertExactly :
    |(2 ^ 53 : Int)| ≤ 2 ^ 53 ∧ |(-(2 ^ 53) : Int)| ≤ 2 ^ 53 ∧ |(0 : Int)| ≤ 2 ^ 53 := by decide

theorem finite64_iff (x : F64) : finite64 x ↔ fIsFinite x = true := by
  unfold finite64 fIsFinite fExp
  simp only [bne_iff_ne, ne_eq, BitVec.toNat_eq]
  rfl

/-- A sine with R156's properties: zero, but for what R156 fixes. -/
theorem witness_EveryAdmissibleFunctionIsAllowed_sine :
    AdmissibleSine (fun v =>
      if fIsFinite v then (if v = 0x8000000000000000 then 0x8000000000000000 else 0) else 0x7FF8000000000000) where
  finite v h := by
    simp only [(finite64_iff v).1 h, if_true]
    split <;> (unfold finite64; decide +kernel)
  posZero := by decide
  negZero := by decide
  nan v h := by
    simp only [finite64_iff] at h
    simp only [h, Bool.false_eq_true, if_false]; decide

/-- A cosine with R156's properties: 1 on every number. -/
theorem witness_EveryAdmissibleFunctionIsAllowed_cosine :
    AdmissibleCosine (fun v => if fIsFinite v then 0x3FF0000000000000 else 0x7FF8000000000000) where
  finite v h := by
    simp only [(finite64_iff v).1 h, if_true]
    unfold finite64; decide +kernel
  posZero := by decide
  negZero := by decide
  nan v h := by
    simp only [finite64_iff] at h
    simp only [h, Bool.false_eq_true, if_false]; decide

/-- A power of ten with R156's properties: 1 on every number. -/
theorem witness_EveryAdmissibleFunctionIsAllowed_pow10 :
    AdmissiblePow10 (fun v => if fIsNaN v then 0x7FF8000000000000 else 0x3FF0000000000000) where
  posZero := by decide
  negZero := by decide
  number v h := by simp only [h, Bool.false_eq_true, if_false]; decide
  nan v h := by simp only [h, if_true]; decide

theorem witness_CoefficientsObeyTheirLaws :
    let k := coeffsHpf2With (fun _ => 0x3F6757DCCC777CFB) (fun _ => 0x3FEFFFF77C5F8BCE) someNaN 0x4034000000000000
      (fOfInt 44100) (effectiveQ 0x3FE69FBE76C8B439)
    finite64 k.a0 ∧ finite64 k.a1 ∧ finite64 k.b1 ∧ finite64 k.b2 ∧ finite64 0x3FEFEF7DCA9C7721 ∧
      finite64 0x3FDFDF0C93B571D7 := by
  simp only [test_bqCalc_values]; unfold finite64; decide

theorem witness_FirstOutputAfterClearIsA0 :
    (bqRegs 1 2).valid.getLsbD 4 = true ∧ finite64 (bqRegs 1 2).a0 ∧ fVal (bqRegs 1 2).a0 ≠ 0 ∧
    finite64 (bqRegs 1 2).a1 ∧ finite64 (bqRegs 1 2).a2 ∧ finite64 (bqRegs 1 2).b1 ∧ finite64 (bqRegs 1 2).b2 ∧
    ∃ u v, exec (.bqClr 0) (withR (bqRegs 1 2)) = .next u ∧ exec (.bqProcr 0 0x3FF0000000000000) u = .next v := by
  refine ⟨by decide, ?_, ?_, ?_, ?_, ?_, ?_, _, _, rfl, rfl⟩ <;>
    first | (unfold finite64; decide +kernel) | decide +kernel

theorem witness_ZeroCutoffGivesTheIdentityFilter :
    finite64 (bqRegs 0 0).qreg ∧ finite64 (fDiv 0 0x3FF0000000000000 (effectiveQ (bqRegs 0 0).qreg)) ∧
    ∃ u, exec (.bqCalc 0) (withR { bqRegs 0 0 with cutoff := 0 }) = .next u :=
  ⟨by unfold finite64; decide, by unfold finite64; decide +kernel, _, rfl⟩

/-- A state that is not the reset state, with a command to come. -/
theorem witness_StepKeepsTheInvariant :
    let s := presentNext ⟨0x03000077, 0⟩ (withR (adRegs (-2048) 48))
    Inv s ∧ ∃ u, step s = .next u := by
  refine ⟨⟨by decide, ⟨by decide, by decide, by decide, ?_, ?_, by decide⟩⟩, _, rfl⟩
  · intro h; exact absurd h (by decide)
  · intro h; exact absurd h (by decide)

theorem witness_OnlyTheNamedCommandsWriteARegister :
    ∃ u, exec (.nop 0) (withR (bqRegs 1 2)) = .next u ∧
      opcodeOf (.nop 0) ∉ [Opcode.adInit, .adNib, .adByte, .regWr, .bqCalc, .gainCalc, .bqClr, .bqProc, .bqProcr, .reset] :=
  ⟨_, rfl, by decide⟩

theorem witness_TheTwoUnitsAreIndependent :
    opcodeOf (.adByte 0 0x77) ∈ [Opcode.adInit, .adNib, .adByte] ∧ (bqRegs 1 2).pred = regsReset.pred ∧
    (bqRegs 1 2).sidx = regsReset.sidx ∧
    opcodeOf (.bqProc 0 1) ∈ [Opcode.bqCalc, .gainCalc, .bqClr, .bqProc, .bqProcr] := by decide

/-- Two register files that differ, and in unwritten registers only. -/
theorem witness_UnwrittenContentIsNeverObservable :
    sameVisible regsReset { regsReset with cutoff := 5, a0 := 6, gainLin := 7 } ∧
    regsReset ≠ { regsReset with cutoff := 5, a0 := 6, gainLin := 7 } := by
  refine ⟨?_, by decide⟩
  intro x h; cases x <;> first | rfl | exact absurd h (by decide)

theorem witness_BqSetupMakesTheFilterReady :
    State.reset.regs.algo = 3 ∧ finite64 0x4034000000000000 ∧ finite64 0x3FE69FBE76C8B439 ∧ finite64 0 ∧
    1 ≤ (44100#64).toNat ∧ (44100#64).toNat ≤ 2 ^ 32 - 1 := by unfold finite64; decide

end Sys2Proof.Tests
end

section
/-! SUPPORT. Binary64 operations, one equation per kind of operand (spec/00_scope.md R10, spec/42_biquad.md R151 to R154):
negation, finite operands as one rounding, infinities; then the obligations on arithmetic that follow from them. -/

namespace Sys2Proof.Machine

open Claims

/-- The model's test of finiteness decides the claims' `finite64`. -/
theorem fIsFinite_iff {x : F64} : fIsFinite x = true ↔ finite64 x := by
  rw [fIsFinite, bne_iff_ne, fExp, finite64, ne_eq, ne_eq, BitVec.toNat_eq]; rfl

/-! ### Negation -/

@[simp] theorem fSign_fNeg (x : F64) : fSign (fNeg x) = !fSign x := by
  simp [fSign, fNeg]

@[simp] theorem fExp_fNeg (x : F64) : fExp (fNeg x) = fExp x := by
  simp [fExp, fNeg, BitVec.extractLsb'_xor]

@[simp] theorem fFrac_fNeg (x : F64) : fFrac (fNeg x) = fFrac x := by
  simp [fFrac, fNeg, BitVec.extractLsb'_xor]

@[simp] theorem fIsFinite_fNeg (x : F64) : fIsFinite (fNeg x) = fIsFinite x := by simp [fIsFinite]
@[simp] theorem fIsNaN_fNeg (x : F64) : fIsNaN (fNeg x) = fIsNaN x := by simp [fIsNaN]
@[simp] theorem fIsInf_fNeg (x : F64) : fIsInf (fNeg x) = fIsInf x := by simp [fIsInf]
@[simp] theorem fMag_fNeg (x : F64) : fMag (fNeg x) = fMag x := by simp [fMag]

@[simp] theorem fVal_fNeg (x : F64) : fVal (fNeg x) = -fVal x := by
  cases h : fSign x <;> simp [fVal, h]

/-! ### Zeros and infinities of a sign -/

theorem fSigned_posInf (b : Bool) : fSigned b posInf = signedInf b := by cases b <;> rfl

theorem fSigned_posZero (b : Bool) : fSigned b posZero = signedZero b := by cases b <;> rfl

theorem fIsInf_iff {x : F64} : fIsInf x = true ↔ fExp x = 2047 ∧ fFrac x = 0 := by simp [fIsInf]

theorem fIsNaN_of_inf {x : F64} (h : fIsInf x = true) : fIsNaN x = false := by
  simp [fIsNaN, (fIsInf_iff.1 h).2]

theorem fIsZero_of_inf {x : F64} (h : fIsInf x = true) : fIsZero x = false := by
  simp [fIsZero, (fIsInf_iff.1 h).1]

theorem fVal_eq_zero_iff {x : F64} : fVal x = 0 ↔ fMag x = 0 := by
  rw [← fVal_natAbs, Int.natAbs_eq_zero]

theorem fIsZero_eq_decide (x : F64) : fIsZero x = decide (fVal x = 0) := by
  rw [Bool.eq_iff_iff, ← fMag_eq_zero_iff, ← fVal_eq_zero_iff, decide_eq_true_iff]

/-- An exact zero rounds to the zero of the given sign. -/
theorem fRound_zero (neg : Bool) {den : Nat} (hd : 0 < den) : fRound neg 0 den = signedZero neg := by
  obtain ⟨hfin, hmag, hsign⟩ : fIsFinite (signedZero neg) = true ∧ fMag (signedZero neg) = 0 ∧
      fSign (signedZero neg) = neg := by cases neg <;> decide
  simpa [hsign] using fRound_exact (w := signedZero neg) (num := 0) hd hfin (by simp [hmag])

/-! ### Finite operands: each operation is one rounding of the exact result -/

/-- The sign of a sum of two finite operands: that of the exact sum; of a zero sum, negative if both operands are. -/
def sumSign (x y : F64) : Bool :=
  if fVal x + fVal y = 0 then fSign x && fSign y else decide (fVal x + fVal y < 0)

theorem signed_sum (x y : F64) :
    (if sumSign x y then -((fVal x + fVal y).natAbs : Int) else (fVal x + fVal y).natAbs) = fVal x + fVal y := by
  unfold sumSign
  split
  · next h => simp [h]
  · simp only [decide_eq_true_eq]; split <;> omega

/-- The exact product of two finite values, as the sign and the magnitude that fMul rounds. -/
theorem signed_product (x y : F64) (c : Nat) :
    (if fSign x != fSign y then -((fMag x * fMag y * c : Nat) : Int) else (fMag x * fMag y * c : Nat)) =
      fVal x * fVal y * c := by
  unfold fVal
  cases fSign x <;> cases fSign y <;> simp

theorem fVal_mul_self (x : F64) : fVal x * fVal x = (fMag x * fMag x : Nat) := by
  rw [← fVal_natAbs, Int.natAbs_mul_self]

section finite
variable {nan x y : F64} (hx : fIsFinite x = true) (hy : fIsFinite y = true)
include hx hy

theorem fAdd_of_finite : fAdd nan x y = fRound (sumSign x y) (fVal x + fVal y).natAbs 1 := by
  simp only [fAdd, fIsNaN_of_finite hx, fIsNaN_of_finite hy, fIsInf_of_finite hx, fIsInf_of_finite hy, sumSign]
  by_cases h : fVal x + fVal y = 0
  · simp only [h, if_true, Int.natAbs_zero, fRound_zero _ Nat.one_pos]; rfl
  · simp [h]

theorem fMul_of_finite : fMul nan x y = fRound (fSign x != fSign y) (fMag x * fMag y) oneUnits := by
  simp [fMul, fIsNaN_of_finite hx, fIsNaN_of_finite hy, fIsInf_of_finite hx, fIsInf_of_finite hy]

theorem fDiv_of_finite (h : fVal y ≠ 0) :
    fDiv nan x y = fRound (fSign x != fSign y) (fMag x * oneUnits) (fMag y) := by
  simp [fDiv, fIsNaN_of_finite hx, fIsNaN_of_finite hy, fIsInf_of_finite hx, fIsInf_of_finite hy,
    fIsZero_eq_decide y, h]

theorem fDiv_by_zero (hx0 : fVal x ≠ 0) (hy0 : fVal y = 0) : fDiv nan x y = signedInf (fSign x != fSign y) := by
  simp [fDiv, fIsNaN_of_finite hx, fIsNaN_of_finite hy, fIsInf_of_finite hx, fIsInf_of_finite hy,
    fIsZero_eq_decide, hx0, hy0, fSigned_posInf]

theorem fDiv_of_zero (hx0 : fVal x = 0) (hy0 : fVal y ≠ 0) : fDiv nan x y = signedZero (fSign x != fSign y) := by
  have hden : 0 < fMag y := Nat.pos_of_ne_zero (mt fVal_eq_zero_iff.2 hy0)
  rw [fDiv_of_finite hx hy hy0, fVal_eq_zero_iff.1 hx0, zero_mul, fRound_zero _ hden]

theorem fMul_eq_zero (h : fVal x * fVal y = 0) : fMul nan x y = signedZero (fSign x != fSign y) := by
  have hmag : fMag x * fMag y = 0 := by rw [← fVal_natAbs, ← fVal_natAbs, ← Int.natAbs_mul, h]; rfl
  rw [fMul_of_finite hx hy, hmag, fRound_zero _ oneUnits_pos]

theorem fAdd_eq_zero (h : fVal x + fVal y = 0) : fAdd nan x y = signedZero (fSign x && fSign y) := by
  rw [fAdd_of_finite hx hy, sumSign, if_pos h, h, Int.natAbs_zero, fRound_zero _ Nat.one_pos]

theorem fSub_eq_zero (h : fVal x - fVal y = 0) : fSub nan x y = signedZero (fSign x && !fSign y) := by
  have hy' : fIsFinite (fNeg y) = true := by rwa [fIsFinite_fNeg]
  rw [fSub, fAdd_eq_zero hx hy' (by rwa [fVal_fNeg]), fSign_fNeg]

/-! ### Rounding to nearest even -/

theorem fAdd_roundsTo : RoundsTo (fVal x + fVal y) 1 (fAdd nan x y) := by
  have h := fRound_roundsTo (sumSign x y) (fVal x + fVal y).natAbs 1 Nat.one_pos
  rwa [signed_sum, ← fAdd_of_finite (nan := nan) hx hy] at h

theorem fSub_roundsTo : RoundsTo (fVal x - fVal y) 1 (fSub nan x y) := by
  have hy' : fIsFinite (fNeg y) = true := by rwa [fIsFinite_fNeg]
  rw [sub_eq_add_neg, ← fVal_fNeg]
  exact fAdd_roundsTo hx hy'

theorem fMul_roundsTo : RoundsTo (fVal x * fVal y) oneUnits (fMul nan x y) := by
  have h := fRound_roundsTo (fSign x != fSign y) (fMag x * fMag y) oneUnits oneUnits_pos
  have hnum := signed_product x y 1
  rw [mul_one, Nat.cast_one, mul_one] at hnum
  rwa [hnum, ← fMul_of_finite (nan := nan) hx hy] at h
end finite

/-- A common factor of numerator and denominator leaves the rounded value. -/
theorem RoundsTo.mul_right {num : Int} {den c : Nat} {z : F64} (h : RoundsTo num den z) (hc : 0 < c) :
    RoundsTo (num * c) (den * c) z := by
  have hc' : (0 : Int) < c := by exact_mod_cast hc
  have dist : ∀ w : F64, |fVal w * (den * c : Nat) - num * c| = |fVal w * den - num| * c := by
    intro w
    rw [← abs_of_pos hc', ← abs_mul]; congr 1
    rw [abs_of_pos hc']; push_cast; ring
  refine ⟨h.notNaN, ?_, fun hf w hw => ?_, fun hf w hw hne => ?_, fun h0 => ?_⟩
  · rw [h.finite_iff, Int.natAbs_mul, Int.natAbs_natCast, ← mul_assoc, Nat.mul_lt_mul_right hc]
  · rw [dist, dist]; exact mul_le_mul_of_nonneg_right (h.nearest hf w hw) hc'.le
  · rw [dist, dist, mul_left_inj' hc'.ne']; exact h.tiesEven hf w hw hne
  · rw [h.sign (left_ne_zero_of_mul h0)]
    exact decide_eq_decide.2 ⟨fun h => mul_neg_of_neg_of_pos h hc', fun h => neg_of_mul_neg_left h hc'.le⟩

theorem fDiv_roundsTo {nan x y : F64} (hx : fIsFinite x = true) (hy : fIsFinite y = true) (h0 : fVal y ≠ 0) :
    RoundsTo (fVal x * fVal y * oneUnits) (fVal y * fVal y).toNat (fDiv nan x y) := by
  have hden : 0 < fMag y := Nat.pos_of_ne_zero (mt fVal_eq_zero_iff.2 h0)
  have h := (fRound_roundsTo (fSign x != fSign y) (fMag x * oneUnits) (fMag y) hden).mul_right hden
  rw [← fDiv_of_finite (nan := nan) hx hy h0] at h
  rw [fVal_mul_self, Int.toNat_natCast, ← signed_product]
  convert h using 1
  split <;> push_cast <;> ring

/-! ### An infinite operand -/

section infinite
variable {nan x inf inf' : F64} (hi : fIsInf inf = true) (hi' : fIsInf inf' = true) (hx : fIsFinite x = true)

include hi hx in
theorem fAdd_inf_left : fAdd nan inf x = inf := by
  simp [fAdd, fIsNaN_of_inf hi, hi, fIsNaN_of_finite hx, fIsInf_of_finite hx]

include hi hx in
theorem fAdd_inf_right : fAdd nan x inf = inf := by
  simp [fAdd, fIsNaN_of_inf hi, hi, fIsNaN_of_finite hx, fIsInf_of_finite hx]

include hi hi' in
theorem fAdd_inf_inf (h : fSign inf = fSign inf') : fAdd nan inf inf' = inf := by
  simp [fAdd, fIsNaN_of_inf hi, hi, fIsNaN_of_inf hi', h]

include hi hi' in
theorem fSub_inf_inf (h : fSign inf ≠ fSign inf') : fSub nan inf inf' = inf :=
  fAdd_inf_inf hi (by rwa [fIsInf_fNeg]) (by rw [fSign_fNeg]; exact Bool.eq_not.2 h)

include hi hi' in
theorem fMul_inf_inf : fMul nan inf inf' = signedInf (fSign inf != fSign inf') := by
  simp [fMul, fIsNaN_of_inf hi, hi, fIsNaN_of_inf hi', fIsZero_of_inf hi, fIsZero_of_inf hi', fSigned_posInf]

include hi hx in
theorem fMul_inf_left (h : fVal x ≠ 0) : fMul nan inf x = signedInf (fSign inf != fSign x) := by
  simp [fMul, fIsNaN_of_inf hi, hi, fIsNaN_of_finite hx, fIsZero_of_inf hi, fIsZero_eq_decide x, h, fSigned_posInf]

include hi hx in
theorem fMul_inf_right (h : fVal x ≠ 0) : fMul nan x inf = signedInf (fSign x != fSign inf) := by
  simp [fMul, fIsNaN_of_inf hi, hi, fIsNaN_of_finite hx, fIsZero_of_inf hi, fIsZero_eq_decide x, h, fSigned_posInf]

include hi hx in
theorem fDiv_inf_left : fDiv nan inf x = signedInf (fSign inf != fSign x) := by
  simp [fDiv, fIsNaN_of_inf hi, hi, fIsNaN_of_finite hx, fIsInf_of_finite hx, fSigned_posInf]

include hi hx in
theorem fDiv_inf_right : fDiv nan x inf = signedZero (fSign x != fSign inf) := by
  simp [fDiv, fIsNaN_of_inf hi, hi, fIsNaN_of_finite hx, fIsInf_of_finite hx, fSigned_posZero]
end infinite

/-! ### Integers -/

theorem roundEven_of_dvd {num den : Nat} (hd : 0 < den) (h : den ∣ num) : roundEven num den = num / den := by
  simp [roundEven, Nat.mod_eq_zero_of_dvd h, hd]

/-- A number that is a multiple of its binade's spacing is rounded to itself. -/
theorem fMag_fRound_of_dvd {neg : Bool} {num : Nat} (hlt : num < overflowUnits)
    (hdvd : 2 ^ roundScale num 1 ∣ num) : fMag (fRound neg num 1) = num := by
  have hcode := (roundCode_lt (num := num) Nat.one_pos).2 (by rwa [mul_one])
  rw [fMag_fRound Nat.one_pos hcode, one_mul, roundEven_of_dvd (by positivity) hdvd, Nat.div_mul_cancel hdvd]

/-- An integer of at most 53 bits, or 2^53, is a multiple of its binade's spacing whatever
the power of two that counts its units. -/
theorem pow_roundScale_dvd {n k : Nat} (hn : n ≤ 2 ^ 53) : 2 ^ roundScale (n * 2 ^ k) 1 ∣ n * 2 ^ k := by
  rcases Nat.eq_zero_or_pos n with rfl | hpos
  · simp
  have hnum : n * 2 ^ k ≠ 0 := by positivity
  rcases hn.eq_or_lt with rfl | hlt
  · have hlog : roundScale (2 ^ 53 * 2 ^ k) 1 = k + 1 := by
      rw [roundScale, Nat.div_one, ← pow_add, Nat.log2_two_pow]; omega
    rw [hlog, ← pow_add]
    exact pow_dvd_pow 2 (by omega)
  · have hlog : Nat.log2 (n * 2 ^ k) < 53 + k := by
      rw [Nat.log2_lt hnum, pow_add]; exact Nat.mul_lt_mul_of_pos_right hlt (by positivity)
    have hscale : roundScale (n * 2 ^ k) 1 ≤ k := by rw [roundScale, Nat.div_one]; omega
    exact (pow_dvd_pow 2 hscale).mul_left n

theorem mul_oneUnits_lt_overflowUnits {n : Nat} (hn : n ≤ 2 ^ 53) : n * oneUnits < overflowUnits := by
  have hn' : n < 2 ^ 54 - 1 := by omega
  have hunit : 1074 ≤ 2044 := by decide
  unfold oneUnits overflowUnits
  exact Nat.mul_lt_mul_of_lt_of_le hn' (pow_le_pow_right₀ one_le_two hunit) (by positivity)

theorem fOfInt_eq (v : Int) : fOfInt v = fRound (decide (v < 0)) (v.natAbs * oneUnits) 1 := by
  unfold fOfInt
  split
  · next h => rw [h, Int.natAbs_zero, zero_mul, fRound_zero _ Nat.one_pos]; rfl
  · rfl

@[simp] theorem fSign_fOfInt (v : Int) : fSign (fOfInt v) = decide (v < 0) := by
  rw [fOfInt_eq, fSign_fRound]

theorem fMag_fOfInt {v : Int} (hv : v.natAbs ≤ 2 ^ 53) : fMag (fOfInt v) = v.natAbs * oneUnits := by
  rw [fOfInt_eq]
  refine fMag_fRound_of_dvd (mul_oneUnits_lt_overflowUnits hv) ?_
  unfold oneUnits
  exact pow_roundScale_dvd hv

theorem fIsFinite_fOfInt {v : Int} (hv : v.natAbs ≤ 2 ^ 53) : fIsFinite (fOfInt v) = true := by
  rw [fOfInt_eq, fIsFinite_fRound Nat.one_pos, mul_one]
  exact mul_oneUnits_lt_overflowUnits hv

theorem fVal_fOfInt {v : Int} (hv : v.natAbs ≤ 2 ^ 53) : fVal (fOfInt v) = v * oneUnits := by
  rw [fVal, fSign_fOfInt, fMag_fOfInt hv]
  by_cases hneg : v < 0
  · rw [decide_eq_true hneg, if_pos rfl, Nat.cast_mul, Int.ofNat_natAbs_of_nonpos hneg.le]; ring
  · rw [decide_eq_false hneg, if_neg Bool.false_ne_true, Nat.cast_mul, Int.natAbs_of_nonneg (not_lt.1 hneg)]

/-! ### The obligations -/

theorem oneUnits_eq : oneUnits = 2 ^ 1074 := by unfold oneUnits; rfl

theorem oneUnits_cast : (oneUnits : Int) = 2 ^ 1074 := by rw [oneUnits_eq, Nat.cast_pow]; rfl

/-- Settles O40: each operation on finite operands is one fRound of the exact result; a quotient's fraction is that result
with numerator and denominator multiplied by the divisor. -/
theorem arithmeticRoundsToNearestEven : Obligations.ArithmeticRoundsToNearestEven := by
  intro nan x y hx hy
  rw [← fIsFinite_iff] at hx hy
  rw [← oneUnits_eq, ← oneUnits_cast]
  exact ⟨fAdd_roundsTo hx hy, fSub_roundsTo hx hy, fMul_roundsTo hx hy, fDiv_roundsTo hx hy⟩

/-- Settles O42, one clause per operation and kind of operand. -/
theorem specialOperandsFollowIeee : Obligations.SpecialOperandsFollowIeee := by
  intro nan x y inf inf' hx hy hi hi'
  rw [← fIsFinite_iff] at hx hy
  have hx' : fIsFinite (fNeg x) = true := by rwa [fIsFinite_fNeg]
  have hneg : fIsInf (fNeg inf) = true := by rwa [fIsInf_fNeg]
  exact ⟨fAdd_inf_left hi hx, fAdd_inf_right hi hx, fAdd_inf_left hi hx', fAdd_inf_right hneg hx,
    fAdd_inf_inf hi hi', fSub_inf_inf hi hi', fMul_inf_inf hi hi',
    fun h => ⟨fMul_inf_right hi hx h, fMul_inf_left hi hx h⟩,
    fDiv_inf_left hi hx, fDiv_inf_right hi hx, fDiv_by_zero hx hy, fDiv_of_zero hx hy,
    fMul_eq_zero hx hy, fAdd_eq_zero hx hy, fSub_eq_zero hx hy⟩

/-- Settles O43: v * 2^1074 is a multiple of the spacing of its binade, so fOfInt's rounding is exact. -/
theorem integersConvertExactly : Obligations.IntegersConvertExactly := by
  intro v hv
  have hv' : v.natAbs ≤ 2 ^ 53 := by
    rw [Int.abs_eq_natAbs] at hv; exact_mod_cast hv
  exact ⟨fIsFinite_iff.1 (fIsFinite_fOfInt hv'), by rw [fVal_fOfInt hv', oneUnits_cast], fSign_fOfInt v⟩

end Sys2Proof.Machine
end

section
/-! SUPPORT. What a command leaves in the registers, said once (spec/10_state.md R22 to R37,
spec/60_exceptions.md R233):
`CommandEffect`, its proof for every command (`exec_effect`), and which commands write which register. -/

namespace Sys2Proof.Machine

/-! ### ADPCM values stay in their clamp ranges -/

theorem clampInt_bounds {lo hi : Int} (h : lo ≤ hi) (v : Int) : lo ≤ clampInt v lo hi ∧ clampInt v lo hi ≤ hi := by
  unfold clampInt; omega

/-- The decoder's clamps (R115, R117), whatever it starts from. -/
theorem decodeNibbleInt_bounds (t : Vector Nat 49) (n : Nibble) (p i : Int) :
    (-2048 ≤ (decodeNibbleInt t n p i).pred ∧ (decodeNibbleInt t n p i).pred ≤ 2047) ∧
    (0 ≤ (decodeNibbleInt t n p i).sidx ∧ (decodeNibbleInt t n p i).sidx ≤ 48) :=
  ⟨clampInt_bounds (by decide) _, clampInt_bounds (by decide) _⟩

/-- R39's ranges hold after a nibble, whatever the registers held before. -/
theorem clampInv_nibbleRegs (t : Vector Nat 49) (n : Nibble) (r : Regs) : clampInv (nibbleRegs t n r) := by
  obtain ⟨⟨hplo, hphi⟩, hilo, hihi⟩ := decodeNibbleInt_bounds t n r.pred.toInt r.sidx.toInt
  unfold clampInv nibbleRegs
  rw [writeAdpcm_pred, writeAdpcm_sidx, BitVec.toInt_ofInt_eq_self (by decide) (by omega) (by omega),
    BitVec.toInt_ofInt_eq_self (by decide) (by omega) (by omega)]
  exact ⟨hplo, hphi, hilo, hihi⟩

theorem clampInv_writeAdpcm_zero (r : Regs) : clampInv (writeAdpcm 0 0 r) := by
  simp [clampInv]

/-! ### The effect of a command -/

/-- The registers a command with this operation code can leave. -/
inductive CommandEffect (r : Regs) : Opcode → Regs → Prop where
  | fail (op : Opcode) (k : Status) : CommandEffect r op (logError k r)
  | nop : CommandEffect r .nop r
  | regRd : CommandEffect r .regRd r
  | adpcm {op : Opcode} (hop : op = .adInit ∨ op = .adNib ∨ op = .adByte) (p i : BitVec 16)
      (hclamp : clampInv (writeAdpcm p i r)) : CommandEffect r op (writeAdpcm p i r)
  | regWr {p : Param} {w : Word64} (hlegal : legalValue p w = true) : CommandEffect r .regWr (writeParam p w r)
  | bqCalc (hcutoff : isValid r .cutoffW = true) (hq : isValid r .qW = true) (hsrate : isValid r .srateW = true)
      (halgo : r.algo = 3) (draw : Nat) : CommandEffect r .bqCalc (writeCoeffs (coeffsOf (nanBits draw) r) r)
  | gainCalc (hgdb : isValid r .gdbW = true) (draw : Nat) :
      CommandEffect r .gainCalc (writeGain (gainOf (nanBits draw) r) r)
  | bqClr : CommandEffect r .bqClr (writeDelay posZero posZero r)
  | filter {op : Opcode} (hop : op = .bqProc ∨ op = .bqProcr) (xn : F64) (draw : Nat) :
      CommandEffect r op (filterRegs (nanBits draw) xn r)
  | reset : CommandEffect r .reset regsReset

/-- The outcome is a next state whose registers are an effect of the command on `r`. -/
def HasEffect (r : Regs) (op : Opcode) (o : Result) : Prop := ∃ u, o = .next u ∧ CommandEffect r op u.regs

theorem raiseStatus_hasEffect (k : Status) (s : State) (op : Opcode) : HasEffect s.regs op (raiseStatus k s) :=
  ⟨_, rfl, .fail op k⟩

theorem respond_hasEffect {r : Regs} {op : Opcode} (v : Word64) {s : State} (h : CommandEffect r op s.regs) :
    HasEffect r op (respond v s) := ⟨_, rfl, h⟩

/-- A check that ends the command with a status: beyond it, it is known not to apply. -/
theorem guard_hasEffect {s : State} {op : Opcode} {c : Prop} [Decidable c] {k : Status} {o : Result}
    (h : ¬ c → HasEffect s.regs op o) : HasEffect s.regs op (if c then raiseStatus k s else o) := by
  split
  · exact raiseStatus_hasEffect k s op
  · next hc => exact h hc

theorem execRegWr_hasEffect (rsel : BitVec 8) (rsvd : BitVec 16) (w : Word64) (s : State) :
    HasEffect s.regs .regWr (execRegWr rsel rsvd w s) := by
  refine guard_hasEffect fun _ => ?_
  split
  · exact raiseStatus_hasEffect _ s _
  · split
    · exact raiseStatus_hasEffect _ s _
    · split
      · next hlegal => exact respond_hasEffect _ (.regWr hlegal)
      · exact raiseStatus_hasEffect _ s _

theorem execRegRd_hasEffect (rsel : BitVec 8) (rsvd : BitVec 16) (s : State) :
    HasEffect s.regs .regRd (execRegRd rsel rsvd s) := by
  refine guard_hasEffect fun _ => ?_
  split
  · exact raiseStatus_hasEffect _ s _
  · exact guard_hasEffect fun _ => respond_hasEffect _ .regRd

theorem execBqCalc_hasEffect (rsvd : BitVec 24) (s : State) : HasEffect s.regs .bqCalc (execBqCalc rsvd s) := by
  refine guard_hasEffect fun _ => guard_hasEffect fun hvalid => guard_hasEffect fun halgo => ?_
  obtain ⟨⟨hcutoff, hq⟩, hsrate⟩ : (isValid s.regs .cutoffW = true ∧ isValid s.regs .qW = true) ∧
      isValid s.regs .srateW = true := by simpa using hvalid
  exact respond_hasEffect _ (.bqCalc hcutoff hq hsrate (not_not.1 halgo) _)

/-- Every command ends in a next state whose registers are its effect. -/
theorem exec_hasEffect (i : Instr) (s : State) : HasEffect s.regs (opcodeOf i) (exec i s) := by
  cases i with
  | nop rsvd => exact guard_hasEffect fun _ => respond_hasEffect _ .nop
  | adInit rsvd =>
    exact guard_hasEffect fun _ => respond_hasEffect _ (.adpcm (.inl rfl) 0 0 (clampInv_writeAdpcm_zero _))
  | adNib rsvd n =>
    exact guard_hasEffect fun _ => respond_hasEffect _ (.adpcm (.inr (.inl rfl)) _ _ (clampInv_nibbleRegs _ n s.regs))
  | adByte rsvd b =>
    exact guard_hasEffect fun _ => respond_hasEffect _ (.adpcm (.inr (.inr rfl)) _ _
      (clampInv_nibbleRegs _ (lowNibble b) (nibbleRegs s.stepTable (highNibble b) s.regs)))
  | regWr rsel rsvd w => exact execRegWr_hasEffect rsel rsvd w s
  | regRd rsel rsvd => exact execRegRd_hasEffect rsel rsvd s
  | bqCalc rsvd => exact execBqCalc_hasEffect rsvd s
  | gainCalc rsvd =>
    exact guard_hasEffect fun _ => guard_hasEffect fun hgdb => respond_hasEffect _ (.gainCalc (by simpa using hgdb) _)
  | bqClr rsvd => exact guard_hasEffect fun _ => respond_hasEffect _ .bqClr
  | bqProc rsvd v =>
    exact guard_hasEffect fun _ => guard_hasEffect fun _ => respond_hasEffect _ (.filter (.inl rfl) _ _)
  | bqProcr rsvd x =>
    exact guard_hasEffect fun _ => guard_hasEffect fun _ => guard_hasEffect fun _ =>
      respond_hasEffect _ (.filter (.inr rfl) _ _)
  | reset rsvd => exact guard_hasEffect fun _ => respond_hasEffect _ .reset

/-- What a command can do, by the state it leaves. -/
theorem exec_effect {i : Instr} {s u : State} (h : exec i s = .next u) :
    CommandEffect s.regs (opcodeOf i) u.regs ∧ u.stepTable = s.stepTable := by
  obtain ⟨u', hu', heff⟩ := exec_hasEffect i s
  obtain ⟨r, x, d, hrxd⟩ := exec_cases i s
  obtain rfl : u' = u := by simpa [h, eq_comm] using hu'
  obtain rfl : u' = _ := by simpa [h] using hrxd
  exact ⟨heff, rfl⟩

/-- Settles O51: the effects, one by one, write no register but those the command is named for. -/
theorem onlyTheNamedCommandsWriteARegister : Obligations.OnlyTheNamedCommandsWriteARegister := by
  intro i s u h
  obtain ⟨heff, htable⟩ := exec_effect h
  generalize opcodeOf i = op at heff ⊢
  generalize u.regs = q at heff ⊢
  cases heff with
  | fail | nop | regRd | regWr | bqCalc | gainCalc | bqClr | reset => simp [htable]
  | adpcm hop p i hclamp => obtain rfl | rfl | rfl := hop <;> simp [htable]
  | filter hop xn draw => obtain rfl | rfl := hop <;> simp [filterRegs, htable]

end Sys2Proof.Machine
end

section
/-! SUPPORT. The invariant of the command boundary (spec/10_state.md R26 to R43): it holds right after reset, and the
effect of every command keeps it. -/

namespace Sys2Proof.Machine

/-! ### Hardwired bits (R36, R37) -/

theorem extractLsb'_validSet_high (v : Word64) (f : ValidField) :
    (validSet v f).extractLsb' 6 58 = v.extractLsb' 6 58 := by
  have hf := validBit_lt f
  ext i hi
  have : ¬ 6 + i = validBit f := by omega
  simp [← BitVec.getLsbD_eq_getElem, validSet_getLsbD, this]

theorem extractLsb'_validClear_high (v : Word64) (f : ValidField) :
    (validClear v f).extractLsb' 6 58 = v.extractLsb' 6 58 := by
  have hf := validBit_lt f
  ext i hi
  have : ¬ 6 + i = validBit f := by omega
  simp [← BitVec.getLsbD_eq_getElem, validClear_getLsbD, this]

theorem extractLsb'_writeEffects_high (p : Param) (v : Word64) :
    (writeEffects p v).extractLsb' 6 58 = v.extractLsb' 6 58 := by
  cases p <;> simp only [writeEffects, extractLsb'_validClear_high, extractLsb'_validSet_high]

theorem statusCode_bounds (k : Status) : 1 ≤ (statusCode k).toNat ∧ (statusCode k).toNat ≤ 7 := by
  cases k <;> decide

theorem extractLsb'_errlogSet_high (v : Word64) (k : Status) :
    (errlogSet v k).extractLsb' 8 56 = v.extractLsb' 8 56 := by
  have hk := statusCode_bounds k
  ext i hi
  have : ¬ 8 + i = (statusCode k).toNat := by omega
  simp [← BitVec.getLsbD_eq_getElem, errlogSet_getLsbD, this]

theorem getLsbD_zero_errlogSet (v : Word64) (k : Status) : (errlogSet v k).getLsbD 0 = v.getLsbD 0 := by
  have hk := statusCode_bounds k
  rw [errlogSet_getLsbD, decide_eq_false (by omega), Bool.or_false]

/-! ### Arithmetic leaves no signalling NaN (R153) -/

theorem getLsbD_quietNaN (d : BitVec 52) : (quietNaN d).getLsbD 51 = true := by
  rw [quietNaN, BitVec.getLsbD_append, BitVec.getLsbD_append]
  rfl

theorem fAdd_eq_nan_or_number (nan x y : F64) : fAdd nan x y = nan ∨ fIsNaN (fAdd nan x y) = false := by
  unfold fAdd
  split
  · exact .inl rfl
  next hnan =>
    obtain ⟨hx, hy⟩ : fIsNaN x = false ∧ fIsNaN y = false := by simpa using hnan
    split
    · split
      · exact .inl rfl
      · exact .inr hx
    · split
      · exact .inr hy
      · refine .inr ?_
        split
        · split <;> decide
        · exact fIsNaN_fRound ..

theorem quietOrNumber_fSub (draw op : Nat) (x y : F64) : quietOrNumber (fSub (nanBits draw op) x y) := by
  intro h
  obtain hnan | hnum := fAdd_eq_nan_or_number (nanBits draw op) x (fNeg y)
  · rw [fSub, hnan]; exact getLsbD_quietNaN _
  · rw [fSub, hnum] at h; exact absurd h Bool.false_ne_true

/-! ### Legal parameters (R202 to R204) -/

theorem srate_ne_zero_of_legal {w : Word64} (h : legalValue .srate w = true) : w.extractLsb' 0 32 ≠ 0 := by
  obtain ⟨hlo, hhi⟩ : 1 ≤ w.toNat ∧ w.toNat ≤ 2 ^ 32 - 1 := by simpa [legalValue] using h
  intro h0
  have hlow : w.toNat % 2 ^ 32 = 0 := by simpa using congrArg BitVec.toNat h0
  omega

/-! ### Each register write keeps the invariant -/

section registerWrites
variable {r : Regs}

theorem regsInv_regsReset : RegsInv regsReset where
  clamp := by decide
  params := by decide
  hardwired := by decide
  coeffs h := absurd h (by decide)
  gain h := absurd h (by decide)
  delay := by decide

theorem regsInv_logError (h : RegsInv r) (k : Status) : RegsInv (logError k r) where
  clamp := h.clamp
  params := h.params
  hardwired := by
    obtain ⟨hvalid, hzero, hhigh⟩ := h.hardwired
    exact ⟨hvalid, by rw [logError_errlog, getLsbD_zero_errlogSet, hzero],
      by rw [logError_errlog, extractLsb'_errlogSet_high, hhigh]⟩
  coeffs := h.coeffs
  gain := h.gain
  delay := h.delay

theorem regsInv_writeAdpcm (h : RegsInv r) {p i : BitVec 16} (hclamp : clampInv (writeAdpcm p i r)) :
    RegsInv (writeAdpcm p i r) where
  clamp := hclamp
  params := h.params
  hardwired := h.hardwired
  coeffs := h.coeffs
  gain := h.gain
  delay := h.delay

theorem regsInv_writeDelay (h : RegsInv r) {u v : F64} (hu : quietOrNumber u) (hv : quietOrNumber v) :
    RegsInv (writeDelay u v r) where
  clamp := h.clamp
  params := h.params
  hardwired := h.hardwired
  coeffs := h.coeffs
  gain := h.gain
  delay := ⟨hu, hv⟩

theorem paramsLegal_writeParam (h : paramsLegal r) {p : Param} {w : Word64} (hlegal : legalValue p w = true) :
    paramsLegal (writeParam p w r) := by
  obtain ⟨halgo, hcutoff, hq, hsrate, hgdb⟩ := h
  cases p with
  | algo => exact ⟨by simpa [legalValue] using hlegal, by simpa [isValid_writeParam] using ⟨hcutoff, hq, hsrate, hgdb⟩⟩
  | cutoff | qreg | gainDb => simp_all [paramsLegal, isValid_writeParam, legalValue]
  | srate =>
    have := srate_ne_zero_of_legal hlegal
    simp_all [paramsLegal, isValid_writeParam]

/-- A parameter write clears COEF_V, but for GAIN_DB, which no coefficient depends on. -/
theorem coeffsCurrent_writeParam (h : coeffsCurrent r) (p : Param) (w : Word64) : coeffsCurrent (writeParam p w r) := by
  intro hv
  obtain rfl : p = .gainDb := by
    by_contra hp
    simp [isValid_writeParam, hp] at hv
  obtain ⟨hcutoff, hq, hsrate, halgo, draw, hdraw⟩ := h (by simpa [isValid_writeParam] using hv)
  refine ⟨?_, ?_, ?_, halgo, draw, hdraw⟩ <;> simpa [isValid_writeParam]

/-- A write of GAIN_DB clears GAIN_V; the gain depends on no other parameter. -/
theorem gainCurrent_writeParam (h : gainCurrent r) (p : Param) (w : Word64) : gainCurrent (writeParam p w r) := by
  intro hv
  have hp : p ≠ .gainDb := by
    rintro rfl
    simp [isValid_writeParam] at hv
  obtain ⟨hgdb, draw, hdraw⟩ := h (by simpa [isValid_writeParam, hp] using hv)
  exact ⟨by simp [isValid_writeParam, hp, hgdb], draw, by simpa [gainOf, hp] using hdraw⟩

theorem regsInv_writeParam (h : RegsInv r) {p : Param} {w : Word64} (hlegal : legalValue p w = true) :
    RegsInv (writeParam p w r) where
  clamp := by simpa [clampInv] using h.clamp
  params := paramsLegal_writeParam h.params hlegal
  hardwired := by simpa [hardwiredZero, extractLsb'_writeEffects_high] using h.hardwired
  coeffs := coeffsCurrent_writeParam h.coeffs p w
  gain := gainCurrent_writeParam h.gain p w
  delay := by simpa using h.delay

theorem regsInv_writeCoeffs (h : RegsInv r) (hcutoff : isValid r .cutoffW = true) (hq : isValid r .qW = true)
    (hsrate : isValid r .srateW = true) (halgo : r.algo = 3) (draw : Nat) :
    RegsInv (writeCoeffs (coeffsOf (nanBits draw) r) r) where
  clamp := h.clamp
  params := by simpa [paramsLegal] using h.params
  hardwired := by simpa [hardwiredZero, extractLsb'_validSet_high] using h.hardwired
  coeffs _ := ⟨by simp [hcutoff], by simp [hq], by simp [hsrate], halgo, draw, rfl⟩
  gain hv := by
    obtain ⟨hgdb, hgain⟩ := h.gain (by simpa using hv)
    exact ⟨by simp [hgdb], hgain⟩
  delay := h.delay

theorem regsInv_writeGain (h : RegsInv r) (hgdb : isValid r .gdbW = true) (draw : Nat) :
    RegsInv (writeGain (gainOf (nanBits draw) r) r) where
  clamp := h.clamp
  params := by simpa [paramsLegal] using h.params
  hardwired := by simpa [hardwiredZero, extractLsb'_validSet_high] using h.hardwired
  coeffs hv := by
    obtain ⟨hcutoff, hq, hsrate, halgo, hcoeffs⟩ := h.coeffs (by simpa using hv)
    exact ⟨by simp [hcutoff], by simp [hq], by simp [hsrate], halgo, hcoeffs⟩
  gain _ := ⟨by simp [hgdb], draw, rfl⟩
  delay := h.delay

/-- The effect of every command keeps the invariant of the registers. -/
theorem CommandEffect.regsInv {op : Opcode} {q : Regs} (he : CommandEffect r op q) (h : RegsInv r) : RegsInv q := by
  cases he with
  | fail op k => exact regsInv_logError h k
  | nop | regRd => exact h
  | adpcm hop p i hclamp => exact regsInv_writeAdpcm h hclamp
  | regWr hlegal => exact regsInv_writeParam h hlegal
  | bqCalc hcutoff hq hsrate halgo draw => exact regsInv_writeCoeffs h hcutoff hq hsrate halgo draw
  | gainCalc hgdb draw => exact regsInv_writeGain h hgdb draw
  | bqClr => exact regsInv_writeDelay h (by decide) (by decide)
  | filter hop xn draw => exact regsInv_writeDelay h (quietOrNumber_fSub draw 3 _ _) h.delay.1
  | reset => exact regsInv_regsReset

end registerWrites

/-! ### Steps -/

theorem transact_inv {t : Transaction} {s u : State} (hs : Inv s) (h : transact t s = .next u) : Inv u := by
  unfold transact at h
  split at h
  · next i _ =>
    obtain ⟨heff, htable⟩ := exec_effect h
    exact ⟨by rw [htable]; exact hs.table, heff.regsInv hs.regs⟩
  · obtain rfl := raiseStatus_eq_next h
    exact ⟨hs.table, regsInv_logError hs.regs _⟩

theorem takeEvent_inv {s : State} (hs : Inv s) (e : PortEvent) (rest : List PortEvent) : Inv (takeEvent e rest s) :=
  ⟨hs.table, hs.regs⟩

theorem hardwareReset_inv {s : State} (hs : Inv s) : Inv (hardwareReset s) := ⟨hs.table, regsInv_regsReset⟩

/-- Settles O50: a step is idle, a reset or one transaction, and each keeps the invariant. -/
theorem stepKeepsTheInvariant : Obligations.StepKeepsTheInvariant := by
  intro s u hs h
  obtain hidle | ⟨c, rest, -, hrst⟩ | ⟨t, rest, -, hcommand⟩ := step_cases s
  · obtain rfl : s = u := by simpa [hidle] using h
    exact hs
  · obtain rfl : _ = u := by simpa [hrst] using h
    exact hardwareReset_inv (takeEvent_inv hs _ rest)
  · exact transact_inv (takeEvent_inv hs _ rest) (hcommand ▸ h)

/-- Settles O49: the registers' reset values, and the default table. -/
theorem resetStateKeepsTheInvariant : Obligations.ResetStateKeepsTheInvariant :=
  ⟨by decide, regsInv_regsReset⟩

end Sys2Proof.Machine
end

section
/-! SUPPORT. Two runs compared (spec/10_state.md R38, R40): a relation on register files that the commands cannot read
across and that every register write keeps is kept by every command, with the same responses (`exec_agree`).
The two relations are agreement on every register that holds a value, and any other ERRLOG. -/

namespace Sys2Proof.Machine

/-! ### What the commands read -/

/-- Two register files in which the commands, but for REG_RD ERRLOG, read the same: ERRLOG aside, every register that
holds a value holds the same one (R38, R40). -/
structure SameReads (r q : Regs) : Prop where
  pred : q.pred = r.pred
  sidx : q.sidx = r.sidx
  algo : q.algo = r.algo
  s0 : q.s0 = r.s0
  s1 : q.s1 = r.s1
  valid : q.valid = r.valid
  cutoff : isValid r .cutoffW = true → q.cutoff = r.cutoff
  qreg : isValid r .qW = true → q.qreg = r.qreg
  srate : isValid r .srateW = true → q.srate = r.srate
  gainDb : isValid r .gdbW = true → q.gainDb = r.gainDb
  coeffs : isValid r .coefV = true → coeffsIn q = coeffsIn r
  gainLin : isValid r .gainV = true → q.gainLin = r.gainLin

namespace SameReads
variable {r q : Regs} (h : SameReads r q)
include h

theorem isValid_eq (f : ValidField) : isValid q f = isValid r f := by rw [isValid, h.valid, isValid]

theorem isUnwritten_eq (x : Reg) : isUnwritten q x = isUnwritten r x := by
  unfold isUnwritten
  split
  · rw [h.isValid_eq]
  · rfl

theorem portValue_eq {x : Reg} (hx : x ≠ .errlog) (hw : isUnwritten r x = false) : portValue q x = portValue r x := by
  cases x with
  | errlog => exact absurd rfl hx
  | pred => rw [portValue, h.pred, portValue]
  | sidx => rw [portValue, h.sidx, portValue]
  | algo => exact h.algo
  | s0 => exact h.s0
  | s1 => exact h.s1
  | valid => exact h.valid
  | cutoff => exact h.cutoff (by simpa [isUnwritten, coveredBy] using hw)
  | qreg => exact h.qreg (by simpa [isUnwritten, coveredBy] using hw)
  | srate => rw [portValue, h.srate (by simpa [isUnwritten, coveredBy] using hw), portValue]
  | gainDb => exact h.gainDb (by simpa [isUnwritten, coveredBy] using hw)
  | gainLin => exact h.gainLin (by simpa [isUnwritten, coveredBy] using hw)
  | a0 | a1 | a2 | b1 | b2 | c0 | d0 =>
    have hc := h.coeffs (by simpa [isUnwritten, coveredBy] using hw)
    simp only [Coeffs.mk.injEq] at hc
    simp only [portValue, hc]

theorem nibbleSample_eq (t : Vector Nat 49) (n : Nibble) : nibbleSample t n q = nibbleSample t n r := by
  rw [nibbleSample, h.pred, h.sidx, nibbleSample]

theorem coeffsOf_eq (nan : Nat → F64) (hcutoff : isValid r .cutoffW = true) (hq : isValid r .qW = true)
    (hsrate : isValid r .srateW = true) : coeffsOf nan q = coeffsOf nan r := by
  rw [coeffsOf, h.cutoff hcutoff, h.qreg hq, h.srate hsrate, coeffsOf]

theorem gainOf_eq (nan : Nat → F64) (hgdb : isValid r .gdbW = true) : gainOf nan q = gainOf nan r := by
  rw [gainOf, h.gainDb hgdb, gainOf]

theorem gainedSample_eq (nan : Nat → F64) (v : BitVec 32) (hgain : isValid r .gainV = true) :
    gainedSample nan v q = gainedSample nan v r := by
  rw [gainedSample, h.gainLin hgain, gainedSample]

theorem filterWn_eq (nan : Nat → F64) (xn : F64) (hcoef : isValid r .coefV = true) :
    filterWn nan xn q = filterWn nan xn r := by
  have hc := h.coeffs hcoef
  simp only [Coeffs.mk.injEq] at hc
  simp only [filterWn, hc, h.s0, h.s1]

theorem filterOut_eq (nan : Nat → F64) (xn : F64) (hcoef : isValid r .coefV = true) :
    filterOut nan xn q = filterOut nan xn r := by
  have hc := h.coeffs hcoef
  simp only [Coeffs.mk.injEq] at hc
  simp only [filterOut, filterYn, h.filterWn_eq nan xn hcoef, hc, h.s0, h.s1]

end SameReads

/-! ### Two runs of a command -/

/-- A relation on register files across which the commands read the same and which every register write keeps. -/
structure KeptByWrites (R : Regs → Regs → Prop) : Prop where
  reads {r q : Regs} : R r q → SameReads r q
  logError {r q : Regs} (k : Status) : R r q → R (logError k r) (logError k q)
  writeAdpcm {r q : Regs} (p i : BitVec 16) : R r q → R (writeAdpcm p i r) (writeAdpcm p i q)
  writeParam {r q : Regs} (p : Param) (w : Word64) : R r q → R (writeParam p w r) (writeParam p w q)
  writeCoeffs {r q : Regs} (c : Coeffs) : R r q → R (writeCoeffs c r) (writeCoeffs c q)
  writeGain {r q : Regs} (g : F64) : R r q → R (writeGain g r) (writeGain g q)
  writeDelay {r q : Regs} (u v : F64) : R r q → R (writeDelay u v r) (writeDelay u v q)
  reset : R regsReset regsReset

/-- The two outcomes are next states that differ at most in the registers, and these are related. -/
def Agree (R : Regs → Regs → Prop) (o o' : Result) : Prop :=
  ∃ u q, o = .next u ∧ o' = .next (withRegs q u) ∧ R u.regs q

theorem respond_agree {R : Regs → Regs → Prop} (v : Word64) {s : State} {q : Regs} (h : R s.regs q) :
    Agree R (respond v s) (respond v (withRegs q s)) := ⟨_, q, rfl, rfl, h⟩

section twoRuns
variable {R : Regs → Regs → Prop} (hR : KeptByWrites R)
include hR

theorem nibbleRegs_related {r q : Regs} (h : R r q) (t : Vector Nat 49) (n : Nibble) :
    R (nibbleRegs t n r) (nibbleRegs t n q) := by
  unfold nibbleRegs
  rw [(hR.reads h).pred, (hR.reads h).sidx]
  exact hR.writeAdpcm _ _ h

variable {s : State} {q : Regs} (h : R s.regs q)
include h

theorem raiseStatus_agree (k : Status) : Agree R (raiseStatus k s) (raiseStatus k (withRegs q s)) :=
  ⟨_, logError k q, rfl, rfl, hR.logError k h⟩

/-- A check that decides the same in both runs. -/
theorem guard_agree {c c' : Prop} [Decidable c] [Decidable c'] (hc : c' ↔ c) {k : Status} {o o' : Result}
    (ho : ¬ c → Agree R o o') :
    Agree R (if c then raiseStatus k s else o) (if c' then raiseStatus k (withRegs q s) else o') := by
  by_cases hcase : c
  · rw [if_pos hcase, if_pos (hc.2 hcase)]
    exact raiseStatus_agree hR h k
  · rw [if_neg hcase, if_neg (mt hc.1 hcase)]
    exact ho hcase

theorem execRegWr_agree (rsel : BitVec 8) (rsvd : BitVec 16) (w : Word64) :
    Agree R (execRegWr rsel rsvd w s) (execRegWr rsel rsvd w (withRegs q s)) := by
  refine guard_agree hR h Iff.rfl fun _ => ?_
  cases regOfRsel rsel with
  | none => exact raiseStatus_agree hR h _
  | some x =>
    cases hp : paramOf x with
    | none => simpa only [hp] using raiseStatus_agree hR h _
    | some p =>
      simp only [hp]
      split
      · exact respond_agree 0 (s := withRegs (writeParam p w s.regs) s) (hR.writeParam p w h)
      · exact raiseStatus_agree hR h _

theorem execRegRd_agree (rsel : BitVec 8) (rsvd : BitVec 16) (hread : rsel = 0x1E → q.errlog = s.regs.errlog) :
    Agree R (execRegRd rsel rsvd s) (execRegRd rsel rsvd (withRegs q s)) := by
  have hreads := hR.reads h
  refine guard_agree hR h Iff.rfl fun _ => ?_
  cases hx : regOfRsel rsel with
  | none => exact raiseStatus_agree hR h _
  | some x =>
    refine guard_agree hR h (by rw [withRegs_regs, hreads.isUnwritten_eq]) fun hw => ?_
    have hport : portValue q x = portValue s.regs x := by
      by_cases herr : x = .errlog
      · subst herr
        exact hread (rselOfReg_of_regOfRsel hx).symm
      · exact hreads.portValue_eq herr (by simpa using hw)
    rw [withRegs_regs, hport]
    exact respond_agree _ h

theorem execBqCalc_agree (rsvd : BitVec 24) : Agree R (execBqCalc rsvd s) (execBqCalc rsvd (withRegs q s)) := by
  have hreads := hR.reads h
  refine guard_agree hR h Iff.rfl fun _ =>
    guard_agree hR h (by simp only [withRegs_regs, hreads.isValid_eq]) fun hvalid =>
      guard_agree hR h (by rw [withRegs_regs, hreads.algo]) fun _ => ?_
  obtain ⟨⟨hcutoff, hq⟩, hsrate⟩ : (isValid s.regs .cutoffW = true ∧ isValid s.regs .qW = true) ∧
      isValid s.regs .srateW = true := by simpa using hvalid
  rw [withRegs_regs, hreads.coeffsOf_eq _ hcutoff hq hsrate]
  exact respond_agree 0 (s := nextDraw (withRegs (writeCoeffs _ s.regs) s)) (hR.writeCoeffs _ h)

theorem execGainCalc_agree (rsvd : BitVec 24) :
    Agree R (execGainCalc rsvd s) (execGainCalc rsvd (withRegs q s)) := by
  have hreads := hR.reads h
  refine guard_agree hR h Iff.rfl fun _ =>
    guard_agree hR h (by simp only [withRegs_regs, hreads.isValid_eq]) fun hgdb => ?_
  rw [withRegs_regs, hreads.gainOf_eq _ (by simpa using hgdb)]
  exact respond_agree 0 (s := nextDraw (withRegs (writeGain _ s.regs) s)) (hR.writeGain _ h)

theorem filterStep_agree (xn : F64) (hcoef : isValid s.regs .coefV = true) :
    Agree R (filterStep xn s) (filterStep xn (withRegs q s)) := by
  have hreads := hR.reads h
  unfold filterStep filterRegs
  rw [withRegs_regs, withRegs_draws, hreads.filterOut_eq _ xn hcoef, hreads.filterWn_eq _ xn hcoef, hreads.s0]
  exact respond_agree _ (s := nextDraw (withRegs (writeDelay _ _ s.regs) s)) (hR.writeDelay _ _ h)

theorem execBqProc_agree (rsvd : BitVec 24) (v : BitVec 32) :
    Agree R (execBqProc rsvd v s) (execBqProc rsvd v (withRegs q s)) := by
  have hreads := hR.reads h
  refine guard_agree hR h Iff.rfl fun _ =>
    guard_agree hR h (by simp only [withRegs_regs, hreads.isValid_eq]) fun hvalid => ?_
  obtain ⟨hcoef, hgain⟩ : isValid s.regs .coefV = true ∧ isValid s.regs .gainV = true := by simpa using hvalid
  rw [withRegs_regs, withRegs_draws, hreads.gainedSample_eq _ v hgain]
  exact filterStep_agree hR h _ hcoef

theorem execBqProcr_agree (rsvd : BitVec 24) (x : F64) :
    Agree R (execBqProcr rsvd x s) (execBqProcr rsvd x (withRegs q s)) := by
  have hreads := hR.reads h
  refine guard_agree hR h Iff.rfl fun _ => guard_agree hR h Iff.rfl fun _ =>
    guard_agree hR h (by simp only [withRegs_regs, hreads.isValid_eq]) fun hcoef => ?_
  exact filterStep_agree hR h x (by simpa using hcoef)

theorem execAdNib_agree (rsvd : BitVec 20) (n : Nibble) :
    Agree R (execAdNib rsvd n s) (execAdNib rsvd n (withRegs q s)) := by
  refine guard_agree hR h Iff.rfl fun _ => ?_
  rw [withRegs_regs, (hR.reads h).nibbleSample_eq]
  exact respond_agree _ (s := withRegs (nibbleRegs s.stepTable n s.regs) s) (nibbleRegs_related hR h _ n)

theorem execAdByte_agree (rsvd : BitVec 16) (b : Byte) :
    Agree R (execAdByte rsvd b s) (execAdByte rsvd b (withRegs q s)) := by
  refine guard_agree hR h Iff.rfl fun _ => ?_
  have hhigh := nibbleRegs_related hR h s.stepTable (highNibble b)
  simp only [withRegs_regs, withRegs_stepTable, (hR.reads h).nibbleSample_eq, (hR.reads hhigh).nibbleSample_eq]
  exact respond_agree _ (s := withRegs (nibbleRegs s.stepTable (lowNibble b) _) s)
    (nibbleRegs_related hR hhigh _ (lowNibble b))

/-- From related registers every command gives the same response and leaves related registers; REG_RD ERRLOG does
if ERRLOG is the same. -/
theorem exec_agree (i : Instr) (hread : ∀ rsvd, i = .regRd 0x1E rsvd → q.errlog = s.regs.errlog) :
    Agree R (exec i s) (exec i (withRegs q s)) := by
  cases i with
  | nop rsvd => exact guard_agree hR h Iff.rfl fun _ => respond_agree _ h
  | adInit rsvd =>
    exact guard_agree hR h Iff.rfl fun _ =>
      respond_agree _ (s := withRegs (writeAdpcm 0 0 s.regs) s) (hR.writeAdpcm 0 0 h)
  | adNib rsvd n => exact execAdNib_agree hR h rsvd n
  | adByte rsvd b => exact execAdByte_agree hR h rsvd b
  | regWr rsel rsvd w => exact execRegWr_agree hR h rsel rsvd w
  | regRd rsel rsvd => exact execRegRd_agree hR h rsel rsvd fun hrsel => hread rsvd (by rw [hrsel])
  | bqCalc rsvd => exact execBqCalc_agree hR h rsvd
  | gainCalc rsvd => exact execGainCalc_agree hR h rsvd
  | bqClr rsvd =>
    exact guard_agree hR h Iff.rfl fun _ =>
      respond_agree _ (s := withRegs (writeDelay posZero posZero s.regs) s) (hR.writeDelay _ _ h)
  | bqProc rsvd v => exact execBqProc_agree hR h rsvd v
  | bqProcr rsvd x => exact execBqProcr_agree hR h rsvd x
  | reset rsvd => exact guard_agree hR h Iff.rfl fun _ => respond_agree _ (s := resetRegs s) hR.reset

end twoRuns

/-! ### Any other ERRLOG (R38) -/

/-- The registers with another ERRLOG. -/
def withErrlog (e : Word64) (r : Regs) : Regs := { r with errlog := e }

theorem writeParam_withErrlog (p : Param) (w : Word64) (e : Word64) (r : Regs) :
    writeParam p w (withErrlog e r) = withErrlog e (writeParam p w r) := by cases p <;> rfl

/-- ERRLOG apart, the register files are equal. -/
def SameButErrlog (r q : Regs) : Prop := ∃ e, q = withErrlog e r

theorem sameReads_withErrlog (e : Word64) (r : Regs) : SameReads r (withErrlog e r) :=
  ⟨rfl, rfl, rfl, rfl, rfl, rfl, fun _ => rfl, fun _ => rfl, fun _ => rfl, fun _ => rfl, fun _ => rfl, fun _ => rfl⟩

theorem sameButErrlog_keptByWrites : KeptByWrites SameButErrlog where
  reads := by rintro r _ ⟨e, rfl⟩; exact sameReads_withErrlog e r
  logError k := by rintro ⟨e, rfl⟩; exact ⟨errlogSet e k, rfl⟩
  writeAdpcm p i := by rintro ⟨e, rfl⟩; exact ⟨e, rfl⟩
  writeParam p w := by rintro ⟨e, rfl⟩; exact ⟨e, writeParam_withErrlog p w e _⟩
  writeCoeffs c := by rintro ⟨e, rfl⟩; exact ⟨e, rfl⟩
  writeGain g := by rintro ⟨e, rfl⟩; exact ⟨e, rfl⟩
  writeDelay u v := by rintro ⟨e, rfl⟩; exact ⟨e, rfl⟩
  reset := ⟨0, rfl⟩

/-- Settles O20: the two runs are compared by `exec_agree`, ERRLOG set apart. -/
theorem noComputationDependsOnErrlog : Obligations.NoComputationDependsOnErrlog := by
  intro i s e hi
  obtain ⟨u, _, hu, hu', e', rfl⟩ := exec_agree sameButErrlog_keptByWrites (s := s) ⟨e, rfl⟩ i
    fun rsvd h => absurd h (hi rsvd)
  obtain ⟨r, x, d, hrxd⟩ := exec_cases i s
  obtain rfl : u = _ := by simpa [hu] using hrxd
  exact ⟨r, x, d, e', hu, hu'⟩

/-! ### Any other content of unwritten registers (R40) -/

theorem signExtend_injective {v w : BitVec 16} (h : v.signExtend 64 = w.signExtend 64) : v = w := by
  have := congrArg BitVec.toInt h
  rwa [BitVec.toInt_signExtend_of_le (by decide), BitVec.toInt_signExtend_of_le (by decide), BitVec.toInt_inj] at this

theorem zeroExtend_injective {n : Nat} (hn : n ≤ 64) {v w : BitVec n} (h : v.zeroExtend 64 = w.zeroExtend 64) :
    v = w := by
  have := congrArg (BitVec.setWidth n) h
  simpa [BitVec.setWidth_setWidth_of_le, hn] using this

theorem sameReads_of_sameVisible {r q : Regs} (h : sameVisible r q) : SameReads r q where
  pred := (signExtend_injective (h .pred rfl)).symm
  sidx := (zeroExtend_injective (by decide) (h .sidx rfl)).symm
  algo := (h .algo rfl).symm
  s0 := (h .s0 rfl).symm
  s1 := (h .s1 rfl).symm
  valid := (h .valid rfl).symm
  cutoff hv := (h .cutoff (by simpa [isUnwritten, coveredBy] using hv)).symm
  qreg hv := (h .qreg (by simpa [isUnwritten, coveredBy] using hv)).symm
  srate hv := (zeroExtend_injective (by decide) (h .srate (by simpa [isUnwritten, coveredBy] using hv))).symm
  gainDb hv := (h .gainDb (by simpa [isUnwritten, coveredBy] using hv)).symm
  coeffs hv := by
    have hx : ∀ x, coveredBy x = some .coefV → portValue q x = portValue r x := fun x hx =>
      (h x (by simp [isUnwritten, hx, hv])).symm
    exact Coeffs.mk.injEq .. ▸ ⟨hx .a0 rfl, hx .a1 rfl, hx .a2 rfl, hx .b1 rfl, hx .b2 rfl, hx .c0 rfl, hx .d0 rfl⟩
  gainLin hv := (h .gainLin (by simpa [isUnwritten, coveredBy] using hv)).symm

/-- A write keeps `sameVisible` if each register shows the same in both files afterwards, or was written in neither and
holds no value that it did not hold before. -/
theorem sameVisible_of_write {r q r' q' : Regs} (h : sameVisible r q)
    (hwrite : ∀ x, portValue r' x = portValue q' x ∨ (portValue r' x = portValue r x ∧ portValue q' x = portValue q x ∧
      (isUnwritten r' x = false → isUnwritten r x = false))) : sameVisible r' q' := by
  intro x hx
  obtain hsame | ⟨hr, hq, hold⟩ := hwrite x
  · exact hsame
  · rw [hr, hq, h x (hold hx)]

/-- The register a parameter write names shows the value written, whatever it held. -/
theorem portValue_writeParam_of_eq {p : Param} {x : Reg} (hx : paramOf x = some p) (w : Word64) (r q : Regs) :
    portValue (writeParam p w r) x = portValue (writeParam p w q) x := by
  cases x <;> cases hx <;> rfl

theorem portValue_writeParam_of_ne {p : Param} {x : Reg} (hx : paramOf x ≠ some p) (hvalid : x ≠ .valid) (w : Word64)
    (r : Regs) : portValue (writeParam p w r) x = portValue r x := by
  cases x <;> simp_all [portValue, paramOf, eq_comm]

/-- A parameter write gives no other register a value. -/
theorem isUnwritten_of_writeParam {p : Param} {x : Reg} (hx : paramOf x ≠ some p) {w : Word64} {r : Regs}
    (h : isUnwritten (writeParam p w r) x = false) : isUnwritten r x = false := by
  cases x <;> simp_all [isUnwritten, coveredBy, paramOf, isValid_writeParam, eq_comm (a := p)]

theorem sameVisible_writeParam {r q : Regs} (h : sameVisible r q) (p : Param) (w : Word64) :
    sameVisible (writeParam p w r) (writeParam p w q) := by
  refine sameVisible_of_write h fun x => ?_
  by_cases hp : paramOf x = some p
  · exact .inl (portValue_writeParam_of_eq hp w r q)
  by_cases hx : x = .valid
  · subst hx
    have hvalid : r.valid = q.valid := h .valid rfl
    simp [portValue, hvalid]
  · exact .inr ⟨portValue_writeParam_of_ne hp hx w r, portValue_writeParam_of_ne hp hx w q,
      isUnwritten_of_writeParam hp⟩

theorem sameVisible_keptByWrites : KeptByWrites sameVisible where
  reads := sameReads_of_sameVisible
  logError {r q} k h := sameVisible_of_write h fun x => by
    have herr : r.errlog = q.errlog := h .errlog rfl
    cases x <;> simp_all [portValue, isUnwritten, coveredBy]
  writeAdpcm p i h := sameVisible_of_write h fun x => by
    cases x <;> simp [portValue, isUnwritten, coveredBy]
  writeParam p w h := sameVisible_writeParam h p w
  writeCoeffs c h := sameVisible_of_write h fun x => by
    have hvalid := (sameReads_of_sameVisible h).valid
    cases x <;> simp [portValue, isUnwritten, coveredBy, hvalid]
  writeGain g h := sameVisible_of_write h fun x => by
    have hvalid := (sameReads_of_sameVisible h).valid
    cases x <;> simp [portValue, isUnwritten, coveredBy, hvalid]
  writeDelay u v h := sameVisible_of_write h fun x => by
    cases x <;> simp [portValue, isUnwritten, coveredBy]
  reset := fun _ _ => rfl

/-- A transaction's two runs: its command's, or the same refusal of its OPC. -/
theorem transact_agree {s : State} {q : Regs} (h : sameVisible s.regs q) (t : Transaction) :
    Agree sameVisible (transact t s) (transact t (withRegs q s)) := by
  unfold transact
  split
  · exact exec_agree sameVisible_keptByWrites h _ fun _ _ => (h .errlog rfl).symm
  · exact raiseStatus_agree sameVisible_keptByWrites h _

/-- A step's two runs: idle, a reset, which leaves both register files the same, or one transaction. -/
theorem step_agree {s : State} {q : Regs} (h : sameVisible s.regs q) :
    Agree sameVisible (step s) (step (withRegs q s)) := by
  cases hp : s.pending with
  | nil => exact ⟨s, q, step_idle hp, step_idle hp, h⟩
  | cons e rest =>
    have hstep' : step (withRegs q s) = handleEvent e (withRegs q (takeEvent e rest s)) := step_event hp
    rw [step_event hp, hstep']
    cases e with
    | rst c => exact ⟨_, regsReset, rfl, rfl, fun _ _ => rfl⟩
    | command t => exact transact_agree (s := takeEvent (.command t) rest s) h t

/-- Settles O53: the two runs of a step are compared by `step_agree`. -/
theorem unwrittenContentIsNeverObservable : Obligations.UnwrittenContentIsNeverObservable :=
  fun _ _ h => step_agree h

end Sys2Proof.Machine
end

section
/-! SUPPORT. ADPCM arithmetic in 16-bit two's complement (spec/41_adpcm.md R112 to R120): every quantity of
DECODE_NIBBLE fits, so the words follow the integers (`decode16_eq`). -/

namespace Sys2Proof.Machine

open Claims

/-! ### Nibbles (R112, R120) -/

theorem nibbleMagnitude_eq (n : Nibble) : nibbleMagnitude n = (n.toNat % 8 : Nat) := by
  simp [nibbleMagnitude]

theorem idxAdjust_eq (n : Nibble) : idxAdjust n = idxList.getD n.toNat 0 := by
  revert n; decide

theorem idxAdjust_bounds (n : Nibble) : -1 ≤ idxAdjust n ∧ idxAdjust n ≤ 8 := by
  revert n; decide

/-- Settles O32: of a byte shifted by 4 the copies of the sign bit fill bits 4 to 7 only. -/
theorem signedShiftGivesTheSameNibble : Obligations.SignedShiftGivesTheSameNibble := by
  refine ⟨fun b => ?_, fun n => ⟨idxAdjust_eq n, ?_⟩⟩
  · ext i hi
    have hbit : 4 + i < 8 := by omega
    simp [highNibble, BitVec.getLsbD_sshiftRight, hbit]
    omega
  · revert n; decide

/-! ### Quantities of R113 and their bounds (R119) -/

/-- The entries of an admissible table grow from 16 to 1552 (R26). -/
theorem tableAdmissible_bounds {t : Vector Nat 49} (ht : tableAdmissible t) {i ss : Nat} (hss : t[i]? = some ss) :
    16 ≤ ss ∧ ss ≤ 1552 := by
  obtain ⟨hfirst, hlast, hgrow⟩ := ht
  have hmono : StrictMono fun i : Fin 49 => t[i.val] := Fin.strictMono_iff_lt_succ.2 hgrow
  obtain ⟨hi, rfl⟩ := Vector.getElem?_eq_some_iff.1 hss
  constructor
  · rw [← hfirst]
    exact hmono.monotone (Fin.zero_le ⟨i, hi⟩)
  · rw [← hlast]
    exact hmono.monotone (Fin.le_last ⟨i, hi⟩)

theorem stepSize_eq {t : Vector Nat 49} {i : BitVec 16} {ss : Nat} (hi : 0 ≤ i.toInt) (hss : t[i.toNat]? = some ss) :
    stepSize t i.toInt = ss := by
  have hnat : i.toInt.toNat = i.toNat :=
    BitVec.toNat_toInt_of_msb i (by rw [BitVec.msb_eq_toInt, decide_eq_false (not_lt.2 hi)])
  obtain ⟨hlt, rfl⟩ := Vector.getElem?_eq_some_iff.1 hss
  rw [stepSize, dif_pos (by rwa [hnat]), if_pos hi]
  simp only [hnat]

/-- The product of R116 fits in 15 bits. -/
theorem diffProduct_bounds {n : Nibble} {ss : Nat} (h : 16 ≤ ss ∧ ss ≤ 1552) :
    16 ≤ (2 * (n.toNat % 8) + 1) * ss ∧ (2 * (n.toNat % 8) + 1) * ss ≤ 23280 := by
  have hm : 2 * (n.toNat % 8) + 1 ≤ 15 := by omega
  exact ⟨h.1.trans (Nat.le_mul_of_pos_left ss (by omega)), Nat.mul_le_mul hm h.2⟩

theorem adpcmDiff_eq (n : Nibble) (ss : Nat) :
    adpcmDiff (nibbleMagnitude n) ss = ((2 * (n.toNat % 8) + 1) * ss / 8 : Nat) := by
  rw [adpcmDiff, nibbleMagnitude_eq, Int.shiftRight_eq_div_pow]
  push_cast
  rfl

/-! ### The words follow the integers -/

theorem clamp16_ofInt {v lo hi : Int} (hv : -2 ^ 15 ≤ v ∧ v < 2 ^ 15) (hlo : -2 ^ 15 ≤ lo ∧ lo < 2 ^ 15)
    (hhi : -2 ^ 15 ≤ hi ∧ hi < 2 ^ 15) :
    clamp16 (BitVec.ofInt 16 v) (BitVec.ofInt 16 lo) (BitVec.ofInt 16 hi) = BitVec.ofInt 16 (clampInt v lo hi) := by
  have toInt : ∀ x : Int, -2 ^ 15 ≤ x ∧ x < 2 ^ 15 → (BitVec.ofInt 16 x).toInt = x := fun x hx =>
    BitVec.toInt_ofInt_eq_self (by decide) hx.1 hx.2
  unfold clamp16 clampInt
  simp only [BitVec.slt_eq_decide, toInt v hv, toInt lo hlo, toInt hi hhi, decide_eq_true_eq]
  split
  · rfl
  · split <;> rfl

theorem diff16_eq {n : Nibble} {ss : Nat} (h : (2 * (n.toNat % 8) + 1) * ss < 2 ^ 15) :
    ((2 * (n.extractLsb' 0 3).zeroExtend 16 + 1) * BitVec.ofNat 16 ss).sshiftRight 3 =
      BitVec.ofInt 16 ((2 * (n.toNat % 8) + 1) * ss / 8 : Nat) := by
  have hm : (n.extractLsb' 0 3).zeroExtend 16 = BitVec.ofNat 16 (n.toNat % 8) :=
    BitVec.eq_of_toNat_eq (by simp)
  have hprod : (2 * BitVec.ofNat 16 (n.toNat % 8) + 1) * BitVec.ofNat 16 ss =
      BitVec.ofNat 16 ((2 * (n.toNat % 8) + 1) * ss) := by
    simp only [BitVec.ofNat_mul, BitVec.ofNat_add]
    rfl
  rw [hm, hprod]
  generalize (2 * (n.toNat % 8) + 1) * ss = prod at h ⊢
  apply BitVec.eq_of_toInt_eq
  have hword : (BitVec.ofNat 16 prod).toInt = prod := by
    rw [← BitVec.ofInt_natCast, BitVec.toInt_ofInt_eq_self (by decide) (by omega) (by omega)]
  rw [BitVec.toInt_sshiftRight, hword, BitVec.toInt_ofInt_eq_self (by decide) (by omega) (by omega),
    Int.shiftRight_eq_div_pow]
  rfl

theorem ofInt_sub {w : Nat} (x y : Int) : BitVec.ofInt w (x - y) = BitVec.ofInt w x - BitVec.ofInt w y := by
  rw [sub_eq_add_neg, BitVec.ofInt_add, BitVec.ofInt_neg, BitVec.sub_eq_add_neg]

/-- An output sample is the predictor shifted left by 4 (R118). -/
theorem ofInt_shiftLeft_four (p : Int) : BitVec.ofInt 16 p <<< (4 : Nat) = BitVec.ofInt 16 (p * 16) := by
  rw [BitVec.shiftLeft_eq_mul_twoPow, BitVec.ofInt_mul]
  rfl

section decode16
variable {t : Vector Nat 49} {r : Regs} {ss : Nat} (ht : tableAdmissible t) (hr : clampInv r)
  (hss : t[r.sidx.toNat]? = some ss) (n : Nibble)
include ht hr hss

/-- The bounds R119 states. -/
theorem decode_bounds : let diff : Int := ((2 * (n.toNat % 8) + 1) * ss / 8 : Nat)
    (16 ≤ (2 * (n.toNat % 8) + 1) * ss ∧ (2 * (n.toNat % 8) + 1) * ss ≤ 23280) ∧ (2 ≤ diff ∧ diff ≤ 2910) ∧
    (-4958 ≤ r.pred.toInt - diff ∧ r.pred.toInt + diff ≤ 4957) ∧
    (-1 ≤ r.sidx.toInt + idxAdjust n ∧ r.sidx.toInt + idxAdjust n ≤ 56) := by
  intro diff
  obtain ⟨hplo, hphi, hilo, hihi⟩ := hr
  have hprod := diffProduct_bounds (n := n) (tableAdmissible_bounds ht hss)
  have hdiff : 2 ≤ diff ∧ diff ≤ 2910 := by omega
  have hadj := idxAdjust_bounds n
  exact ⟨hprod, hdiff, by omega, by omega⟩

/-- R113 in 16-bit arithmetic gives the words of the exact values. -/
theorem decode16_eq : let d := decodeNibbleInt t n r.pred.toInt r.sidx.toInt
    decode16 ss n r.pred r.sidx = (BitVec.ofInt 16 d.pred, BitVec.ofInt 16 d.sidx, BitVec.ofInt 16 d.out) := by
  obtain ⟨hprod, hdiff, hsum, hidx⟩ := decode_bounds ht hr hss n
  obtain ⟨hplo, hphi, hilo, hihi⟩ := hr
  have hpred : clamp16 (if n.getLsbD 3 then r.pred - BitVec.ofInt 16 ((2 * (n.toNat % 8) + 1) * ss / 8 : Nat)
        else r.pred + BitVec.ofInt 16 ((2 * (n.toNat % 8) + 1) * ss / 8 : Nat)) (-2048) 2047 =
      BitVec.ofInt 16 (decodeNibbleInt t n r.pred.toInt r.sidx.toInt).pred := by
    simp only [decodeNibbleInt, stepSize_eq hilo hss, adpcmDiff_eq, nibbleSign]
    split
    · rw [← clamp16_ofInt (by omega) (by omega) (by omega), ofInt_sub, BitVec.ofInt_toInt]
      rfl
    · rw [← clamp16_ofInt (by omega) (by omega) (by omega), BitVec.ofInt_add, BitVec.ofInt_toInt]
      rfl
  have hsidx : clamp16 (r.sidx + BitVec.ofInt 16 (idxList.getD n.toNat 0)) 0 48 =
      BitVec.ofInt 16 (decodeNibbleInt t n r.pred.toInt r.sidx.toInt).sidx := by
    simp only [decodeNibbleInt]
    rw [← clamp16_ofInt (by omega) (by omega) (by omega), BitVec.ofInt_add, BitVec.ofInt_toInt, idxAdjust_eq]
    rfl
  intro d
  simp only [decode16, diff16_eq (show (2 * (n.toNat % 8) + 1) * ss < 2 ^ 15 by omega), hpred, hsidx,
    ofInt_shiftLeft_four]
  rfl

end decode16

/-- Settles O31: by `decode16_eq` the words are those of the exact values, which `decode_bounds` bounds. -/
theorem sixteenBitArithmeticSuffices : Obligations.SixteenBitArithmeticSuffices := by
  intro t n r ss ht hr hss
  obtain ⟨hprod, hdiff, hsum, hidx⟩ := decode_bounds ht hr hss n
  rw [idxAdjust_eq] at hidx
  refine ⟨hprod, hdiff, hsum, hidx, ?_⟩
  simp only [decode16_eq ht hr hss n]
  refine ⟨rfl, rfl, rfl, ?_⟩
  obtain ⟨⟨hplo, hphi⟩, -⟩ := decodeNibbleInt_bounds t n r.pred.toInt r.sidx.toInt
  have hout : (decodeNibbleInt t n r.pred.toInt r.sidx.toInt).out =
      (decodeNibbleInt t n r.pred.toInt r.sidx.toInt).pred * 16 := rfl
  rw [hout, BitVec.toInt_ofInt_eq_self (by decide) (by omega) (by omega)]
  omega

end Sys2Proof.Machine
end

section
/-! SUPPORT. Steps one after the other: the command a step runs, and platforms whose instances share nothing
(spec/20_memory.md R70, R71; spec/60_exceptions.md R240). -/

namespace Sys2Proof.Machine

/-! ### The command a step runs (R70) -/

/-- A transaction that decodes to a command runs it. -/
theorem transact_of_decode {t : Transaction} {i : Instr} (h : decode t = .instr i) (s : State) :
    transact t s = exec i s := by
  unfold transact; rw [h]

/-- Settles O6: the step hands the command to the port (`step_event`), which runs what it decodes to
(`transact_of_decode`). -/
theorem stepRunsTheDecodedCommand : Obligations.StepRunsTheDecodedCommand := by
  intro s t rest i hpending hdecode
  calc step s
    _ = transact t (takeEvent (.command t) rest s) := step_event hpending
    _ = exec i (takeEvent (.command t) rest s) := transact_of_decode hdecode _

/-! ### Instances that share nothing (R71, R240) -/

theorem platformStep_getElem?_self (j : Nat) (p : Platform) :
    (platformStep j p).instances[j]? = (p.instances[j]?).map afterStep :=
  List.getElem?_modify_eq ..

theorem platformStep_getElem?_of_ne {k j : Nat} (h : k ≠ j) (p : Platform) :
    (platformStep k p).instances[j]? = p.instances[j]? :=
  List.getElem?_modify_ne afterStep p.instances h

/-- Settles O54, by induction on the schedule: a step of instance `j` is one of its steps alone, and a step of any
other leaves it. -/
theorem interleavedInstancesRunAsIfAlone : Obligations.InterleavedInstancesRunAsIfAlone := by
  intro ks p j
  induction ks generalizing p with
  | nil => exact Option.map_id'.symm
  | cons k ks ih =>
    rw [runSchedule, ih]
    by_cases hk : k = j
    · subst hk
      rw [platformStep_getElem?_self, List.count_cons_self, Option.map_map]
      rfl
    · rw [platformStep_getElem?_of_ne hk, List.count_cons_of_ne hk]

end Sys2Proof.Machine
end

section
/-! SUPPORT. The command word in both directions (spec/30_encoding.md R81 to R86, R92): OPC and CMD[23:0] make up CMD,
`operandsOf` and `encode` are inverse to each other (`operandsOf_encode`, `lowField_operandsOf`), and OPC alone selects
the command (`opcodeOfByte_eq_some_iff`). -/

namespace Sys2Proof

open Machine Claims

/-! ### The slices of CMD (R81) -/

theorem opcField_append_low24 (cmd : Word32) : opcField cmd ++ cmd.extractLsb' 0 24 = cmd :=
  calc opcField cmd ++ cmd.extractLsb' 0 24
    _ = cmd.extractLsb' 0 32 := BitVec.extractLsb'_append_extractLsb'_eq_extractLsb' rfl
    _ = cmd := BitVec.extractLsb'_eq_self

theorem toNat_opcField (cmd : Word32) : (opcField cmd).toNat = cmd.toNat / 2 ^ 24 := by
  rw [opcField, BitVec.extractLsb'_toNat, Nat.shiftRight_eq_div_pow]
  omega

/-- A slice within a slice that is 0 is 0. -/
theorem extractLsb'_eq_zero_of_slice {w a m b n : Nat} {x : BitVec w} (h : x.extractLsb' a m = 0) (hlo : a ≤ b)
    (hhi : b + n ≤ a + m) : x.extractLsb' b n = 0 := by
  ext i hi
  have hbit := congrArg (fun y => y.getLsbD (b - a + i)) h
  have hlt : b - a + i < m := by omega
  have hpos : a + (b - a + i) = b + i := by omega
  simpa [hlt, hpos] using hbit

/-- The higher field of two below OPC. -/
theorem extractLsb'_append_append_middle {k m n : Nat} (o : BitVec k) (a : BitVec m) (b : BitVec n) :
    (o ++ (a ++ b)).extractLsb' n m = a :=
  (BitVec.extractLsb'_append_eq_of_add_le (by omega)).trans BitVec.extractLsb'_append_eq_left

/-- The lower field of two below OPC. -/
theorem extractLsb'_append_append_low {k m n : Nat} (o : BitVec k) (a : BitVec m) (b : BitVec n) :
    (o ++ (a ++ b)).extractLsb' 0 n = b :=
  (BitVec.extractLsb'_append_eq_of_add_le (by omega)).trans BitVec.extractLsb'_append_eq_right

/-! ### Decoding after encoding -/

/-- WDATA[31:0] of BQ_PROC's text form is its operand (R86, R92). -/
theorem extractLsb'_signExtend_low (v : BitVec 32) : (v.signExtend 64).extractLsb' 0 32 = v := by
  ext i hi
  have hi' : i < 64 := by omega
  simp [BitVec.getElem_signExtend, hi, hi']

/-- An encoded command shows each of its operands in its field (R85, R86). -/
theorem operandsOf_encode (i : Instr) : operandsOf (opcodeOf i) (encode i) = i := by
  cases i with
  | nop rsvd | adInit rsvd | bqCalc rsvd | gainCalc rsvd | bqClr rsvd | reset rsvd =>
    exact congrArg _ BitVec.extractLsb'_append_eq_right
  | adNib rsvd n =>
    exact congrArg₂ Instr.adNib (extractLsb'_append_append_middle ..) (extractLsb'_append_append_low ..)
  | adByte rsvd b =>
    exact congrArg₂ Instr.adByte (extractLsb'_append_append_middle ..) (extractLsb'_append_append_low ..)
  | regWr rsel rsvd w =>
    exact congrArg₂ (Instr.regWr · · w) (extractLsb'_append_append_middle ..) (extractLsb'_append_append_low ..)
  | regRd rsel rsvd =>
    exact congrArg₂ Instr.regRd (extractLsb'_append_append_middle ..) (extractLsb'_append_append_low ..)
  | bqProc rsvd v =>
    exact congrArg₂ Instr.bqProc BitVec.extractLsb'_append_eq_right (extractLsb'_signExtend_low v)
  | bqProcr rsvd x => exact congrArg (Instr.bqProcr · x) BitVec.extractLsb'_append_eq_right

@[simp] theorem decode_encode (i : Instr) : decode (encode i) = .instr i :=
  decode_eq_instr_iff.2 ⟨opcodeOf i, by simp, (operandsOf_encode i).symm⟩

/-- Settles O1: the OPC of an encoded command is its own, and its fields show its operands (`operandsOf_encode`). -/
theorem decodeOfEncodeGivesCommandBack : Obligations.DecodeOfEncodeGivesCommandBack := decode_encode

/-! ### Encoding after decoding -/

/-- The operands a command takes from CMD make up CMD[23:0] (R85). -/
theorem lowField_operandsOf (op : Opcode) (t : Transaction) :
    lowField (operandsOf op t) = t.cmd.extractLsb' 0 24 := by
  cases op with
  | nop | adInit | bqCalc | gainCalc | bqClr | bqProc | bqProcr | reset => rfl
  | adNib | adByte | regWr | regRd => exact BitVec.extractLsb'_append_extractLsb'_eq_extractLsb' rfl

/-- Settles O2: OPC is the command's and CMD[23:0] its operands (`lowField_operandsOf`); WDATA is the operand of REG_WR
and BQ_PROCR, its lower half that of BQ_PROC. -/
theorem decodingDropsNoOperandBit : Obligations.DecodingDropsNoOperandBit := by
  intro t i h
  obtain ⟨op, hop, rfl⟩ := decode_eq_instr_iff.1 h
  rw [opcodeOf_operandsOf]
  refine ⟨?_, ?_, ?_⟩
  · calc (encode (operandsOf op t)).cmd
      _ = byteOfOpcode op ++ t.cmd.extractLsb' 0 24 := by rw [encode, opcodeOf_operandsOf, lowField_operandsOf]
      _ = opcField t.cmd ++ t.cmd.extractLsb' 0 24 := by rw [byteOfOpcode_of_opcodeOfByte hop]
      _ = t.cmd := opcField_append_low24 t.cmd
  · rintro (rfl | rfl) <;> rfl
  · rintro rfl
    exact extractLsb'_signExtend_low _

/-! ### The opcode map (R83, R88) -/

theorem opcodeOfByte_eq_some_iff {b : BitVec 8} {op : Opcode} : opcodeOfByte b = some op ↔ b = byteOfOpcode op :=
  ⟨fun h => (byteOfOpcode_of_opcodeOfByte h).symm, fun h => h ▸ opcodeOfByte_byteOfOpcode op⟩

theorem mem_opcodeMap_iff {b : BitVec 8} {op : Opcode} : (b, op) ∈ opcodeMap ↔ b = byteOfOpcode op := by
  cases op <;> simp [opcodeMap, byteOfOpcode]

/-- The map's rows are the OPC values that select a command. -/
theorem mem_opcodeMap_iff_opcodeOfByte {cmd : Word32} {op : Opcode} :
    (BitVec.ofNat 8 (cmd.toNat / 2 ^ 24), op) ∈ opcodeMap ↔ opcodeOfByte (opcField cmd) = some op := by
  rw [mem_opcodeMap_iff, opcodeOfByte_eq_some_iff, opcField_eq_ofNat]

/-- Settles O3: the decoded command has the operation code of OPC, whose bytes are the map's rows. -/
theorem opcAloneSelectsTheCommand : Obligations.OpcAloneSelectsTheCommand := by
  intro t op
  rw [mem_opcodeMap_iff_opcodeOfByte]
  constructor
  · rintro ⟨i, hi, rfl⟩
    obtain ⟨op, hop, rfl⟩ := decode_eq_instr_iff.1 hi
    rw [hop, opcodeOf_operandsOf]
  · intro hop
    exact ⟨operandsOf op t, decode_eq_instr_iff.2 ⟨op, hop, rfl⟩, opcodeOf_operandsOf op t⟩

/-- An illegal OPC selects no command (R88). -/
theorem opcodeOfByte_of_illegalOpc {cmd : Word32} (h : illegalOpc (cmd.toNat / 2 ^ 24)) :
    opcodeOfByte (opcField cmd) = none := by
  refine Option.eq_none_iff_forall_ne_some.2 fun op hop => ?_
  rw [← toNat_opcField, ← byteOfOpcode_of_opcodeOfByte hop] at h
  revert h
  cases op <;> simp [illegalOpc, byteOfOpcode]

/-! ### Words written out (R82, R83, R92) -/

/-- Two fields side by side, as a number. -/
theorem toNat_append_eq {m n : Nat} (a : BitVec m) (b : BitVec n) : (a ++ b).toNat = a.toNat * 2 ^ n + b.toNat := by
  rw [BitVec.toNat_append, ← Nat.shiftLeft_add_eq_or_of_lt b.isLt, Nat.shiftLeft_eq]

/-- CMD as a number: OPC * 2^24 plus CMD[23:0]. -/
theorem encode_eq (i : Instr) : encode i =
    ⟨BitVec.ofNat 32 ((byteOfOpcode (opcodeOf i)).toNat * 2 ^ 24 + (lowField i).toNat), wdataField i⟩ := by
  rw [← toNat_append_eq, BitVec.ofNat_toNat, BitVec.setWidth_eq, encode]

theorem toNat_lowField_adNib (rsvd : BitVec 20) (n : Nibble) :
    (lowField (.adNib rsvd n)).toNat = rsvd.toNat * 2 ^ 4 + n.toNat := toNat_append_eq rsvd n

theorem toNat_lowField_adByte (rsvd : BitVec 16) (b : Byte) :
    (lowField (.adByte rsvd b)).toNat = rsvd.toNat * 2 ^ 8 + b.toNat := toNat_append_eq rsvd b

theorem toNat_lowField_regWr (rsel : BitVec 8) (rsvd : BitVec 16) (w : Word64) :
    (lowField (.regWr rsel rsvd w)).toNat = rsel.toNat * 2 ^ 16 + rsvd.toNat := toNat_append_eq rsel rsvd

theorem toNat_lowField_regRd (rsel : BitVec 8) (rsvd : BitVec 16) :
    (lowField (.regRd rsel rsvd)).toNat = rsel.toNat * 2 ^ 16 + rsvd.toNat := toNat_append_eq rsel rsvd

/-- Settles O4: each CMD is OPC * 2^24 plus the operand at its place in CMD[23:0] (`encode_eq`). -/
theorem textFormsHaveTheirWords : Obligations.TextFormsHaveTheirWords := by
  refine ⟨rfl, rfl, fun n => ?_, fun b => ?_, fun rsel w => ⟨?_, ?_⟩, rfl, rfl, rfl, fun v => ?_, fun x => ?_, rfl⟩
  · simp [encode_eq, opcodeOf, byteOfOpcode, wdataField, toNat_lowField_adNib]
  · simp [encode_eq, opcodeOf, byteOfOpcode, wdataField, toNat_lowField_adByte]
  · simp [encode_eq, opcodeOf, byteOfOpcode, wdataField, toNat_lowField_regWr]
  · simp [encode_eq, opcodeOf, byteOfOpcode, wdataField, toNat_lowField_regRd]
  · simp [encode_eq, opcodeOf, byteOfOpcode, wdataField, lowField, BitVec.signExtend]
  · simp [encode_eq, opcodeOf, byteOfOpcode, wdataField, lowField]

/-- Settles O5: the decoder evaluated on the six words. -/
theorem wordsOfEachFormatDecode : Obligations.WordsOfEachFormatDecode := ⟨rfl, rfl, rfl, rfl, rfl, rfl⟩

end Sys2Proof
end

section
/-! SUPPORT. What a transaction does before its command runs (spec/30_encoding.md R84, R87 to R90): the refusals that OPC
and the other fields of CMD decide alone, the WDATA bits that no operand holds, and the word of a table row placed
next. -/

namespace Sys2Proof.Machine

open Claims

theorem raiseStatus_failsWith (k : Status) (s : State) : failsWith (raiseStatus k s) s (statusCode k).toNat := by
  cases k <;> rfl

/-! ### Illegal opcodes (R88) -/

/-- An OPC that selects no command raises ILLEGAL_OPCODE. -/
theorem transact_of_opcodeOfByte_eq_none {t : Transaction} (h : opcodeOfByte (opcField t.cmd) = none) (s : State) :
    transact t s = raiseStatus .illegalOpcode s := by
  have hdecode : decode t = .illegalOpcode (opcField t.cmd) := by rw [decode, h]
  rw [transact, hdecode]

/-- Settles O9: an illegal OPC selects no command (`opcodeOfByte_of_illegalOpc`). -/
theorem illegalOpcodeRaisesStatusOne : Obligations.IllegalOpcodeRaisesStatusOne := by
  intro t s h
  rw [transact_of_opcodeOfByte_eq_none (opcodeOfByte_of_illegalOpc h)]
  exact raiseStatus_failsWith .illegalOpcode s

/-! ### Reserved fields (R82, R89) -/

/-- Every command first checks the slice of CMD its format requires to be 0. -/
theorem exec_of_reservedZero_eq_false {i : Instr} (h : reservedZero i = false) (s : State) :
    exec i s = raiseStatus .reservedNonzero s := by
  cases i <;> exact if_pos (beq_eq_false_iff_ne.1 h)

/-- The slice of CMD that a command's format requires to be 0, as its lowest bit and its length (R82). -/
def reservedSlice : Opcode → Nat × Nat
  | .nop | .adInit | .bqCalc | .gainCalc | .bqClr | .bqProc | .bqProcr | .reset => (0, 24)
  | .adNib => (4, 20)
  | .adByte => (8, 16)
  | .regWr | .regRd => (0, 16)

theorem reservedZero_operandsOf_iff {op : Opcode} {t : Transaction} : reservedZero (operandsOf op t) = true ↔
    t.cmd.extractLsb' (reservedSlice op).1 (reservedSlice op).2 = 0 := by
  cases op <;> exact beq_iff_eq

/-- A slice of CMD within the reserved one is 0 if the command is well formed. -/
theorem extractLsb'_eq_zero_of_reservedZero {op : Opcode} {t : Transaction} (h : reservedZero (operandsOf op t) = true)
    {start len : Nat} (hin : (reservedSlice op).1 ≤ start ∧ start + len ≤ (reservedSlice op).1 + (reservedSlice op).2) :
    t.cmd.extractLsb' start len = 0 :=
  extractLsb'_eq_zero_of_slice (reservedZero_operandsOf_iff.1 h) hin.1 hin.2

/-- Settles O10: each of R89's nonzero fields is in the command's reserved slice
(`extractLsb'_eq_zero_of_reservedZero`), which the command checks first (`exec_of_reservedZero_eq_false`). -/
theorem nonzeroReservedFieldRaisesStatusTwo : Obligations.NonzeroReservedFieldRaisesStatusTwo := by
  intro t s op hop hnonzero
  have hdecode : decode t = .instr (operandsOf op t) :=
    decode_eq_instr_iff.2 ⟨op, mem_opcodeMap_iff_opcodeOfByte.1 hop, rfl⟩
  have hreserved : reservedZero (operandsOf op t) = false := by
    by_contra hzero
    have hslice := @extractLsb'_eq_zero_of_reservedZero op t (Bool.of_not_eq_false hzero)
    obtain h | ⟨hwr, hrd, h⟩ | ⟨hadNib, hadByte, h⟩ | ⟨rfl, h⟩ := hnonzero
    · exact h (hslice (by cases op <;> simp [reservedSlice]))
    · exact h (hslice (by cases op <;> simp_all [reservedSlice]))
    · exact h (hslice (by cases op <;> simp_all [reservedSlice]))
    · exact h (hslice (by decide))
  rw [transact_of_decode hdecode, exec_of_reservedZero_eq_false hreserved]
  exact raiseStatus_failsWith .reservedNonzero s

/-! ### Reserved register numbers (R84, R90) -/

theorem regOfRsel_of_reservedRsel {rsel : BitVec 8} (h : reservedRsel rsel.toNat) : regOfRsel rsel = none := by
  refine Option.eq_none_iff_forall_ne_some.2 fun x hx => ?_
  rw [← rselOfReg_of_regOfRsel hx] at h
  revert h
  cases x <;> simp [reservedRsel, rselOfReg]

theorem exec_regWr_of_unlisted {rsel : BitVec 8} (h : regOfRsel rsel = none) (w : Word64) (s : State) :
    exec (.regWr rsel 0 w) s = raiseStatus .illegalReg s := by
  simp [exec, execRegWr, h]

theorem exec_regRd_of_unlisted {rsel : BitVec 8} (h : regOfRsel rsel = none) (s : State) :
    exec (.regRd rsel 0) s = raiseStatus .illegalReg s := by
  simp [exec, execRegRd, h]

/-- Settles O11: a reserved RSEL names no register (`regOfRsel_of_reservedRsel`), which both commands check. -/
theorem reservedRegisterRaisesStatusThree : Obligations.ReservedRegisterRaisesStatusThree := by
  intro rsel w s h
  have hreg := regOfRsel_of_reservedRsel h
  rw [exec_regWr_of_unlisted hreg, exec_regRd_of_unlisted hreg]
  exact ⟨raiseStatus_failsWith .illegalReg s, raiseStatus_failsWith .illegalReg s⟩

/-! ### Ignored WDATA bits (R87) -/

/-- A transaction depends on WDATA through the operands of the command that OPC selects only. -/
theorem transact_congr_wdata {cmd : Word32} {w w' : Word64}
    (h : ∀ op, opcodeOfByte (opcField cmd) = some op → operandsOf op ⟨cmd, w⟩ = operandsOf op ⟨cmd, w'⟩) (s : State) :
    transact ⟨cmd, w⟩ s = transact ⟨cmd, w'⟩ s := by
  cases hop : opcodeOfByte (opcField cmd) with
  | none =>
    rw [transact_of_opcodeOfByte_eq_none (t := ⟨cmd, w⟩) hop, transact_of_opcodeOfByte_eq_none (t := ⟨cmd, w'⟩) hop]
  | some op =>
    have hdecode : decode ⟨cmd, w⟩ = .instr (operandsOf op ⟨cmd, w⟩) := decode_eq_instr_iff.2 ⟨op, hop, rfl⟩
    have hdecode' : decode ⟨cmd, w'⟩ = .instr (operandsOf op ⟨cmd, w⟩) := decode_eq_instr_iff.2 ⟨op, hop, h op hop⟩
    rw [transact_of_decode hdecode, transact_of_decode hdecode']

/-- Settles O12: REG_WR, BQ_PROCR and BQ_PROC alone take operands from WDATA, BQ_PROC from its lower half. -/
theorem ignoredDataBitsHaveNoEffect : Obligations.IgnoredDataBitsHaveNoEffect := by
  intro cmd w w' s
  rw [← toNat_opcField]
  constructor
  · intro hopc
    refine transact_congr_wdata (fun op hop => ?_) s
    rw [← byteOfOpcode_of_opcodeOfByte hop] at hopc
    cases op with
    | regWr | bqProc | bqProcr => exact absurd hopc (by decide)
    | _ => rfl
  · intro hopc hlow
    refine transact_congr_wdata (fun op hop => ?_) s
    rw [← byteOfOpcode_of_opcodeOfByte hop] at hopc
    cases op with
    | bqProc => exact congrArg (Instr.bqProc _) hlow
    | _ => exact absurd hopc (by decide)

/-! ### A table row's word placed next (R80) -/

theorem decode_of_decodeTableWord {nbits w : Nat} {i : Instr} (h : decodeTableWord nbits w = some i) :
    decode (transactionOfTableWord nbits w) = .instr i := by
  unfold decodeTableWord at h
  split at h
  · next hdecode => rw [hdecode, Option.some.inj h]
  · cases h

/-- Settles O8: the placed word is the head of the host's list, and the step runs what it decodes to (O6). -/
theorem placedWordRunsNext : Obligations.PlacedWordRunsNext := fun s nbits w i h =>
  stepRunsTheDecodedCommand (s.withFetchWord nbits w) _ s.pending i rfl (decode_of_decodeTableWord h)

end Sys2Proof.Machine
end

section
/-! SUPPORT. BQ_SETUP (spec/30_encoding.md R93, spec/70_reset_and_hazards.md R263): what each of its commands leaves when
it succeeds, and the registers after all seven (`bqSetup_run`). -/

namespace Sys2Proof.Machine

open Claims

/-! ### Commands that succeed -/

/-- The command succeeds with RDATA 0 in state `u`, with the registers `r`. -/
structure Succeeds (i : Instr) (s : State) (r : Regs) (u : State) : Prop where
  next : exec i s = .next u
  regs : u.regs = r
  responses : u.responses = ⟨0, 0⟩ :: s.responses

/-- `REG_WR <reg>, <value>` with a legal value (R201). -/
theorem regWrite_succeeds {x : Reg} {p : Param} {w : Word64} (hx : paramOf x = some p) (hw : legalValue p w = true)
    (s : State) : ∃ u, Succeeds (regWrite x w) s (writeParam p w s.regs) u :=
  ⟨reply ⟨0, 0⟩ (withRegs (writeParam p w s.regs) s), by simp [exec, regWrite, execRegWr, hx, hw, respond], rfl, rfl⟩

/-- GAIN_CALC with GAIN_DB written (R161). -/
theorem gainCalc_succeeds {s : State} (hgdb : isValid s.regs .gdbW = true) :
    ∃ u, Succeeds (.gainCalc 0) s (writeGain (gainOf (nanBits s.draws) s.regs) s.regs) u :=
  ⟨reply ⟨0, 0⟩ (nextDraw (withRegs (writeGain _ s.regs) s)), by simp [exec, execGainCalc, hgdb, respond], rfl, rfl⟩

/-- BQ_CALC with its parameters written and ALGO 3 (R160). -/
theorem bqCalc_succeeds {s : State} (hcutoff : isValid s.regs .cutoffW = true) (hq : isValid s.regs .qW = true)
    (hsrate : isValid s.regs .srateW = true) (halgo : s.regs.algo = 3) :
    ∃ u, Succeeds (.bqCalc 0) s (writeCoeffs (coeffsOf (nanBits s.draws) s.regs) s.regs) u :=
  ⟨reply ⟨0, 0⟩ (nextDraw (withRegs (writeCoeffs _ s.regs) s)),
    by simp [exec, execBqCalc, hcutoff, hq, hsrate, halgo, respond], rfl, rfl⟩

/-- BQ_CLR (R163). -/
theorem bqClr_succeeds (s : State) : ∃ u, Succeeds (.bqClr 0) s (writeDelay posZero posZero s.regs) u :=
  ⟨_, rfl, rfl, rfl⟩

/-- BQ_PROC with valid coefficients and a valid gain completes with status 0 (R164). -/
theorem bqProc_completes {s : State} (hcoef : isValid s.regs .coefV = true) (hgain : isValid s.regs .gainV = true)
    (v : BitVec 32) : ∃ u y, exec (.bqProc 0 v) s = .next u ∧ u.responses = ⟨0, y⟩ :: s.responses := by
  have hexec : exec (.bqProc 0 v) s = filterStep (gainedSample (nanBits s.draws) v s.regs) s := by
    simp [exec, execBqProc, hcoef, hgain]
  exact ⟨_, _, hexec, rfl⟩

/-- A list of commands of which the first succeeds runs the others from the state it leaves. -/
theorem transactAll_cons_of_succeeds {i : Instr} {s u : State} {r : Regs} (h : Succeeds i s r u) (is : List Instr) :
    transactAll ((i :: is).map encode) s = transactAll (is.map encode) u := by
  rw [List.map_cons, transactAll, transact_of_decode (decode_encode i), h.next]

/-! ### The registers BQ_SETUP leaves -/

/-- The registers after BQ_SETUP's four parameter writes. -/
def setupParams (fc q : F64) (fs : Word64) (gdb : F64) (r : Regs) : Regs :=
  writeParam .gainDb gdb (writeParam .srate fs (writeParam .qreg q (writeParam .cutoff fc r)))

/-- The registers after BQ_SETUP, with the gain and the coefficients that GAIN_CALC and BQ_CALC compute. -/
def setupRegs (fc q : F64) (fs : Word64) (gdb gain : F64) (c : Coeffs) (r : Regs) : Regs :=
  writeDelay posZero posZero (writeCoeffs c (writeGain gain (setupParams fc q fs gdb r)))

section setup
variable {fc q gdb : F64} {fs : Word64}

/-- The parameters are marked written (R205). -/
theorem isValid_setupParams (r : Regs) :
    isValid (setupParams fc q fs gdb r) .cutoffW = true ∧ isValid (setupParams fc q fs gdb r) .qW = true ∧
    isValid (setupParams fc q fs gdb r) .srateW = true ∧ isValid (setupParams fc q fs gdb r) .gdbW = true := by
  simp [setupParams, isValid_writeParam]

/-- All six fields of VALID are set, and its other bits stay (R36). -/
theorem valid_setupRegs (gain : F64) (c : Coeffs) (r : Regs) :
    (setupRegs fc q fs gdb gain c r).valid = r.valid ||| 0x3F := by
  have hmask (i : Nat) : (0x3F#64).getLsbD i = decide (i < 6) := by
    rw [show 0x3F#64 = (BitVec.allOnes 6).setWidth 64 from rfl, BitVec.getLsbD_setWidth, BitVec.getLsbD_allOnes]
    by_cases hi : i < 6 <;> simp [hi]
    omega
  refine BitVec.eq_of_getLsbD_eq fun i _ => ?_
  simp only [setupRegs, setupParams, writeDelay_valid, writeCoeffs_valid, writeGain_valid, writeParam_valid,
    writeEffects, validSet_getLsbD, validClear_getLsbD, BitVec.getLsbD_or]
  by_cases hi : i < 6
  · interval_cases i <;> simp [validBit]
  · have hne (f : ValidField) : i ≠ validBit f := by have := validBit_lt f; omega
    simp [hmask, hne, hi]

/-- The seven commands of BQ_SETUP succeed with legal values and ALGO 3. -/
theorem bqSetup_run (hfc : legalValue .cutoff fc = true) (hq : legalValue .qreg q = true)
    (hfs : legalValue .srate fs = true) (hgdb : legalValue .gainDb gdb = true) {s : State} (halgo : s.regs.algo = 3) :
    ∃ u gain c, transactAll ((bqSetup fc q fs gdb).map encode) s = .next u ∧
      u.regs = setupRegs fc q fs gdb gain c s.regs ∧ u.responses = List.replicate 7 ⟨0, 0⟩ ++ s.responses := by
  obtain ⟨s1, h1⟩ := regWrite_succeeds (x := .cutoff) rfl hfc s
  obtain ⟨s2, h2⟩ := regWrite_succeeds (x := .qreg) rfl hq s1
  obtain ⟨s3, h3⟩ := regWrite_succeeds (x := .srate) rfl hfs s2
  obtain ⟨s4, h4⟩ := regWrite_succeeds (x := .gainDb) rfl hgdb s3
  have hparams : s4.regs = setupParams fc q fs gdb s.regs := by rw [h4.regs, h3.regs, h2.regs, h1.regs, setupParams]
  obtain ⟨hcutoffW, hqW, hsrateW, hgdbW⟩ := isValid_setupParams (fc := fc) (q := q) (fs := fs) (gdb := gdb) s.regs
  rw [← hparams] at hcutoffW hqW hsrateW hgdbW
  obtain ⟨s5, h5⟩ := gainCalc_succeeds hgdbW
  obtain ⟨s6, h6⟩ := bqCalc_succeeds (s := s5) (by simp [h5.regs, hcutoffW]) (by simp [h5.regs, hqW])
    (by simp [h5.regs, hsrateW]) (by simp [h5.regs, hparams, setupParams, halgo])
  obtain ⟨s7, h7⟩ := bqClr_succeeds s6
  refine ⟨s7, _, _, ?_, by rw [h7.regs, h6.regs, h5.regs, hparams]; rfl, ?_⟩
  · rw [bqSetup, transactAll_cons_of_succeeds h1, transactAll_cons_of_succeeds h2, transactAll_cons_of_succeeds h3,
      transactAll_cons_of_succeeds h4, transactAll_cons_of_succeeds h5, transactAll_cons_of_succeeds h6,
      transactAll_cons_of_succeeds h7]
    rfl
  · rw [h7.responses, h6.responses, h5.responses, h4.responses, h3.responses, h2.responses, h1.responses]
    rfl

end setup

/-- Settles O56: the run is `bqSetup_run`; then COEF_V and GAIN_V are set, all that BQ_PROC needs. -/
theorem bqSetupMakesTheFilterReady : Obligations.BqSetupMakesTheFilterReady := by
  intro s fc q g fs v halgo hfc hq hg hlo hhi
  obtain ⟨u, gain, c, hrun, hregs, hresponses⟩ := bqSetup_run (fIsFinite_iff.2 hfc) (fIsFinite_iff.2 hq)
    (decide_eq_true ⟨hlo, hhi⟩) (fIsFinite_iff.2 hg) halgo
  have hready := bqProc_completes (s := u) (by simp [hregs, setupRegs]) (by simp [hregs, setupRegs]) v
  have hsrate : (fs.extractLsb' 0 32).toNat = fs.toNat := by
    rw [BitVec.extractLsb'_toNat]
    omega
  refine ⟨u, hrun, hresponses, ?_⟩
  rw [hregs, valid_setupRegs]
  simpa [setupRegs, setupParams, hsrate, posZero] using hready

end Sys2Proof.Machine
end

section
/-! SUPPORT. The ADPCM commands (spec/41_adpcm.md R113, R121 to R125). The claims' integer decoder `nibbleStep` gives what
the registers then hold (`nibbleStep_eq`), so a byte is two of its steps, and a buffer their fold (`adBytes_run`). -/

namespace Sys2Proof.Machine

open Claims

/-! ### Decoding, success and refusal -/

/-- A command word decodes to its command whatever WDATA holds, if the command takes no operand from there (R87). -/
theorem decode_word {i : Instr} {w : Word64}
    (h : operandsOf (opcodeOf i) ⟨(encode i).cmd, w⟩ = operandsOf (opcodeOf i) (encode i)) :
    decode ⟨word (byteOfOpcode (opcodeOf i)) (lowField i), w⟩ = .instr i :=
  decode_eq_instr_iff.2 ⟨opcodeOf i, (congrArg _ (opcField_encode i)).trans (opcodeOfByte_byteOfOpcode _),
    (h.trans (operandsOf_encode i)).symm⟩

theorem respond_endsWith (v : Word64) (r : Regs) (s : State) : endsWith (respond v (withRegs r s)) s r ⟨0, v⟩ :=
  ⟨s.draws, rfl⟩

theorem exec_failsWith_of_reservedZero_eq_false {i : Instr} (h : reservedZero i = false) (s : State) :
    failsWith (exec i s) s 2 := by
  rw [exec_of_reservedZero_eq_false h]
  exact raiseStatus_failsWith .reservedNonzero s

theorem exec_adInit_zero (s : State) :
    exec (.adInit 0) s = respond 0 (withRegs (writeAdpcm 0 0 s.regs) s) := rfl

/-- Settles O27: AD_INIT writes PRED and SIDX only. -/
theorem adInitClearsTheCodec : Obligations.AdInitClearsTheCodec := by
  refine fun rsvd s => ⟨fun w => decode_word (i := .adInit rsvd) rfl, ?_, fun hne => ?_⟩
  · rintro rfl
    rw [exec_adInit_zero]
    exact respond_endsWith 0 (writeAdpcm 0 0 s.regs) s
  · exact exec_failsWith_of_reservedZero_eq_false (i := .adInit rsvd) (beq_eq_false_iff_ne.2 hne) s

/-! ### One nibble (R113) -/

theorem clampInt_eq {lo hi : Int} (h : lo ≤ hi) (v : Int) : clampInt v lo hi = max lo (min hi v) := by
  unfold clampInt; omega

theorem nibbleSign_eq (n : Nibble) : nibbleSign n = decide (8 ≤ n.toNat) := by
  revert n; decide

theorem decodeNibbleInt_out (t : Vector Nat 49) (n : Nibble) (p i : Int) :
    (decodeNibbleInt t n p i).out = (decodeNibbleInt t n p i).pred * 16 := rfl

section nibble
variable (t : Vector Nat 49) (n : Nibble) (r : Regs)

/-- PRED holds the clamped predictor: it fits in 16 bits (R117). -/
theorem toInt_pred_nibbleRegs :
    (nibbleRegs t n r).pred.toInt = (decodeNibbleInt t n r.pred.toInt r.sidx.toInt).pred := by
  obtain ⟨⟨hlo, hhi⟩, -⟩ := decodeNibbleInt_bounds t n r.pred.toInt r.sidx.toInt
  exact BitVec.toInt_ofInt_eq_self (by decide) (by omega) (by omega)

/-- SIDX holds the clamped step index: it fits in 16 bits (R115). -/
theorem toInt_sidx_nibbleRegs :
    (nibbleRegs t n r).sidx.toInt = (decodeNibbleInt t n r.pred.toInt r.sidx.toInt).sidx := by
  obtain ⟨-, hlo, hhi⟩ := decodeNibbleInt_bounds t n r.pred.toInt r.sidx.toInt
  exact BitVec.toInt_ofInt_eq_self (by decide) (by omega) (by omega)

/-- The sample is 16 times the new predictor, which fits in 16 bits, so extending its sign keeps its value (R118). -/
theorem signExtend_nibbleSample (w : Nat) :
    (nibbleSample t n r).signExtend w = BitVec.ofInt w ((nibbleRegs t n r).pred.toInt * 16) := by
  obtain ⟨⟨hlo, hhi⟩, -⟩ := decodeNibbleInt_bounds t n r.pred.toInt r.sidx.toInt
  rw [BitVec.signExtend, nibbleSample, decodeNibbleInt_out,
    BitVec.toInt_ofInt_eq_self (by decide) (by omega) (by omega), toInt_pred_nibbleRegs]

variable {t r} in
/-- The claims' decoder gives the predictor and the step index that the registers then hold. -/
theorem nibbleStep_eq {ss : Nat} (hi : 0 ≤ r.sidx.toInt) (hss : t[r.sidx.toInt.toNat]? = some ss) :
    nibbleStep ss n.toNat r.pred.toInt r.sidx.toInt =
      ((nibbleRegs t n r).pred.toInt, (nibbleRegs t n r).sidx.toInt) := by
  have hnat : r.sidx.toInt.toNat = r.sidx.toNat :=
    BitVec.toNat_toInt_of_msb _ (by rw [BitVec.msb_eq_toInt, decide_eq_false (not_lt.2 hi)])
  rw [hnat] at hss
  simp [nibbleStep, toInt_pred_nibbleRegs, toInt_sidx_nibbleRegs, decodeNibbleInt, stepSize_eq hi hss, adpcmDiff_eq,
    clampInt_eq, nibbleSign_eq, idxAdjust_eq]

end nibble

theorem exec_adNib_zero (n : Nibble) (s : State) : exec (.adNib 0 n) s =
    respond ((nibbleSample s.stepTable n s.regs).signExtend 64) (withRegs (nibbleRegs s.stepTable n s.regs) s) := rfl

/-- A step index within the table is the same number as a signed word. -/
theorem getElem?_toInt_toNat {t : Vector Nat 49} {i : BitVec 16} {ss : Nat} (hss : t[i.toNat]? = some ss) :
    0 ≤ i.toInt ∧ t[i.toInt.toNat]? = some ss := by
  obtain ⟨hlt, -⟩ := Vector.getElem?_eq_some_iff.1 hss
  have hint : i.toInt = i.toNat := BitVec.toInt_eq_toNat_of_lt (by omega)
  rw [hint]
  exact ⟨Int.natCast_nonneg _, hss⟩

/-- Settles O28: the claim's predictor and step index are the registers' (`nibbleStep_eq`), and RDATA is the sample with
its sign extended (`signExtend_nibbleSample`). -/
theorem adNibDecodesOneNibble : Obligations.AdNibDecodesOneNibble := by
  refine fun rsvd n s ss => ⟨fun w => decode_word (i := .adNib rsvd n) rfl, ?_, fun hne => ?_⟩
  · rintro rfl hss
    obtain ⟨hi, hss⟩ := getElem?_toInt_toNat hss
    simp only [nibbleStep_eq n hi hss, ← signExtend_nibbleSample, BitVec.ofInt_toInt, exec_adNib_zero]
    exact respond_endsWith _ (nibbleRegs s.stepTable n s.regs) s
  · exact exec_failsWith_of_reservedZero_eq_false (i := .adNib rsvd n) (beq_eq_false_iff_ne.2 hne) s

/-! ### One byte (R111, R123) -/

theorem toNat_highNibble (b : Byte) : (highNibble b).toNat = b.toNat / 16 := by
  rw [highNibble, BitVec.extractLsb'_toNat, Nat.shiftRight_eq_div_pow]
  omega

theorem toNat_lowNibble (b : Byte) : (lowNibble b).toNat = b.toNat % 16 := by
  rw [lowNibble, BitVec.extractLsb'_toNat, Nat.shiftRight_zero]

/-- The registers after a byte: those of its high nibble, then of its low nibble. -/
def byteRegs (t : Vector Nat 49) (b : Byte) (r : Regs) : Regs :=
  nibbleRegs t (lowNibble b) (nibbleRegs t (highNibble b) r)

/-- RDATA of a byte: the high nibble's sample in the lower half, the low nibble's in the upper half (R65). -/
def byteSamples (t : Vector Nat 49) (b : Byte) (r : Regs) : Word64 :=
  (nibbleSample t (lowNibble b) (nibbleRegs t (highNibble b) r)).signExtend 32 ++
    (nibbleSample t (highNibble b) r).signExtend 32

theorem exec_adByte_zero (b : Byte) (s : State) : exec (.adByte 0 b) s =
    respond (byteSamples s.stepTable b s.regs) (withRegs (byteRegs s.stepTable b s.regs) s) := rfl

section byte
variable {t : Vector Nat 49} (b : Byte) {r : Regs} {ss : Nat}

theorem nibbleStep_high (hi : 0 ≤ r.sidx.toInt) (hss : t[r.sidx.toInt.toNat]? = some ss) :
    nibbleStep ss (b.toNat / 16) r.pred.toInt r.sidx.toInt =
      ((nibbleRegs t (highNibble b) r).pred.toInt, (nibbleRegs t (highNibble b) r).sidx.toInt) := by
  rw [← toNat_highNibble, nibbleStep_eq _ hi hss]

theorem nibbleStep_low (hss : t[(nibbleRegs t (highNibble b) r).sidx.toInt.toNat]? = some ss) :
    nibbleStep ss (b.toNat % 16) (nibbleRegs t (highNibble b) r).pred.toInt (nibbleRegs t (highNibble b) r).sidx.toInt =
      ((byteRegs t b r).pred.toInt, (byteRegs t b r).sidx.toInt) := by
  obtain ⟨-, -, hi, -⟩ := clampInv_nibbleRegs t (highNibble b) r
  rw [← toNat_lowNibble, nibbleStep_eq _ hi hss, byteRegs]

/-- The claims' RDATA of a byte. -/
theorem byteSamples_eq : byteSamples t b r =
    BitVec.ofInt 32 ((byteRegs t b r).pred.toInt * 16) ++
      BitVec.ofInt 32 ((nibbleRegs t (highNibble b) r).pred.toInt * 16) := by
  rw [byteSamples, signExtend_nibbleSample, signExtend_nibbleSample, byteRegs]

end byte

/-- Settles O29: the byte's two nibbles one after the other (`nibbleStep_high`, `nibbleStep_low`), which is also what the
two AD_NIBs run. -/
theorem adByteDecodesHighThenLowNibble : Obligations.AdByteDecodesHighThenLowNibble := by
  refine fun rsvd b s ss1 ss2 => ⟨fun w => decode_word (i := .adByte rsvd b) rfl, ?_, fun hne => ?_, ?_⟩
  · rintro rfl hss1
    obtain ⟨hi, hss1⟩ := getElem?_toInt_toNat hss1
    simp only [nibbleStep_high b hi hss1]
    intro hss2
    simp only [nibbleStep_low b hss2, ← byteSamples_eq, BitVec.ofInt_toInt, exec_adByte_zero]
    exact respond_endsWith _ (byteRegs s.stepTable b s.regs) s
  · exact exec_failsWith_of_reservedZero_eq_false (i := .adByte rsvd b) (beq_eq_false_iff_ne.2 hne) s
  · rintro rfl
    rw [← toNat_highNibble, ← toNat_lowNibble, BitVec.ofNat_toNat, BitVec.ofNat_toNat, BitVec.setWidth_eq,
      BitVec.setWidth_eq]
    exact ⟨_, _, _, exec_adByte_zero b s, exec_adNib_zero (highNibble b) s, exec_adNib_zero (lowNibble b) _, rfl⟩

/-! ### A buffer of bytes (R124, R125) -/

/-- A step index in R39's range is within the table. -/
theorem exists_stepSize (t : Vector Nat 49) {r : Regs} (h : clampInv r) : ∃ ss, t[r.sidx.toInt.toNat]? = some ss :=
  ⟨_, Vector.getElem?_eq_getElem (by obtain ⟨-, -, hlo, hhi⟩ := h; omega)⟩

/-- The claims' fold takes a byte as the registers do. -/
theorem decodeBytes_cons (t : Vector Nat 49) (b : Byte) (bs : List Byte) {r : Regs} (h : clampInv r) :
    decodeBytes t (b :: bs) r.pred.toInt r.sidx.toInt =
      (⟨0, byteSamples t b r⟩ :: (decodeBytes t bs (byteRegs t b r).pred.toInt (byteRegs t b r).sidx.toInt).1,
        (decodeBytes t bs (byteRegs t b r).pred.toInt (byteRegs t b r).sidx.toInt).2) := by
  obtain ⟨ss1, hss1⟩ := exists_stepSize t h
  obtain ⟨ss2, hss2⟩ := exists_stepSize t (clampInv_nibbleRegs t (highNibble b) r)
  obtain ⟨-, -, hi, -⟩ := h
  simp only [decodeBytes, hss1, Option.getD_some, nibbleStep_high b hi hss1, hss2, nibbleStep_low b hss2, byteSamples_eq]

theorem transactAll_cons_of_next {i : Instr} {s u : State} (h : exec i s = .next u) (ts : List Transaction) :
    transactAll (encode i :: ts) s = transactAll ts u := by
  rw [transactAll, transact_of_decode (decode_encode i), h]

/-- One AD_BYTE per byte, from registers in R39's ranges: the responses and the registers of the fold, by induction on the
bytes. -/
theorem adBytes_run (bs : List Byte) {s : State} (h : clampInv s.regs) :
    ∃ u, transactAll ((adBytes bs).map encode) s = .next u ∧
      u.responses = (decodeBytes s.stepTable bs s.regs.pred.toInt s.regs.sidx.toInt).1.reverse ++ s.responses ∧
      u.regs = writeAdpcm
        (BitVec.ofInt 16 (decodeBytes s.stepTable bs s.regs.pred.toInt s.regs.sidx.toInt).2.1)
        (BitVec.ofInt 16 (decodeBytes s.stepTable bs s.regs.pred.toInt s.regs.sidx.toInt).2.2) s.regs := by
  induction bs generalizing s with
  | nil => exact ⟨s, rfl, rfl, by simp [decodeBytes, writeAdpcm]⟩
  | cons b bs ih =>
    obtain ⟨u, hrun, hresponses, hregs⟩ :=
      ih (s := reply ⟨0, byteSamples s.stepTable b s.regs⟩ (withRegs (byteRegs s.stepTable b s.regs) s))
        (clampInv_nibbleRegs s.stepTable (lowNibble b) _)
    rw [decodeBytes_cons s.stepTable b bs h]
    refine ⟨u, (transactAll_cons_of_next (exec_adByte_zero b s) _).trans hrun, ?_, hregs⟩
    rw [hresponses, List.reverse_cons, List.append_assoc]
    rfl

/-- Settles O30: AD_INIT leaves (0, 0), from where `adBytes_run` runs the bytes. -/
theorem bufferDecodesToTheFoldOfItsBytes : Obligations.BufferDecodesToTheFoldOfItsBytes := by
  intro bs s
  obtain ⟨u, hrun, hresponses, hregs⟩ :=
    adBytes_run bs (s := reply ⟨0, 0⟩ (withRegs (writeAdpcm 0 0 s.regs) s)) (clampInv_writeAdpcm_zero s.regs)
  exact ⟨u, (transactAll_cons_of_next (exec_adInit_zero s) _).trans hrun, hresponses, hregs⟩

end Sys2Proof.Machine
end

section
/-! SUPPORT. Binary64 results said without rounding (spec/42_biquad.md R151 to R153): where an operation gives NaN, the
order of magnitudes, and operations whose exact result is a binary64 value: doublings, and those with a zero or
with 1.0. -/

namespace Sys2Proof.Machine

open Claims

/-! ### Where an operation gives NaN (R153) -/

theorem fIsInf_or_fIsFinite {x : F64} (h : fIsNaN x = false) : fIsInf x = true ∨ fIsFinite x = true := by
  cases hfin : fIsFinite x
  · simp only [fIsFinite, bne_eq_false_iff_eq] at hfin
    exact .inl (by simpa [fIsNaN, fIsInf, hfin] using h)
  · exact .inr rfl

theorem fIsFinite_of_zero {x : F64} (h : fIsZero x = true) : fIsFinite x = true := by
  simp_all [fIsZero, fIsFinite]

theorem fIsNaN_signedInf (neg : Bool) : fIsNaN (signedInf neg) = false := by cases neg <;> rfl

theorem fIsNaN_signedZero (neg : Bool) : fIsNaN (signedZero neg) = false := by cases neg <;> rfl

/-- The result is the given NaN encoding where `p` holds, and no NaN elsewhere. -/
def NaNExactlyIf (nan z : F64) (p : Prop) : Prop := (p → z = nan) ∧ (¬ p → fIsNaN z = false)

section nan
variable {nan x y : F64}

theorem fAdd_nanExactlyIf : NaNExactlyIf nan (fAdd nan x y) ((fIsNaN x = true ∨ fIsNaN y = true) ∨
    fIsInf x = true ∧ fIsInf y = true ∧ fSign x ≠ fSign y) := by
  constructor
  · rintro ((hx | hy) | ⟨hx, hy, hsign⟩)
    · simp [fAdd, hx]
    · simp [fAdd, hy]
    · simp [fAdd, hx, hy, hsign]
  · simp only [not_or, Bool.not_eq_true]
    rintro ⟨⟨hx, hy⟩, hinvalid⟩
    obtain hx' | hx' := fIsInf_or_fIsFinite hx <;> obtain hy' | hy' := fIsInf_or_fIsFinite hy
    · rwa [fAdd_inf_inf hx' hy' (not_not.1 fun hsign => hinvalid ⟨hx', hy', hsign⟩)]
    · rwa [fAdd_inf_left hx' hy']
    · rwa [fAdd_inf_right hy' hx']
    · rw [fAdd_of_finite hx' hy', fIsNaN_fRound]

theorem fSub_nanExactlyIf : NaNExactlyIf nan (fSub nan x y) ((fIsNaN x = true ∨ fIsNaN y = true) ∨
    fIsInf x = true ∧ fIsInf y = true ∧ fSign x = fSign y) := by
  simpa [fSub] using fAdd_nanExactlyIf (nan := nan) (x := x) (y := fNeg y)

theorem fMul_nanExactlyIf : NaNExactlyIf nan (fMul nan x y) ((fIsNaN x = true ∨ fIsNaN y = true) ∨
    (fIsInf x = true ∧ fIsZero y = true ∨ fIsZero x = true ∧ fIsInf y = true)) := by
  constructor
  · rintro ((hx | hy) | ⟨hx, hy⟩ | ⟨hx, hy⟩)
    · simp [fMul, hx]
    · simp [fMul, hy]
    · simp [fMul, hx, hy]
    · simp [fMul, hx, hy]
  · simp only [not_or, Bool.not_eq_true, fIsZero_eq_decide, decide_eq_true_eq]
    rintro ⟨⟨hx, hy⟩, hinfzero, hzeroinf⟩
    obtain hx' | hx' := fIsInf_or_fIsFinite hx <;> obtain hy' | hy' := fIsInf_or_fIsFinite hy
    · rw [fMul_inf_inf hx' hy', fIsNaN_signedInf]
    · rw [fMul_inf_left hx' hy' fun hzero => hinfzero ⟨hx', hzero⟩, fIsNaN_signedInf]
    · rw [fMul_inf_right hy' hx' fun hzero => hzeroinf ⟨hzero, hy'⟩, fIsNaN_signedInf]
    · rw [fMul_of_finite hx' hy', fIsNaN_fRound]

theorem fDiv_nanExactlyIf : NaNExactlyIf nan (fDiv nan x y) ((fIsNaN x = true ∨ fIsNaN y = true) ∨
    (fIsInf x = true ∧ fIsInf y = true ∨ fIsZero x = true ∧ fIsZero y = true)) := by
  constructor
  · rintro ((hx | hy) | ⟨hx, hy⟩ | ⟨hx, hy⟩)
    · simp [fDiv, hx]
    · simp [fDiv, hy]
    · simp [fDiv, hx, hy]
    · simp [fDiv, fIsInf_of_finite (fIsFinite_of_zero hx), fIsInf_of_finite (fIsFinite_of_zero hy), hx, hy]
  · simp only [not_or, Bool.not_eq_true, fIsZero_eq_decide, decide_eq_true_eq]
    rintro ⟨⟨hx, hy⟩, hinf, hzero⟩
    obtain hx' | hx' := fIsInf_or_fIsFinite hx <;> obtain hy' | hy' := fIsInf_or_fIsFinite hy
    · exact absurd ⟨hx', hy'⟩ hinf
    · rw [fDiv_inf_left hx' hy', fIsNaN_signedInf]
    · rw [fDiv_inf_right hy' hx', fIsNaN_signedZero]
    · by_cases hy0 : fVal y = 0
      · rw [fDiv_by_zero hx' hy' (fun hx0 => hzero ⟨hx0, hy0⟩) hy0, fIsNaN_signedInf]
      · rw [fDiv_of_finite hx' hy' hy0, fIsNaN_fRound]

end nan

/-- Settles O41: an operation's NaN cases, one lemma each. -/
theorem nanExactlyWhereIeeeGivesNaN : Obligations.NaNExactlyWhereIeeeGivesNaN :=
  fun _ _ _ _ => ⟨fAdd_nanExactlyIf, fSub_nanExactlyIf, fMul_nanExactlyIf, fDiv_nanExactlyIf⟩

/-- NAN_BITS is a NaN. -/
theorem fIsNaN_quietNaN (d : BitVec 52) : fIsNaN (quietNaN d) = true := by
  have hones : ((quietNaN d).extractLsb' 51 12).toNat = 0xFFF :=
    congrArg BitVec.toNat (extractLsb'_append_append_middle (d.extractLsb' 51 1) 0xFFF#12 (d.extractLsb' 0 51))
  rw [BitVec.extractLsb'_toNat, Nat.shiftRight_eq_div_pow] at hones
  have hexp : fExp (quietNaN d) = 2047 := by rw [fExp_eq]; omega
  have hfrac : fFrac (quietNaN d) ≠ 0 := by rw [fFrac_eq]; omega
  simp [fIsNaN, hexp, hfrac]

/-! ### The order of magnitudes -/

/-- The encoding without its sign, as a number, is its exponent and its fraction. -/
theorem toNat_extractLsb'_low63 (x : F64) : (x.extractLsb' 0 63).toNat = fExp x * 2 ^ 52 + fFrac x := by
  rw [BitVec.extractLsb'_toNat, Nat.shiftRight_zero, fExp_eq, fFrac_eq]
  omega

theorem fMag_lt_of_low63_lt {x y : F64} (h : (x.extractLsb' 0 63).toNat < (y.extractLsb' 0 63).toNat) :
    fMag x < fMag y := by
  rw [toNat_extractLsb'_low63, toNat_extractLsb'_low63] at h
  have hx := fFrac_lt x
  have hy := fFrac_lt y
  obtain hexp | hexp : fExp x < fExp y ∨ fExp x = fExp y := by omega
  · exact fMag_lt_of_fExp_lt hexp
  · have hfrac : fFrac x < fFrac y := by omega
    unfold fMag
    rw [hexp]
    split
    · exact hfrac
    · exact Nat.mul_lt_mul_of_pos_right (by omega) (by positivity)

theorem fMag_le_iff {x y : F64} : fMag x ≤ fMag y ↔ (x.extractLsb' 0 63).toNat ≤ (y.extractLsb' 0 63).toNat := by
  refine ⟨fun h => not_lt.1 fun hlt => absurd (fMag_lt_of_low63_lt hlt) (not_lt.2 h), fun h => ?_⟩
  obtain hlt | heq := h.lt_or_eq
  · exact (fMag_lt_of_low63_lt hlt).le
  · rw [toNat_extractLsb'_low63, toNat_extractLsb'_low63] at heq
    have hx := fFrac_lt x
    have hy := fFrac_lt y
    have hexp : fExp x = fExp y := by omega
    have hfrac : fFrac x = fFrac y := by omega
    rw [fMag, fMag, hexp, hfrac]

theorem abs_fVal (x : F64) : |fVal x| = fMag x := by rw [Int.abs_eq_natAbs, fVal_natAbs]

theorem fMag_oneF : fMag oneF = oneUnits := by rw [oneUnits_eq]; decide +kernel

theorem fMag_twoF : fMag twoF = 2 * oneUnits := by rw [oneUnits_eq]; decide +kernel

theorem fMag_negTwoF : fMag negTwoF = 2 * oneUnits := by rw [oneUnits_eq]; decide +kernel

theorem two_mul_fMag_halfF : 2 * fMag halfF = oneUnits := by rw [oneUnits_eq]; decide +kernel

/-- `fInUnit` tests for a value of [-1, 1]. -/
theorem fInUnit_iff {x : F64} : fInUnit x = true ↔ finite64 x ∧ |fVal x| ≤ 2 ^ 1074 := by
  have hone : (oneF.extractLsb' 0 63).toNat = 0x3FF0000000000000 := rfl
  rw [fInUnit, decide_eq_true_iff, ← hone, ← fMag_le_iff, fMag_oneF, abs_fVal, ← oneUnits_cast, Nat.cast_le,
    ← fIsFinite_iff]
  refine (and_iff_right_of_imp fun h => ?_).symm
  rw [← fMag_oneF, fMag_le_iff, hone, toNat_extractLsb'_low63] at h
  simp only [fIsFinite, bne_iff_ne, ne_eq]
  omega

/-! ### Doublings (R151) -/

theorem roundEven_mul_right (num den : Nat) {c : Nat} (hc : 0 < c) :
    roundEven (num * c) (den * c) = roundEven num den := by
  unfold roundEven
  simp only [Nat.mul_div_mul_right _ _ hc, Nat.mul_mod_mul_right, ← mul_assoc, Nat.mul_lt_mul_right hc]

/-- A common factor of numerator and denominator leaves the rounded encoding. -/
theorem fRound_mul_right (neg : Bool) (num den : Nat) {c : Nat} (hc : 0 < c) :
    fRound neg (num * c) (den * c) = fRound neg num den := by
  rw [fRound_eq, fRound_eq, roundCode, roundCode, roundScale, roundScale, Nat.mul_div_mul_right _ _ hc,
    mul_right_comm den, roundEven_mul_right _ _ hc]

theorem fIsFinite_fRound_one {neg : Bool} {num : Nat} :
    fIsFinite (fRound neg num 1) = true ↔ num < overflowUnits := by
  rw [fIsFinite_fRound Nat.one_pos, mul_one]

/-- Twice a magnitude is a multiple of the spacing of its binade. -/
theorem pow_roundScale_dvd_two_mul_fMag (x : F64) : 2 ^ roundScale (2 * fMag x) 1 ∣ 2 * fMag x := by
  cases hscale : roundScale (2 * fMag x) 1 with
  | zero => simp
  | succ k =>
    have hge := quot_ge (num := 2 * fMag x) (den := 1) (by omega)
    rw [hscale, Nat.div_one, ← add_assoc, pow_succ'] at hge
    obtain ⟨m, hm⟩ := fMag_multiple (Nat.le_of_mul_le_mul_left hge two_pos)
    exact ⟨m, by rw [hm, pow_succ']; ring⟩

section doubling
variable {nan t x : F64} (ht : fIsFinite t = true) (hmag : fMag t = 2 * oneUnits) (hx : fIsFinite x = true)
  (hfin : fIsFinite (fMul nan t x) = true)
include ht hmag hx hfin

theorem fMag_fMul_two : fMag (fMul nan t x) = 2 * fMag x := by
  have hround : fMul nan t x = fRound (fSign t != fSign x) (2 * fMag x) 1 := by
    rw [fMul_of_finite ht hx, hmag, mul_right_comm, ← fRound_mul_right _ _ 1 oneUnits_pos, one_mul]
  rw [hround] at hfin ⊢
  exact fMag_fRound_of_dvd (fIsFinite_fRound_one.1 hfin) (pow_roundScale_dvd_two_mul_fMag x)

/-- A product by 2.0 or -2.0 that does not overflow is exact. -/
theorem fVal_fMul_two : fVal (fMul nan t x) = if fSign t then -2 * fVal x else 2 * fVal x := by
  have hsign : fSign (fMul nan t x) = (fSign t != fSign x) := by rw [fMul_of_finite ht hx, fSign_fRound]
  rw [fVal, fMag_fMul_two ht hmag hx hfin, hsign, fVal]
  cases fSign t <;> cases fSign x <;> simp

end doubling

/-! ### Sums, products and quotients that are exact -/

/-- A quotient of finite values by one that is not zero does not depend on the NaN encoding. -/
theorem fDiv_eq_of_finite {n m x y : F64} (hx : fIsFinite x = true) (hy : fIsFinite y = true) (hy0 : fVal y ≠ 0) :
    fDiv n x y = fDiv m x y := by
  rw [fDiv_of_finite hx hy hy0, fDiv_of_finite hx hy hy0]

section exact
variable {nan x y w : F64} (hx : fIsFinite x = true)
include hx

/-- A finite sum that has an encoding, zero or not. -/
theorem fVal_fAdd_exact (hy : fIsFinite y = true) (hw : fIsFinite w = true) (h : fVal x + fVal y = fVal w) :
    fIsFinite (fAdd nan x y) = true ∧ fVal (fAdd nan x y) = fVal w := by
  have hround := fAdd_roundsTo (nan := nan) hx hy
  have hfin : fIsFinite (fAdd nan x y) = true := by
    rw [hround.finite_iff, h, fVal_natAbs, mul_one]
    exact fMag_lt_overflowUnits hw
  have hnear := hround.nearest hfin w hw
  rw [h, Nat.cast_one, mul_one, mul_one, sub_self, abs_zero, abs_nonpos_iff] at hnear
  exact ⟨hfin, sub_eq_zero.1 hnear⟩

variable (hx0 : fVal x ≠ 0) (hy : fIsFinite y = true) (hy0 : fVal y = 0)

theorem fMul_oneF_left : fMul nan oneF x = x :=
  fMul_exact rfl hx hx (by simp [fSign, oneF]) (by rw [fMag_oneF, mul_comm])

theorem fMul_oneF_right : fMul nan x oneF = x :=
  fMul_exact hx rfl hx (by simp [fSign, oneF]) (by rw [fMag_oneF])

theorem fDiv_oneF_right : fDiv nan x oneF = x :=
  fDiv_exact hx rfl hx (by simp [fSign, oneF]) (by rw [fMag_oneF]; exact oneUnits_pos.ne') (by rw [fMag_oneF])

include hx0 hy hy0

theorem fAdd_zero_right : fAdd nan x y = x := fAdd_exact hx hy hx (by rw [hy0, add_zero]) hx0

theorem fAdd_zero_left : fAdd nan y x = x := fAdd_exact hy hx hx (by rw [hy0, zero_add]) hx0

theorem fSub_zero_right : fSub nan x y = x :=
  fAdd_zero_right hx hx0 (by rwa [fIsFinite_fNeg]) (by rw [fVal_fNeg, hy0, neg_zero])

end exact

/-- A product of finite values by a zero is a zero. -/
theorem fMul_zero_right {nan x z : F64} (hx : fIsFinite x = true) (hz : fIsFinite z = true) (hz0 : fVal z = 0) :
    fIsFinite (fMul nan x z) = true ∧ fVal (fMul nan x z) = 0 := by
  rw [fMul_eq_zero hx hz (by rw [hz0, mul_zero])]
  cases fSign x != fSign z <;> decide

end Sys2Proof.Machine
end

section
/-! SUPPORT. SIN64, COS64 and POW10_64 (spec/42_biquad.md R156): what each construction makes of any function has the
stated properties, and a function that has them it leaves as it is. -/

namespace Sys2Proof.Machine

open Claims

/-! ### Replacing excluded values -/

theorem asUnit_of_fInUnit {x : F64} (h : fInUnit x = true) : asUnit x = x := if_pos h

theorem fInUnit_asUnit (x : F64) : fInUnit (asUnit x) = true := by
  unfold asUnit
  split
  · assumption
  · rfl

theorem asNaN_of_fIsNaN {x : F64} (h : fIsNaN x = true) : asNaN x = x := if_pos h

theorem fIsNaN_asNaN (x : F64) : fIsNaN (asNaN x) = true := by
  unfold asNaN
  split
  · assumption
  · exact fIsNaN_quietNaN 0

theorem asNonnegative_of_number {x : F64} (hx : fIsNaN x = false) (hsign : fSign x = false) : asNonnegative x = x := by
  simp [asNonnegative, hx, hsign]

theorem asNonnegative_number (x : F64) : fIsNaN (asNonnegative x) = false ∧ fSign (asNonnegative x) = false := by
  unfold asNonnegative
  split
  · decide
  · next h => simpa using h

/-! ### The zeros, the only operands with a stated value -/

theorem fIsZero_iff {v : F64} : fIsZero v = true ↔ v = posZero ∨ v = negZero := by
  constructor
  · intro h
    have hmag : fMag v = 0 := (fMag_eq_zero_iff v).2 h
    cases hsign : fSign v
    · exact .inl (eq_of_fSign_fMag hsign hmag)
    · exact .inr (eq_of_fSign_fMag hsign hmag)
  · rintro (rfl | rfl) <;> decide

theorem fIsZero_of_not_finite {v : F64} (h : ¬ finite64 v) : fIsZero v = false :=
  Bool.eq_false_iff.2 fun hz => h (fIsFinite_iff.1 (fIsFinite_of_zero hz))

theorem fIsZero_of_fIsNaN {v : F64} (h : fIsNaN v = true) : fIsZero v = false :=
  Bool.eq_false_iff.2 fun hz => Bool.eq_false_iff.1 (fIsNaN_of_finite (fIsFinite_of_zero hz)) h

/-- Two functions are equal if they are at the two zeros and elsewhere. -/
theorem funext_of_zeros {f g : F64 → F64} (hpos : f posZero = g posZero) (hneg : f negZero = g negZero)
    (hrest : ∀ v, fIsZero v = false → f v = g v) : f = g := by
  funext v
  cases hz : fIsZero v
  · exact hrest v hz
  · obtain rfl | rfl := fIsZero_iff.1 hz
    · exact hpos
    · exact hneg

/-! ### Sine and cosine -/

/-- What sinOf and cosOf have in common: their value at a nonzero operand. -/
def unitOf (raw : F64 → F64) (v : F64) : F64 := if fIsFinite v then asUnit (raw v) else asNaN (raw v)

section unit
variable {f raw : F64 → F64} {v : F64}

theorem sinOf_of_zero (hz : fIsZero v = true) : sinOf raw v = v := if_pos hz

theorem cosOf_of_zero (hz : fIsZero v = true) : cosOf raw v = oneF := if_pos hz

theorem sinOf_of_nonzero (hz : fIsZero v = false) : sinOf raw v = unitOf raw v := by
  rw [sinOf, hz]; rfl

theorem cosOf_of_nonzero (hz : fIsZero v = false) : cosOf raw v = unitOf raw v := by
  rw [cosOf, hz]; rfl

theorem fInUnit_unitOf (hv : finite64 v) : fInUnit (unitOf raw v) = true := by
  rw [unitOf, if_pos (fIsFinite_iff.2 hv)]
  exact fInUnit_asUnit _

theorem fIsNaN_unitOf (hv : ¬ finite64 v) : fIsNaN (unitOf raw v) = true := by
  rw [unitOf, if_neg (mt fIsFinite_iff.1 hv)]
  exact fIsNaN_asNaN _

/-- A function within [-1, 1] on finite operands and NaN elsewhere stays as it is. -/
theorem unitOf_eq_self (hfin : finite64 v → finite64 (f v) ∧ |fVal (f v)| ≤ 2 ^ 1074)
    (hnan : ¬ finite64 v → fIsNaN (f v) = true) : unitOf f v = f v := by
  unfold unitOf
  split
  · next hv => exact asUnit_of_fInUnit (fInUnit_iff.2 (hfin (fIsFinite_iff.1 hv)))
  · next hv => exact asNaN_of_fIsNaN (hnan (mt fIsFinite_iff.2 hv))

theorem admissibleSine_sinOf (raw : F64 → F64) : AdmissibleSine (sinOf raw) where
  finite v hv := by
    rw [← fInUnit_iff]
    cases hz : fIsZero v
    · rw [sinOf_of_nonzero hz]
      exact fInUnit_unitOf hv
    · rw [sinOf_of_zero hz]
      obtain rfl | rfl := fIsZero_iff.1 hz <;> rfl
  posZero := rfl
  negZero := rfl
  nan v hv := by
    rw [sinOf_of_nonzero (fIsZero_of_not_finite hv)]
    exact fIsNaN_unitOf hv

theorem admissibleCosine_cosOf (raw : F64 → F64) : AdmissibleCosine (cosOf raw) where
  finite v hv := by
    rw [← fInUnit_iff]
    cases hz : fIsZero v
    · rw [cosOf_of_nonzero hz]
      exact fInUnit_unitOf hv
    · rw [cosOf_of_zero hz]
      rfl
  posZero := rfl
  negZero := rfl
  nan v hv := by
    rw [cosOf_of_nonzero (fIsZero_of_not_finite hv)]
    exact fIsNaN_unitOf hv

theorem sinOf_eq_self (h : AdmissibleSine f) : sinOf f = f :=
  funext_of_zeros h.posZero.symm h.negZero.symm fun v hz => by
    rw [sinOf_of_nonzero hz, unitOf_eq_self (h.finite v) (h.nan v)]

theorem cosOf_eq_self (h : AdmissibleCosine f) : cosOf f = f :=
  funext_of_zeros h.posZero.symm h.negZero.symm fun v hz => by
    rw [cosOf_of_nonzero hz, unitOf_eq_self (h.finite v) (h.nan v)]

end unit

/-! ### Power of ten -/

section pow10
variable {f raw : F64 → F64} {v : F64}

theorem pow10Of_of_zero (hz : fIsZero v = true) : pow10Of raw v = oneF := if_pos hz

theorem pow10Of_of_number (hz : fIsZero v = false) (hv : fIsNaN v = false) :
    pow10Of raw v = asNonnegative (raw v) := by
  simp [pow10Of, hz, hv]

theorem pow10Of_of_nan (hv : fIsNaN v = true) : pow10Of raw v = asNaN (raw v) := by
  simp [pow10Of, fIsZero_of_fIsNaN hv, hv]

theorem admissiblePow10_pow10Of (raw : F64 → F64) : AdmissiblePow10 (pow10Of raw) where
  posZero := rfl
  negZero := rfl
  number v hv := by
    cases hz : fIsZero v
    · rw [pow10Of_of_number hz hv]
      exact asNonnegative_number _
    · rw [pow10Of_of_zero hz]
      decide
  nan v hv := by
    rw [pow10Of_of_nan hv]
    exact fIsNaN_asNaN _

theorem pow10Of_eq_self (h : AdmissiblePow10 f) : pow10Of f = f :=
  funext_of_zeros h.posZero.symm h.negZero.symm fun v hz => by
    cases hv : fIsNaN v
    · obtain ⟨hnumber, hsign⟩ := h.number v hv
      rw [pow10Of_of_number hz hv, asNonnegative_of_number hnumber hsign]
    · rw [pow10Of_of_nan hv, asNaN_of_fIsNaN (h.nan v hv)]

end pow10

/-! ### The obligations -/

/-- Settles O44: each construction gives an admissible function, whatever it starts from. -/
theorem transcendentalsHaveTheirProperties : Obligations.TranscendentalsHaveTheirProperties :=
  ⟨admissibleSine_sinOf _, admissibleCosine_cosOf _, admissiblePow10_pow10Of _⟩

/-- Settles O45: each construction leaves an admissible function as it is. -/
theorem everyAdmissibleFunctionIsAllowed : Obligations.EveryAdmissibleFunctionIsAllowed :=
  ⟨fun _ => sinOf_eq_self, fun _ => cosOf_eq_self, fun _ => pow10Of_eq_self⟩

end Sys2Proof.Machine
end

section
/-! SUPPORT. The biquad commands (spec/42_biquad.md R158 to R165): what they compute, in the claims' words, the
outcome of each per check it makes (`exec_bqCalc_of_written` and so on), and two runs whose registers differ in QREG or
in the other unit's registers. -/

namespace Sys2Proof.Machine

open Claims

/-! ### What the commands compute, in the claims' words -/

theorem quietNaNs_nanBits (draw : Nat) : quietNaNs (nanBits draw) := fun _ =>
  ⟨fIsNaN_quietNaN _, getLsbD_quietNaN _⟩

theorem validSet_coefV (v : Word64) : validSet v .coefV = v ||| 0x10#64 := rfl

theorem validSet_gainV (v : Word64) : validSet v .gainV = v ||| 0x20#64 := rfl

/-- R159's formula, as the claims write it. -/
theorem coeffsOf_eq_hpf2 (nan : Nat → F64) (r : Regs) :
    coeffsOf nan r = hpf2 sin64 cos64 nan r.cutoff (fOfInt r.srate.toNat)
      (if fLeZero r.qreg then 0x3FE69FBE76C8B439 else r.qreg) := rfl

theorem filterOut_eq_filterStep (nan : Nat → F64) (xn : F64) (r : Regs) :
    filterOut nan xn r = (Claims.filterStep nan xn r).1 := rfl

theorem filterRegs_eq_filterStep (nan : Nat → F64) (xn : F64) (r : Regs) :
    filterRegs nan xn r = { r with s0 := (Claims.filterStep nan xn r).2, s1 := r.s0 } := rfl

/-- The outcome of a command that computes and succeeds. -/
theorem respond_nextDraw_endsWith (v : Word64) (r : Regs) (s : State) :
    endsWith (respond v (nextDraw (withRegs r s))) s r ⟨0, v⟩ := ⟨s.draws + 1, rfl⟩

theorem filterStep_endsWith (xn : F64) (s : State) :
    endsWith (filterStep xn s) s
      { s.regs with s0 := (Claims.filterStep (nanBits s.draws) xn s.regs).2, s1 := s.regs.s0 }
      ⟨0, (Claims.filterStep (nanBits s.draws) xn s.regs).1⟩ := by
  rw [← filterOut_eq_filterStep, ← filterRegs_eq_filterStep]
  exact respond_nextDraw_endsWith _ _ s

/-! ### The outcome of each command, per check it makes -/

/-- CUTOFF, QREG and SRATE are written, all that BQ_CALC needs of VALID (R160). -/
abbrev paramsWritten (r : Regs) : Prop :=
  isValid r .cutoffW = true ∧ isValid r .qW = true ∧ isValid r .srateW = true

section outcomes
variable {s : State}

theorem exec_bqCalc_of_unwritten (h : ¬ paramsWritten s.regs) : exec (.bqCalc 0) s = raiseStatus .notConfigured s := by
  have hcheck : (!(isValid s.regs .cutoffW) || !(isValid s.regs .qW) || !(isValid s.regs .srateW)) = true := by
    simpa [paramsWritten, not_and_or, or_assoc, -not_and] using h
  exact if_pos hcheck

theorem exec_bqCalc_of_otherAlgo (h : paramsWritten s.regs) (halgo : s.regs.algo ≠ 3) :
    exec (.bqCalc 0) s = raiseStatus .notImplemented s := by
  obtain ⟨hcutoff, hq, hsrate⟩ := h
  simp only [exec, execBqCalc, hcutoff, hq, hsrate]
  exact if_pos halgo

theorem exec_bqCalc_of_written (h : paramsWritten s.regs) (halgo : s.regs.algo = 3) : exec (.bqCalc 0) s =
    respond 0 (nextDraw (withRegs (writeCoeffs (coeffsOf (nanBits s.draws) s.regs) s.regs) s)) := by
  obtain ⟨hcutoff, hq, hsrate⟩ := h
  simp [exec, execBqCalc, hcutoff, hq, hsrate, halgo]

theorem exec_gainCalc_of_unwritten (h : isValid s.regs .gdbW = false) :
    exec (.gainCalc 0) s = raiseStatus .notConfigured s := by
  simp [exec, execGainCalc, h]

theorem exec_gainCalc_of_written (h : isValid s.regs .gdbW = true) : exec (.gainCalc 0) s =
    respond 0 (nextDraw (withRegs (writeGain (gainOf (nanBits s.draws) s.regs) s.regs) s)) := by
  simp [exec, execGainCalc, h]

theorem exec_bqClr_zero (s : State) :
    exec (.bqClr 0) s = respond 0 (withRegs (writeDelay posZero posZero s.regs) s) := rfl

theorem exec_bqProc_of_invalid (v : BitVec 32)
    (h : ¬ (isValid s.regs .coefV = true ∧ isValid s.regs .gainV = true)) :
    exec (.bqProc 0 v) s = raiseStatus .notConfigured s := by
  have hcheck : (!(isValid s.regs .coefV) || !(isValid s.regs .gainV)) = true := by
    simpa [not_and_or, -not_and] using h
  exact if_pos hcheck

theorem exec_bqProc_of_valid (v : BitVec 32) (h : isValid s.regs .coefV = true ∧ isValid s.regs .gainV = true) :
    exec (.bqProc 0 v) s = filterStep (gainedSample (nanBits s.draws) v s.regs) s := by
  obtain ⟨hcoef, hgain⟩ := h
  simp [exec, execBqProc, hcoef, hgain]

variable {x : F64}

theorem exec_bqProcr_of_not_finite (hx : ¬ finite64 x) : exec (.bqProcr 0 x) s = raiseStatus .illegalValue s := by
  have hx' : fIsFinite x = false := Bool.eq_false_iff.2 (mt fIsFinite_iff.1 hx)
  simp [exec, execBqProcr, hx']

theorem exec_bqProcr_of_invalid (hx : finite64 x) (h : isValid s.regs .coefV = false) :
    exec (.bqProcr 0 x) s = raiseStatus .notConfigured s := by
  simp [exec, execBqProcr, fIsFinite_iff.2 hx, h]

theorem exec_bqProcr_of_valid (hx : finite64 x) (h : isValid s.regs .coefV = true) :
    exec (.bqProcr 0 x) s = filterStep x s := by
  simp [exec, execBqProcr, fIsFinite_iff.2 hx, h]

end outcomes

/-! ### The obligations on each command -/

/-- Settles O33: the outcomes of `exec_bqCalc_of_written` and its companions; the drawn NaNs are quiet, and the formula is
the claims' (`coeffsOf_eq_hpf2`). -/
theorem bqCalcWritesTheHpf2Coefficients : Obligations.BqCalcWritesTheHpf2Coefficients := by
  refine fun rsvd s => ⟨fun w => decode_word (i := .bqCalc rsvd) rfl, ?_, fun hne => ?_, ?_, ?_⟩
  · rintro rfl hwritten halgo
    refine ⟨nanBits s.draws, quietNaNs_nanBits _, ?_⟩
    rw [exec_bqCalc_of_written hwritten halgo, ← validSet_coefV, ← coeffsOf_eq_hpf2]
    exact respond_nextDraw_endsWith 0 (writeCoeffs _ s.regs) s
  · exact exec_failsWith_of_reservedZero_eq_false (i := .bqCalc rsvd) (beq_eq_false_iff_ne.2 hne) s
  · rintro rfl hunwritten
    rw [exec_bqCalc_of_unwritten hunwritten]
    exact raiseStatus_failsWith .notConfigured s
  · rintro rfl hwritten halgo
    rw [exec_bqCalc_of_otherAlgo hwritten halgo]
    exact raiseStatus_failsWith .notImplemented s

/-- Settles O35: the outcomes of GAIN_CALC. -/
theorem gainCalcWritesTheLinearGain : Obligations.GainCalcWritesTheLinearGain := by
  refine fun rsvd s => ⟨fun w => decode_word (i := .gainCalc rsvd) rfl, ?_, fun hne => ?_, ?_⟩
  · rintro rfl hwritten
    refine ⟨nanBits s.draws, quietNaNs_nanBits _, ?_⟩
    rw [exec_gainCalc_of_written hwritten, ← validSet_gainV]
    exact respond_nextDraw_endsWith 0 (writeGain (gainOf (nanBits s.draws) s.regs) s.regs) s
  · exact exec_failsWith_of_reservedZero_eq_false (i := .gainCalc rsvd) (beq_eq_false_iff_ne.2 hne) s
  · rintro rfl hunwritten
    rw [exec_gainCalc_of_unwritten hunwritten]
    exact raiseStatus_failsWith .notConfigured s

/-- Settles O36: BQ_CLR writes S0 and S1 only. -/
theorem bqClrClearsTheDelayRegisters : Obligations.BqClrClearsTheDelayRegisters := by
  refine fun rsvd s => ⟨fun w => decode_word (i := .bqClr rsvd) rfl, ?_, fun hne => ?_⟩
  · rintro rfl
    rw [exec_bqClr_zero]
    exact respond_endsWith 0 (writeDelay posZero posZero s.regs) s
  · exact exec_failsWith_of_reservedZero_eq_false (i := .bqClr rsvd) (beq_eq_false_iff_ne.2 hne) s

/-- BQ_PROC takes WDATA[31:0] whatever WDATA[63:32] holds (R86, R87). -/
theorem decode_bqProc_word (rsvd : BitVec 24) (h v : BitVec 32) :
    decode ⟨word 0x23 rsvd, h ++ v⟩ = .instr (.bqProc rsvd v) :=
  decode_word (i := .bqProc rsvd v) (congrArg (Instr.bqProc _)
    (BitVec.extractLsb'_append_eq_right.trans (extractLsb'_signExtend_low v).symm))

/-- Settles O37: with valid coefficients and gain BQ_PROC is FILTER_STEP of the sample after gain
(`filterStep_endsWith`). -/
theorem bqProcGainsThenFilters : Obligations.BqProcGainsThenFilters := by
  refine fun rsvd v s => ⟨fun h => decode_bqProc_word rsvd h v, ?_, fun hne => ?_, ?_⟩
  · rintro rfl hvalid
    refine ⟨nanBits s.draws, quietNaNs_nanBits _, ?_⟩
    rw [exec_bqProc_of_valid v hvalid]
    exact filterStep_endsWith (gainedSample (nanBits s.draws) v s.regs) s
  · exact exec_failsWith_of_reservedZero_eq_false (i := .bqProc rsvd v) (beq_eq_false_iff_ne.2 hne) s
  · rintro rfl hinvalid
    rw [exec_bqProc_of_invalid v hinvalid]
    exact raiseStatus_failsWith .notConfigured s

/-- Settles O38: with valid coefficients BQ_PROCR is FILTER_STEP of WDATA (`filterStep_endsWith`). -/
theorem bqProcrFiltersWithoutGain : Obligations.BqProcrFiltersWithoutGain := by
  refine fun rsvd x s => ⟨decode_word (i := .bqProcr rsvd x) rfl, ?_, fun hne => ?_, ?_, ?_⟩
  · rintro rfl hx hvalid
    refine ⟨nanBits s.draws, quietNaNs_nanBits _, ?_⟩
    rw [exec_bqProcr_of_valid hx hvalid]
    exact filterStep_endsWith x s
  · exact exec_failsWith_of_reservedZero_eq_false (i := .bqProcr rsvd x) (beq_eq_false_iff_ne.2 hne) s
  · rintro rfl hx
    rw [exec_bqProcr_of_not_finite hx]
    exact raiseStatus_failsWith .illegalValue s
  · rintro rfl hx hinvalid
    rw [exec_bqProcr_of_invalid hx hinvalid]
    exact raiseStatus_failsWith .notConfigured s

/-! ### Two runs whose registers differ (R110, R158) -/

/-- A check that decides the same in both runs, if the relation outlasts the recording of a status. -/
theorem guard_agree_of_logError {R : Regs → Regs → Prop} {s : State} {q : Regs}
    (hlog : ∀ k, R (logError k s.regs) (logError k q)) {c c' : Prop} [Decidable c] [Decidable c'] (hc : c' ↔ c)
    {k : Status} {o o' : Result} (ho : Agree R o o') :
    Agree R (if c then raiseStatus k s else o) (if c' then raiseStatus k (withRegs q s) else o') := by
  by_cases hcase : c
  · rw [if_pos hcase, if_pos (hc.2 hcase)]
    exact ⟨_, _, rfl, rfl, hlog k⟩
  · rw [if_neg hcase, if_neg (mt hc.1 hcase)]
    exact ho

/-- Two agreeing runs of a command, in the claims' words. -/
theorem Agree.endsWith {R : Regs → Regs → Prop} {i : Instr} {s : State} {q : Regs}
    (h : Agree R (exec i s) (exec i (withRegs q s))) : ∃ r r' x,
      endsWith (exec i s) s r x ∧ endsWith (exec i (withRegs q s)) s r' x ∧ R r r' := by
  obtain ⟨u, r', hu, hu', hrel⟩ := h
  obtain ⟨r, x, d, hrxd⟩ := exec_cases i s
  obtain rfl : u = _ := by simpa [hu] using hrxd
  exact ⟨r, r', x, ⟨d, hu⟩, ⟨d, hu'⟩, hrel⟩

/-! #### Another QREG -/

theorem effectiveQ_of_nonpositive {q : F64} (hfin : finite64 q) (h : q.getLsbD 63 = true ∨ q = 0) :
    effectiveQ q = qDefault := by
  refine if_pos ?_
  obtain hneg | rfl := h
  · have hsign : fSign q = true := hneg
    simp [fLeZero, fIsNaN_of_finite (fIsFinite_iff.2 hfin), hsign]
  · decide

theorem effectiveQ_qDefault : effectiveQ qDefault = qDefault := ite_self _

/-- The registers with another QREG. -/
def withQreg (q : F64) (r : Regs) : Regs := { r with qreg := q }

theorem coeffsOf_withQreg {q : F64} {r : Regs} (h : effectiveQ q = effectiveQ r.qreg) (nan : Nat → F64) :
    coeffsOf nan (withQreg q r) = coeffsOf nan r := by
  unfold coeffsOf withQreg
  rw [h]

/-- The two register files hold the same coefficients. -/
def SameCoeffs (r r' : Regs) : Prop := coeffsIn r = coeffsIn r'

/-- BQ_CALC depends on QREG through the effective Q. -/
theorem bqCalc_agree_of_effectiveQ {s : State} {q : F64} (h : effectiveQ q = effectiveQ s.regs.qreg)
    (rsvd : BitVec 24) :
    Agree SameCoeffs (exec (.bqCalc rsvd) s) (exec (.bqCalc rsvd) (withRegs (withQreg q s.regs) s)) := by
  have hlog (k : Status) : SameCoeffs (logError k s.regs) (logError k (withQreg q s.regs)) := rfl
  refine guard_agree_of_logError hlog Iff.rfl <| guard_agree_of_logError hlog Iff.rfl <|
    guard_agree_of_logError hlog Iff.rfl ?_
  rw [withRegs_regs, coeffsOf_withQreg h]
  exact ⟨_, _, rfl, rfl, rfl⟩

/-- Settles O34: the effective Q is that of 0.707, and BQ_CALC depends on QREG through it only
(`bqCalc_agree_of_effectiveQ`). -/
theorem nonpositiveQCountsAsDefaultQ : Obligations.NonpositiveQCountsAsDefaultQ := by
  intro s u v hfin hq hu hv
  obtain ⟨u', q', hu', hv', hcoeffs⟩ := bqCalc_agree_of_effectiveQ (s := s) (q := qDefault)
    (by rw [effectiveQ_qDefault, effectiveQ_of_nonpositive hfin hq]) 0
  obtain rfl : u = u' := Host.Outcome.next.inj (hu.symm.trans hu')
  obtain rfl : v = withRegs q' u := Host.Outcome.next.inj (hv.symm.trans hv')
  obtain ⟨-, hparams, -⟩ := onlyTheNamedCommandsWriteARegister _ _ _ hu
  obtain ⟨-, -, hqreg, -⟩ := hparams (by decide)
  exact ⟨hcoeffs, hqreg⟩

/-! #### The other unit's registers -/

/-- The two register files hold the same PRED and SIDX. -/
def SameAdpcm (r r' : Regs) : Prop := r.pred = r'.pred ∧ r.sidx = r'.sidx

theorem SameAdpcm.nibbleSample_eq {r r' : Regs} (h : SameAdpcm r r') (t : Vector Nat 49) (n : Nibble) :
    nibbleSample t n r' = nibbleSample t n r := by
  obtain ⟨hpred, hsidx⟩ := h
  rw [nibbleSample, ← hpred, ← hsidx, nibbleSample]

theorem SameAdpcm.nibbleRegs {r r' : Regs} (h : SameAdpcm r r') (t : Vector Nat 49) (n : Nibble) :
    SameAdpcm (nibbleRegs t n r) (nibbleRegs t n r') := by
  obtain ⟨hpred, hsidx⟩ := h
  simp [SameAdpcm, Machine.nibbleRegs, hpred, hsidx]

/-- An ADPCM command reads no register but PRED and SIDX. -/
theorem adpcm_agree {i : Instr} (hop : opcodeOf i ∈ [.adInit, .adNib, .adByte]) {s : State} {q : Regs}
    (h : SameAdpcm s.regs q) : Agree SameAdpcm (exec i s) (exec i (withRegs q s)) := by
  cases i with
  | adInit rsvd =>
    refine guard_agree_of_logError (fun _ => h) Iff.rfl ?_
    exact respond_agree 0 (s := withRegs (writeAdpcm 0 0 s.regs) s) (q := writeAdpcm 0 0 q) ⟨rfl, rfl⟩
  | adNib rsvd n =>
    refine guard_agree_of_logError (fun _ => h) Iff.rfl ?_
    rw [withRegs_regs, h.nibbleSample_eq]
    exact respond_agree _ (s := withRegs (nibbleRegs s.stepTable n s.regs) s) (h.nibbleRegs _ n)
  | adByte rsvd b =>
    refine guard_agree_of_logError (fun _ => h) Iff.rfl ?_
    have hhigh := h.nibbleRegs s.stepTable (highNibble b)
    simp only [withRegs_regs, withRegs_stepTable, h.nibbleSample_eq, hhigh.nibbleSample_eq]
    exact respond_agree _ (s := withRegs (nibbleRegs s.stepTable (lowNibble b) _) s) (hhigh.nibbleRegs _ (lowNibble b))
  | _ => simp [opcodeOf] at hop

/-- The second register file is the first with PRED and SIDX set to `p` and `si`. -/
def OtherAdpcm (p si : BitVec 16) (r r' : Regs) : Prop := r' = writeAdpcm p si r

/-- A biquad command neither reads nor writes PRED and SIDX. -/
theorem biquad_agree {i : Instr} (hop : opcodeOf i ∈ [.bqCalc, .gainCalc, .bqClr, .bqProc, .bqProcr])
    (p si : BitVec 16) (s : State) :
    Agree (OtherAdpcm p si) (exec i s) (exec i (withRegs (writeAdpcm p si s.regs) s)) := by
  have hlog (k : Status) : OtherAdpcm p si (logError k s.regs) (logError k (writeAdpcm p si s.regs)) := rfl
  cases i with
  | bqCalc rsvd =>
    exact guard_agree_of_logError hlog Iff.rfl <| guard_agree_of_logError hlog Iff.rfl <|
      guard_agree_of_logError hlog Iff.rfl ⟨_, _, rfl, rfl, rfl⟩
  | gainCalc rsvd =>
    exact guard_agree_of_logError hlog Iff.rfl <| guard_agree_of_logError hlog Iff.rfl ⟨_, _, rfl, rfl, rfl⟩
  | bqClr rsvd => exact guard_agree_of_logError hlog Iff.rfl ⟨_, _, rfl, rfl, rfl⟩
  | bqProc rsvd v =>
    exact guard_agree_of_logError hlog Iff.rfl <| guard_agree_of_logError hlog Iff.rfl ⟨_, _, rfl, rfl, rfl⟩
  | bqProcr rsvd x =>
    exact guard_agree_of_logError hlog Iff.rfl <| guard_agree_of_logError hlog Iff.rfl <|
      guard_agree_of_logError hlog Iff.rfl ⟨_, _, rfl, rfl, rfl⟩
  | _ => simp [opcodeOf] at hop

/-- Settles O52: each unit's two runs are compared by `adpcm_agree` and `biquad_agree`. -/
theorem theTwoUnitsAreIndependent : Obligations.TheTwoUnitsAreIndependent := by
  refine fun i s q p si => ⟨fun hop hpred hsidx => ?_, fun hop => ?_⟩
  · exact (adpcm_agree hop (s := s) (q := q) ⟨hpred.symm, hsidx.symm⟩).endsWith
  · obtain ⟨r, _, x, hrun, hrun', rfl⟩ := (biquad_agree hop p si s).endsWith
    exact ⟨r, x, hrun, hrun'⟩

end Sys2Proof.Machine
end

section
/-! SUPPORT. What R159's formula and FILTER_STEP give where every operation is exact (spec/42_biquad.md R160, R162, R167):
the laws of the coefficients, the first output after BQ_CLR, and the filter of cutoff +0.0. -/

namespace Sys2Proof.Machine

open Claims

/-! ### Laws of the coefficients (R167) -/

theorem fVal_fMul_twoF {nan x : F64} (hx : fIsFinite x = true) (hfin : fIsFinite (fMul nan twoF x) = true) :
    fVal (fMul nan twoF x) = 2 * fVal x := fVal_fMul_two rfl fMag_twoF hx hfin

theorem fVal_fMul_negTwoF {nan x : F64} (hx : fIsFinite x = true) (hfin : fIsFinite (fMul nan negTwoF x) = true) :
    fVal (fMul nan negTwoF x) = -2 * fVal x := fVal_fMul_two rfl fMag_negTwoF hx hfin

/-- a + (-2a) + a is exactly zero, each of its two sums being exact. -/
theorem fVal_fAdd_doubled_eq_zero {n1 n2 a b : F64} (ha : fIsFinite a = true) (hb : fIsFinite b = true)
    (hab : fVal b = -2 * fVal a) : fVal (fAdd n1 (fAdd n2 a b) a) = 0 := by
  have hneg : fIsFinite (fNeg a) = true := by rwa [fIsFinite_fNeg]
  obtain ⟨hfin, hval⟩ := fVal_fAdd_exact (nan := n2) ha hb hneg (by rw [fVal_fNeg, hab]; ring)
  obtain ⟨-, hsum⟩ := fVal_fAdd_exact (nan := n1) (w := posZero) hfin ha rfl
    (by rw [hval, fVal_fNeg, neg_add_cancel]; rfl)
  exact hsum

/-- Settles O46: products by 2.0 and -2.0 are exact (`fVal_fMul_two`), and so are the two sums
(`fVal_fAdd_doubled_eq_zero`). -/
theorem coefficientsObeyTheirLaws : Obligations.CoefficientsObeyTheirLaws := by
  intro sin cos nan n1 n2 c fs qe k beta gamma
  simp only [← fIsFinite_iff]
  refine ⟨rfl, rfl, rfl, fun ha0 ha1 => ?_, fVal_fMul_negTwoF, fVal_fMul_twoF⟩
  have hdouble : fVal k.a1 = -2 * fVal k.a0 := fVal_fMul_negTwoF ha0 ha1
  exact ⟨hdouble, fVal_fAdd_doubled_eq_zero ha0 ha1 hdouble⟩

/-! ### The first output after BQ_CLR (R167) -/

theorem fVal_oneF_ne_zero : fVal oneF ≠ 0 := by
  rw [Ne, fVal_eq_zero_iff, fMag_oneF]
  exact oneUnits_pos.ne'

theorem fAdd_fMul_posZero {n m x b : F64} (hx : fIsFinite x = true) (hx0 : fVal x ≠ 0) (hb : fIsFinite b = true) :
    fAdd n x (fMul m b posZero) = x := by
  obtain ⟨hfin, hzero⟩ := fMul_zero_right (nan := m) (z := posZero) hb rfl rfl
  exact fAdd_zero_right hx hx0 hfin hzero

theorem fSub_fMul_posZero {n m x b : F64} (hx : fIsFinite x = true) (hx0 : fVal x ≠ 0) (hb : fIsFinite b = true) :
    fSub n x (fMul m b posZero) = x := by
  obtain ⟨hfin, hzero⟩ := fMul_zero_right (nan := m) (z := posZero) hb rfl rfl
  exact fSub_zero_right hx hx0 hfin hzero

section cleared
variable {r : Regs} {nan : Nat → F64}

/-- With zero delay registers the feedback leaves the input as it is. -/
theorem filterWn_oneF_of_cleared (hb1 : fIsFinite r.b1 = true) (hb2 : fIsFinite r.b2 = true) :
    filterWn nan oneF (writeDelay posZero posZero r) = oneF := by
  simp only [filterWn, writeDelay_s0, writeDelay_s1, writeDelay_b1, writeDelay_b2]
  rw [fSub_fMul_posZero rfl fVal_oneF_ne_zero hb1, fSub_fMul_posZero rfl fVal_oneF_ne_zero hb2]

/-- With zero delay registers yn for wn = 1.0 is A0. -/
theorem filterYn_oneF_of_cleared (ha0 : fIsFinite r.a0 = true) (hne : fVal r.a0 ≠ 0) (ha1 : fIsFinite r.a1 = true)
    (ha2 : fIsFinite r.a2 = true) : filterYn nan oneF (writeDelay posZero posZero r) = r.a0 := by
  simp only [filterYn, writeDelay_s0, writeDelay_s1, writeDelay_a0, writeDelay_a1, writeDelay_a2]
  rw [fMul_oneF_right ha0, fAdd_fMul_posZero ha0 hne ha1, fAdd_fMul_posZero ha0 hne ha2]

theorem filterOut_oneF_of_cleared (hc0 : r.c0 = oneF) (hd0 : r.d0 = posZero) (ha0 : fIsFinite r.a0 = true)
    (hne : fVal r.a0 ≠ 0) (ha1 : fIsFinite r.a1 = true) (ha2 : fIsFinite r.a2 = true) (hb1 : fIsFinite r.b1 = true)
    (hb2 : fIsFinite r.b2 = true) : filterOut nan oneF (writeDelay posZero posZero r) = r.a0 := by
  rw [filterOut, filterWn_oneF_of_cleared hb1 hb2, filterYn_oneF_of_cleared ha0 hne ha1 ha2, writeDelay_c0,
    writeDelay_d0, hc0, hd0, fMul_oneF_right rfl, fMul_oneF_left ha0, fAdd_zero_left ha0 hne rfl rfl]

end cleared

/-- Settles O47: BQ_CLR leaves zero delay registers, and BQ_PROCR's output is then `filterOut_oneF_of_cleared`. -/
theorem firstOutputAfterClearIsA0 : Obligations.FirstOutputAfterClearIsA0 := by
  intro s u v hvalid hc0 hd0 ha0 hne ha1 ha2 hb1 hb2 hu hv
  rw [← fIsFinite_iff] at ha0 ha1 ha2 hb1 hb2
  have hone : finite64 oneF := fIsFinite_iff.1 rfl
  have hclr : u = reply ⟨0, 0⟩ (withRegs (writeDelay posZero posZero s.regs) s) := respond_eq_next hu
  have hvalid' : isValid u.regs .coefV = true := by rw [hclr]; exact hvalid
  have hproc : filterStep oneF u = .next v := (exec_bqProcr_of_valid hone hvalid').symm.trans hv
  rw [respond_eq_next hproc, hclr]
  simp only [reply_responses, nextDraw_responses, withRegs_responses, reply_regs, withRegs_regs]
  rw [filterOut_oneF_of_cleared hc0 hd0 ha0 hne ha1 ha2 hb1 hb2]

/-! ### The filter of cutoff +0.0 (R160) -/

theorem fMul_twoF_piF (n : F64) : fMul n twoF piF = 0x401921FB54442D18 := by
  have hdouble : 2 * fMag piF = fMag 0x401921FB54442D18 := by decide +kernel
  exact fMul_exact rfl rfl rfl rfl (by rw [fMag_twoF, mul_right_comm, hdouble])

section zeroCutoff
variable {nan : Nat → F64} {fs d qe k : F64}

/-- theta is +0: 2 PI is finite, its product by +0 is +0, and so is the quotient by a positive sample rate. -/
theorem hpf2Theta_of_zero (hfs : fIsFinite fs = true) (hfs0 : fVal fs ≠ 0) (hsign : fSign fs = false) :
    hpf2Theta nan posZero fs = posZero := by
  have hzero : fMul (nan 1) 0x401921FB54442D18 posZero = posZero :=
    fMul_eq_zero rfl rfl (mul_eq_zero_of_right _ rfl)
  rw [hpf2Theta, fMul_twoF_piF, hzero, fDiv_of_zero rfl hfs rfl hfs0, hsign]
  rfl

theorem fIsFinite_fDiv_twoF {n : F64} (hd : fIsFinite d = true) : fIsFinite (fDiv n d twoF) = true := by
  have hpos := oneUnits_pos
  have htwo : fVal twoF ≠ 0 := by
    rw [Ne, fVal_eq_zero_iff, fMag_twoF]
    omega
  rw [fDiv_of_finite hd rfl htwo, fMag_twoF, fIsFinite_fRound (by omega)]
  exact Nat.mul_lt_mul_of_lt_of_le (fMag_lt_overflowUnits hd) (by omega) (by omega)

/-- k is a zero, where d = 1/q does not overflow. -/
theorem hpf2K_of_zero (hd : fIsFinite (fDiv (nan 3) oneF qe) = true) :
    fIsFinite (hpf2K nan posZero qe) = true ∧ fVal (hpf2K nan posZero qe) = 0 :=
  fMul_zero_right (fIsFinite_fDiv_twoF hd) rfl rfl

theorem hpf2Beta_of_zero (hk : fIsFinite k = true) (hk0 : fVal k = 0) : hpf2Beta nan k = halfF := by
  rw [hpf2Beta, fSub_zero_right rfl fVal_oneF_ne_zero hk hk0, fAdd_zero_right rfl fVal_oneF_ne_zero hk hk0,
    fMul_oneF_right rfl, fDiv_oneF_right rfl]

theorem fAdd_halfF_halfF (n : F64) : fAdd n halfF halfF = oneF :=
  fAdd_exact rfl rfl rfl (by decide +kernel) fVal_oneF_ne_zero

theorem fAdd_oneF_oneF (n : F64) : fAdd n oneF oneF = twoF :=
  fAdd_exact rfl rfl rfl (by decide +kernel) (by decide +kernel)

theorem hpf2Gamma_halfF_oneF : hpf2Gamma nan halfF oneF = oneF := by
  rw [hpf2Gamma, fAdd_halfF_halfF, fMul_oneF_right rfl]

theorem hpf2Alpha_halfF_oneF : hpf2Alpha nan halfF oneF = oneF := by
  have hmag : fMag twoF ≠ 0 := by decide +kernel
  rw [hpf2Alpha, fAdd_halfF_halfF, fAdd_oneF_oneF,
    fDiv_exact rfl rfl (w := oneF) rfl rfl hmag (by rw [fMag_oneF, mul_comm])]

theorem hpf2Mix_oneF_halfF_oneF :
    hpf2Mix nan oneF halfF oneF = ⟨oneF, negTwoF, oneF, negTwoF, oneF, oneF, posZero⟩ := by
  have hb2 : fMul (nan 17) twoF halfF = oneF :=
    fMul_exact rfl rfl rfl rfl (by rw [fMag_twoF, fMag_oneF, mul_right_comm, two_mul_fMag_halfF])
  simp only [hpf2Mix, fMul_oneF_right (x := negTwoF) rfl, hb2]

/-- The coefficients at CUTOFF +0.0, from sin(+0) = +0 and cos(+0) = 1 on. -/
theorem coeffsHpf2_of_zero_cutoff (hfs : fIsFinite fs = true) (hfs0 : fVal fs ≠ 0) (hsign : fSign fs = false)
    (hd : fIsFinite (fDiv (nan 3) oneF qe) = true) :
    coeffsHpf2 nan posZero fs qe = ⟨oneF, negTwoF, oneF, negTwoF, oneF, oneF, posZero⟩ := by
  have hsin : sin64 posZero = posZero := rfl
  have hcos : cos64 posZero = oneF := rfl
  obtain ⟨hk, hk0⟩ := hpf2K_of_zero hd
  simp only [coeffsHpf2, coeffsHpf2With, hpf2Theta_of_zero hfs hfs0 hsign, hsin, hcos, hpf2Beta_of_zero hk hk0,
    hpf2Gamma_halfF_oneF, hpf2Alpha_halfF_oneF, hpf2Mix_oneF_halfF_oneF]

end zeroCutoff

/-- The effective Q of a finite Q is finite and not zero (R158). -/
theorem effectiveQ_finite {q : F64} (h : fIsFinite q = true) :
    fIsFinite (effectiveQ q) = true ∧ fVal (effectiveQ q) ≠ 0 := by
  unfold effectiveQ
  split
  · exact ⟨rfl, by decide +kernel⟩
  · next hpos =>
    refine ⟨h, fun hzero => hpos ?_⟩
    simp [fLeZero, fIsNaN_of_finite h, fIsZero_eq_decide, hzero]

/-- A written sample rate as binary64 is exact, finite and positive (R154). -/
theorem fOfInt_srate {n : BitVec 32} (h : n ≠ 0) : fIsFinite (fOfInt (n.toNat : Int)) = true ∧
    fVal (fOfInt (n.toNat : Int)) ≠ 0 ∧ fSign (fOfInt (n.toNat : Int)) = false := by
  have hle : (n.toNat : Int).natAbs ≤ 2 ^ 53 := by have := n.isLt; omega
  have hne : (n.toNat : Int) ≠ 0 := by simpa [BitVec.toNat_eq] using h
  have hunits : (oneUnits : Int) ≠ 0 := by exact_mod_cast oneUnits_pos.ne'
  refine ⟨fIsFinite_fOfInt hle, ?_, by simp⟩
  rw [fVal_fOfInt hle]
  exact mul_ne_zero hne hunits

/-- Settles O48: at CUTOFF +0.0 every operation of the formula is exact (`coeffsHpf2_of_zero_cutoff`). -/
theorem zeroCutoffGivesTheIdentityFilter : Obligations.ZeroCutoffGivesTheIdentityFilter := by
  intro s u n hcutoffW hqW hsrateW halgo hsrate hcutoff hq hd hu
  rw [← fIsFinite_iff] at hq hd
  obtain ⟨hqe, hqe0⟩ := effectiveQ_finite hq
  obtain ⟨hfs, hfs0, hsign⟩ := fOfInt_srate hsrate
  have hd' : fIsFinite (fDiv (nanBits s.draws 3) oneF (effectiveQ s.regs.qreg)) = true := by
    rw [fDiv_eq_of_finite (m := n) (x := oneF) rfl hqe hqe0]
    exact hd
  obtain rfl := respond_eq_next ((exec_bqCalc_of_written ⟨hcutoffW, hqW, hsrateW⟩ halgo).symm.trans hu)
  have hcoeffs := coeffsHpf2_of_zero_cutoff hfs hfs0 hsign hd'
  show coeffsOf (nanBits s.draws) s.regs = _
  rw [coeffsOf, hcutoff]
  exact hcoeffs

end Sys2Proof.Machine
end

section
/-! SUPPORT. The control commands (spec/43_control.md R200 to R209): the register numbers of REG_WR and REG_RD by what
the register is (writable, read-only, covered by a field of VALID), the outcome of each command per check it makes, and
what a parameter write invalidates. -/

namespace Sys2Proof.Machine

open Claims

/-! ### NOP and RESET (R200, R209) -/

theorem exec_nop_zero (s : State) : exec (.nop 0) s = respond 0 s := rfl

theorem exec_reset_zero (s : State) : exec (.reset 0) s = respond 0 (withRegs regsReset s) := rfl

/-- Settles O21: NOP responds and nothing else. -/
theorem nopDoesNothing : Obligations.NopDoesNothing := by
  refine fun rsvd s => ⟨fun w => decode_word (i := .nop rsvd) rfl, ?_, fun hne => ?_⟩
  · rintro rfl
    rw [exec_nop_zero]
    exact respond_endsWith 0 s.regs s
  · exact exec_failsWith_of_reservedZero_eq_false (i := .nop rsvd) (beq_eq_false_iff_ne.2 hne) s

/-- Settles O25: RESET leaves the reset values of R41. -/
theorem resetCommandResetsEveryRegister : Obligations.ResetCommandResetsEveryRegister := by
  refine fun rsvd s => ⟨fun w => decode_word (i := .reset rsvd) rfl, ?_, fun hne => ?_⟩
  · rintro rfl
    rw [exec_reset_zero]
    exact ⟨regsReset, respond_endsWith 0 regsReset s, rfl, rfl, rfl, rfl, rfl, rfl, rfl⟩
  · exact exec_failsWith_of_reservedZero_eq_false (i := .reset rsvd) (beq_eq_false_iff_ne.2 hne) s

/-! ### Register numbers by what the register is (R84) -/

/-- The register a parameter is. -/
def regOfParam : Param → Reg
  | .algo => .algo
  | .cutoff => .cutoff
  | .qreg => .qreg
  | .srate => .srate
  | .gainDb => .gainDb

@[simp] theorem paramOf_regOfParam (p : Param) : paramOf (regOfParam p) = some p := by cases p <;> rfl

/-- The register number of a parameter. -/
abbrev rselOfParam (p : Param) : BitVec 8 := rselOfReg (regOfParam p)

theorem reservedRsel_of_unlisted : ∀ b : BitVec 8, regOfRsel b = none → reservedRsel b.toNat := by
  unfold reservedRsel
  decide

/-- A register number that is not reserved names a register. -/
theorem exists_rselOfReg {b : BitVec 8} (h : ¬ reservedRsel b.toNat) : ∃ x, rselOfReg x = b := by
  obtain ⟨x, hx⟩ := Option.ne_none_iff_exists'.1 (mt (reservedRsel_of_unlisted b) h)
  exact ⟨x, rselOfReg_of_regOfRsel hx⟩

theorem exists_readOnly_of_readOnlyRsel {b : BitVec 8} (h : readOnlyRsel b.toNat) :
    ∃ x, rselOfReg x = b ∧ paramOf x = none := by
  obtain ⟨x, rfl⟩ := exists_rselOfReg (b := b) (by unfold readOnlyRsel at h; unfold reservedRsel; omega)
  refine ⟨x, rfl, ?_⟩
  revert h
  cases x <;> simp [readOnlyRsel, rselOfReg, paramOf]

theorem exists_rselOfParam {b : BitVec 8} (hlo : 0x08 ≤ b.toNat) (hhi : b.toNat ≤ 0x0C) :
    ∃ p, rselOfParam p = b := by
  obtain ⟨x, rfl⟩ := exists_rselOfReg (b := b) (by unfold reservedRsel; omega)
  cases x with
  | algo => exact ⟨.algo, rfl⟩
  | cutoff => exact ⟨.cutoff, rfl⟩
  | qreg => exact ⟨.qreg, rfl⟩
  | srate => exact ⟨.srate, rfl⟩
  | gainDb => exact ⟨.gainDb, rfl⟩
  | pred | sidx => exact absurd hlo (by decide)
  | _ => exact absurd hhi (by decide)

theorem exists_coefficient {b : BitVec 8} (hlo : 0x10 ≤ b.toNat) (hhi : b.toNat ≤ 0x16) :
    ∃ x, rselOfReg x = b ∧ coveredBy x = some .coefV := by
  obtain ⟨x, rfl⟩ := exists_rselOfReg (b := b) (by unfold reservedRsel; omega)
  refine ⟨x, rfl, ?_⟩
  cases x with
  | a0 | a1 | a2 | b1 | b2 | c0 | d0 => rfl
  | s0 | s1 | gainLin | errlog | valid => exact absurd hhi (by decide)
  | _ => exact absurd hlo (by decide)

/-- The claims' legal values are the model's (R202 to R204). -/
theorem legalFor_rselOfParam_iff {p : Param} {w : Word64} : legalFor (rselOfParam p) w ↔ legalValue p w = true := by
  cases p <;> simp [legalFor, rselOfParam, regOfParam, rselOfReg, legalValue, fIsFinite_iff]

theorem exists_param_of_legalFor {rsel : BitVec 8} {w : Word64} (h : legalFor rsel w) :
    ∃ p, rselOfParam p = rsel ∧ legalValue p w = true := by
  have hrange : 0x08 ≤ rsel.toNat ∧ rsel.toNat ≤ 0x0C := by
    obtain ⟨rfl, -⟩ | ⟨rfl, -⟩ | ⟨rfl, -⟩ | ⟨rfl, -⟩ | ⟨rfl, -⟩ := h <;> decide
  obtain ⟨p, rfl⟩ := exists_rselOfParam hrange.1 hrange.2
  exact ⟨p, rfl, legalFor_rselOfParam_iff.1 h⟩

/-! ### REG_WR per check it makes (R201) -/

section write
variable {p : Param} {w : Word64} {s : State}

theorem exec_regWr_of_readOnly {x : Reg} (hx : paramOf x = none) (w : Word64) (s : State) :
    exec (.regWr (rselOfReg x) 0 w) s = raiseStatus .readOnly s := by
  simp [exec, execRegWr, hx]

theorem exec_regWr_of_illegal (hw : ¬ legalValue p w = true) :
    exec (.regWr (rselOfParam p) 0 w) s = raiseStatus .illegalValue s := by
  simp [exec, execRegWr, hw]

theorem exec_regWr_of_legal (hw : legalValue p w = true) :
    exec (.regWr (rselOfParam p) 0 w) s = respond 0 (withRegs (writeParam p w s.regs) s) := by
  simp [exec, execRegWr, hw]

theorem exec_regWr_endsWith (hw : legalValue p w = true) :
    endsWith (exec (.regWr (rselOfParam p) 0 w) s) s (writeParam p w s.regs) ⟨0, 0⟩ := by
  rw [exec_regWr_of_legal hw]
  exact respond_endsWith 0 _ s

theorem regs_of_exec_regWr {u : State} (hw : legalValue p w = true)
    (h : exec (.regWr (rselOfParam p) 0 w) s = .next u) : u.regs = writeParam p w s.regs := by
  rw [exec_regWr_of_legal hw] at h
  rw [respond_eq_next h, reply_regs, withRegs_regs]

end write

/-- Settles O22: the outcomes of REG_WR; every register number is reserved, read-only or a parameter's. -/
theorem regWrStoresLegalValuesOnly : Obligations.RegWrStoresLegalValuesOnly := by
  refine fun rsel rsvd w s =>
    ⟨decode_word (i := .regWr rsel rsvd w) rfl, ?_, ?_, ?_, ?_, ?_, fun hne => ?_, ?_, ?_, ?_⟩
  · rintro rfl rfl hw
    exact exec_regWr_endsWith (p := .algo) (decide_eq_true hw)
  · rintro rfl rfl hw
    exact exec_regWr_endsWith (p := .cutoff) (fIsFinite_iff.2 hw)
  · rintro rfl rfl hw
    exact exec_regWr_endsWith (p := .qreg) (fIsFinite_iff.2 hw)
  · rintro rfl rfl hw
    exact exec_regWr_endsWith (p := .srate) (decide_eq_true hw)
  · rintro rfl rfl hw
    exact exec_regWr_endsWith (p := .gainDb) (fIsFinite_iff.2 hw)
  · exact exec_failsWith_of_reservedZero_eq_false (i := .regWr rsel rsvd w) (beq_eq_false_iff_ne.2 hne) s
  · rintro rfl hreserved
    rw [exec_regWr_of_unlisted (regOfRsel_of_reservedRsel hreserved)]
    exact raiseStatus_failsWith .illegalReg s
  · rintro rfl hreadOnly
    obtain ⟨x, rfl, hx⟩ := exists_readOnly_of_readOnlyRsel hreadOnly
    rw [exec_regWr_of_readOnly hx]
    exact raiseStatus_failsWith .readOnly s
  · rintro rfl hlo hhi hillegal
    obtain ⟨p, rfl⟩ := exists_rselOfParam hlo hhi
    rw [exec_regWr_of_illegal (mt legalFor_rselOfParam_iff.2 hillegal)]
    exact raiseStatus_failsWith .illegalValue s

/-! ### Writing twice (R68) -/

theorem validClear_validClear (v : Word64) (f : ValidField) : validClear (validClear v f) f = validClear v f := by
  simp [validClear, BitVec.and_assoc]

/-- Setting one field and clearing another, twice. -/
theorem validClear_validSet_idem (v : Word64) (f g : ValidField) :
    validClear (validSet (validClear (validSet v f) g) f) g = validClear (validSet v f) g := by
  refine BitVec.eq_of_getLsbD_eq fun i _ => ?_
  simp only [validClear_getLsbD, validSet_getLsbD]
  cases decide (i = validBit f) <;> simp

theorem writeEffects_writeEffects (p : Param) (v : Word64) : writeEffects p (writeEffects p v) = writeEffects p v := by
  cases p with
  | algo => exact validClear_validClear v .coefV
  | cutoff => exact validClear_validSet_idem v .cutoffW .coefV
  | qreg => exact validClear_validSet_idem v .qW .coefV
  | srate => exact validClear_validSet_idem v .srateW .coefV
  | gainDb => exact validClear_validSet_idem v .gdbW .gainV

theorem writeParam_writeParam (p : Param) (w : Word64) (r : Regs) :
    writeParam p w (writeParam p w r) = writeParam p w r := by
  cases p <;> simp [writeParam, storeParam, writeEffects_writeEffects]

/-- Settles O23: both writes succeed, and the second finds what it would store (`writeParam_writeParam`). -/
theorem regWrIsIdempotent : Obligations.RegWrIsIdempotent := by
  intro rsel w s u v hlegal hu hv
  obtain ⟨p, rfl, hw⟩ := exists_param_of_legalFor hlegal
  calc v.regs
    _ = writeParam p w u.regs := regs_of_exec_regWr hw hv
    _ = writeParam p w (writeParam p w s.regs) := by rw [regs_of_exec_regWr hw hu]
    _ = writeParam p w s.regs := writeParam_writeParam p w s.regs
    _ = u.regs := (regs_of_exec_regWr hw hu).symm

/-! ### REG_RD per check it makes (R207) -/

section read
variable {s : State} {f : ValidField}

theorem exec_regRd_of_written {x : Reg} (h : isUnwritten s.regs x = false) :
    exec (.regRd (rselOfReg x) 0) s = respond (portValue s.regs x) s := by
  simp [exec, execRegRd, h]

theorem exec_regRd_of_unwritten {x : Reg} (h : isUnwritten s.regs x = true) :
    exec (.regRd (rselOfReg x) 0) s = raiseStatus .notConfigured s := by
  simp [exec, execRegRd, h]

/-- A register that no field of VALID covers can be read in every state (R40). -/
theorem regRd_endsWith_of_uncovered (x : Reg) (hx : coveredBy x = none) {v : Word64} (hv : portValue s.regs x = v)
    {rsel : BitVec 8} (hrsel : rsel = rselOfReg x) : endsWith (exec (.regRd rsel 0) s) s s.regs ⟨0, v⟩ := by
  rw [hrsel, exec_regRd_of_written (by simp [isUnwritten, hx]), hv]
  exact respond_endsWith v s.regs s

theorem regRd_endsWith_of_valid (x : Reg) (hx : coveredBy x = some f) (hf : isValid s.regs f = true) {v : Word64}
    (hv : portValue s.regs x = v) {rsel : BitVec 8} (hrsel : rsel = rselOfReg x) :
    endsWith (exec (.regRd rsel 0) s) s s.regs ⟨0, v⟩ := by
  rw [hrsel, exec_regRd_of_written (by simp [isUnwritten, hx, hf]), hv]
  exact respond_endsWith v s.regs s

theorem regRd_failsWith_of_invalid {x : Reg} (hx : coveredBy x = some f) (hf : ¬ isValid s.regs f = true) :
    failsWith (exec (.regRd (rselOfReg x) 0) s) s 6 := by
  rw [exec_regRd_of_unwritten (by simp [isUnwritten, hx, hf])]
  exact raiseStatus_failsWith .notConfigured s

end read

/-- Settles O24: a register is readable if no field of VALID covers it or the field that does is set. -/
theorem regRdReturnsTheRegister : Obligations.RegRdReturnsTheRegister := by
  refine fun rsel rsvd s => ⟨fun w => decode_word (i := .regRd rsel rsvd) rfl, ?_, fun hne => ?_, ?_, ?_⟩
  · rintro rfl
    exact ⟨regRd_endsWith_of_uncovered .pred rfl rfl,
      regRd_endsWith_of_uncovered .sidx rfl (BitVec.ofNat_toNat ..).symm,
      regRd_endsWith_of_uncovered .algo rfl rfl,
      regRd_endsWith_of_uncovered .s0 rfl rfl,
      regRd_endsWith_of_uncovered .s1 rfl rfl,
      regRd_endsWith_of_uncovered .errlog rfl rfl,
      regRd_endsWith_of_uncovered .valid rfl rfl,
      fun hcutoff => regRd_endsWith_of_valid .cutoff rfl hcutoff rfl,
      fun hq => regRd_endsWith_of_valid .qreg rfl hq rfl,
      fun hsrate => regRd_endsWith_of_valid .srate rfl hsrate (BitVec.ofNat_toNat ..).symm,
      fun hgdb => regRd_endsWith_of_valid .gainDb rfl hgdb rfl,
      fun hcoef => ⟨regRd_endsWith_of_valid .a0 rfl hcoef rfl, regRd_endsWith_of_valid .a1 rfl hcoef rfl,
        regRd_endsWith_of_valid .a2 rfl hcoef rfl, regRd_endsWith_of_valid .b1 rfl hcoef rfl,
        regRd_endsWith_of_valid .b2 rfl hcoef rfl, regRd_endsWith_of_valid .c0 rfl hcoef rfl,
        regRd_endsWith_of_valid .d0 rfl hcoef rfl⟩,
      fun hgain => regRd_endsWith_of_valid .gainLin rfl hgain rfl⟩
  · exact exec_failsWith_of_reservedZero_eq_false (i := .regRd rsel rsvd) (beq_eq_false_iff_ne.2 hne) s
  · rintro rfl hreserved
    rw [exec_regRd_of_unlisted (regOfRsel_of_reservedRsel hreserved)]
    exact raiseStatus_failsWith .illegalReg s
  · rintro rfl (⟨rfl, h⟩ | ⟨rfl, h⟩ | ⟨rfl, h⟩ | ⟨rfl, h⟩ | ⟨hlo, hhi, h⟩ | ⟨rfl, h⟩)
    · exact regRd_failsWith_of_invalid (x := .cutoff) rfl h
    · exact regRd_failsWith_of_invalid (x := .qreg) rfl h
    · exact regRd_failsWith_of_invalid (x := .srate) rfl h
    · exact regRd_failsWith_of_invalid (x := .gainDb) rfl h
    · obtain ⟨x, rfl, hx⟩ := exists_coefficient hlo hhi
      exact regRd_failsWith_of_invalid hx h
    · exact regRd_failsWith_of_invalid (x := .gainLin) rfl h

/-! ### What a parameter write invalidates (R205, R267) -/

/-- The field of VALID for what BQ_CALC or GAIN_CALC computes from a parameter. -/
def computedFrom (p : Param) : ValidField := if p = .gainDb then .gainV else .coefV

theorem isValid_computedFrom_writeParam (p : Param) (w : Word64) (r : Regs) :
    isValid (writeParam p w r) (computedFrom p) = false := by
  simp [isValid_writeParam, computedFrom]

/-- Settles O39: the write clears the field of what is computed from the parameter
(`isValid_computedFrom_writeParam`), which the commands that use it check. -/
theorem parameterWriteInvalidatesWhatItDetermines : Obligations.ParameterWriteInvalidatesWhatItDetermines := by
  intro rsel w s u v x hlegal hx hu
  obtain ⟨p, rfl, hw⟩ := exists_param_of_legalFor hlegal
  have hregs : u.regs = writeParam p w s.regs := regs_of_exec_regWr hw hu
  have hinvalid : isValid u.regs (computedFrom p) = false := by rw [hregs, isValid_computedFrom_writeParam]
  have hproc : ¬ (isValid u.regs .coefV = true ∧ isValid u.regs .gainV = true) := by
    unfold computedFrom at hinvalid
    split at hinvalid <;> simp [hinvalid]
  refine ⟨by rw [hregs, writeParam_s0], by rw [hregs, writeParam_s1], ?_, fun hp => ?_, fun hp => ?_⟩
  · rw [exec_bqProc_of_invalid v hproc]
    exact raiseStatus_failsWith .notConfigured u
  · have hcoef : isValid u.regs .coefV = false := by
      rwa [computedFrom, if_neg (by rintro rfl; exact hp rfl)] at hinvalid
    rw [exec_bqProcr_of_invalid hx hcoef]
    exact ⟨raiseStatus_failsWith .notConfigured u,
      regRd_failsWith_of_invalid (x := .a0) rfl (Bool.eq_false_iff.1 hcoef)⟩
  · obtain rfl : p = .gainDb := by
      revert hp
      cases p <;> decide
    exact regRd_failsWith_of_invalid (x := .gainLin) rfl (Bool.eq_false_iff.1 hinvalid)

end Sys2Proof.Machine
end

section
/-! SUPPORT. How a command ends (spec/60_exceptions.md R230 to R235): either it raises the lowest-numbered status whose
cause is present, or no cause is present and it responds and keeps ERRLOG (`exec_completes`, `transact_completes`). -/

namespace Sys2Proof.Machine

open Claims

/-! ### Every command completes (R230, R238) -/

/-- Settles O13: `transact_cases` in the claims' words. -/
theorem everyCommandCompletesWithOneResponse : Obligations.EveryCommandCompletesWithOneResponse := by
  intro t s
  obtain ⟨r, x, d, h⟩ := transact_cases t s
  exact ⟨r, x, d, h⟩

/-- Settles O14: the idle step and RST give a next state, and so does every transaction (`transact_cases`). -/
theorem noStepStops : Obligations.NoStepStops := by
  intro s
  obtain h | ⟨c, rest, -, h⟩ | ⟨t, rest, -, h⟩ := step_cases s
  · exact ⟨_, h⟩
  · exact ⟨_, h⟩
  · obtain ⟨r, x, d, ht⟩ := transact_cases t (takeEvent (.command t) rest s)
    exact ⟨_, h.trans ht⟩

/-! ### Causes (R231, R235) -/

/-- Every command checks its reserved fields first (R89). -/
theorem mayRaise_eq_cons (op : Opcode) : mayRaise op = 2 :: (mayRaise op).tail := by cases op <;> rfl

/-- A command has only the causes R235's table lists for it. -/
theorem mem_mayRaise_of_cause {k : Nat} {i : Instr} {s : State} (h : cause k i s) : k ∈ mayRaise (opcodeOf i) := by
  unfold cause at h
  split at h
  · rw [mayRaise_eq_cons]
    exact List.mem_cons_self
  any_goals simp [mayRaise, opcodeOf]
  exact h.elim

theorem two_le_of_mem_mayRaise {op : Opcode} : ∀ k ∈ mayRaise op, 2 ≤ k := by cases op <;> decide

/-- To exclude causes, those that R235's table lists for the command are enough. -/
theorem not_cause_of_listed {P : Nat → Prop} {i : Instr} {s : State}
    (h : ∀ k ∈ mayRaise (opcodeOf i), P k → ¬ cause k i s) : ∀ k, P k → ¬ cause k i s :=
  fun k hP hcause => h k (mem_mayRaise_of_cause hcause) hP hcause

/-! ### How a command ends -/

/-- With the causes `c` present, the outcome is that of the least of them, or with none a success, which keeps ERRLOG
unless the command is RESET. -/
inductive Completes (c : Nat → Prop) (isReset : Prop) (s : State) : Result → Prop where
  | fails (k : Status) (hcause : c (statusCode k).toNat) (hleast : ∀ j < (statusCode k).toNat, ¬ c j) :
      Completes c isReset s (raiseStatus k s)
  | succeeds (v : Word64) {u : State} (hnone : ∀ k, ¬ c k) (hresponses : u.responses = s.responses)
      (herrlog : ¬ isReset → u.regs.errlog = s.regs.errlog) : Completes c isReset s (respond v u)

theorem Completes.congr {c c' : Nat → Prop} {p p' : Prop} {s : State} {o : Result} (h : Completes c p s o)
    (hc : ∀ k, c' k ↔ c k) (hp : p → p') : Completes c' p' s o := by
  cases h with
  | fails k hcause hleast => exact .fails k ((hc _).2 hcause) fun j hj => mt (hc j).1 (hleast j hj)
  | succeeds v hnone hresponses herrlog =>
    exact .succeeds v (fun k => mt (hc k).1 (hnone k)) hresponses (herrlog ∘ mt hp)

/-- How the command `i` ends. -/
abbrev ExecCompletes (i : Instr) (s : State) : Prop := Completes (cause · i s) (i = .reset 0) s (exec i s)

section outcome
variable {i : Instr} {s : State}

theorem execCompletes_of_raiseStatus {k : Status} (hexec : exec i s = raiseStatus k s)
    (hcause : cause (statusCode k).toNat i s)
    (hleast : ∀ j ∈ mayRaise (opcodeOf i), j < (statusCode k).toNat → ¬ cause j i s) : ExecCompletes i s := by
  unfold ExecCompletes
  rw [hexec]
  exact .fails k hcause (not_cause_of_listed hleast)

theorem execCompletes_of_respond {v : Word64} {u : State} (hexec : exec i s = respond v u)
    (hnone : ∀ k ∈ mayRaise (opcodeOf i), ¬ cause k i s) (hresponses : u.responses = s.responses)
    (herrlog : i ≠ .reset 0 → u.regs.errlog = s.regs.errlog) : ExecCompletes i s := by
  unfold ExecCompletes
  rw [hexec]
  exact .succeeds v (fun k hk => hnone k (mem_mayRaise_of_cause hk) hk) hresponses herrlog

/-- A command whose only cause is a nonzero reserved field succeeds without one. -/
theorem not_cause_of_mayRaise_eq (hlist : mayRaise (opcodeOf i) = [2]) (hzero : reservedZero i = true) :
    ∀ k ∈ mayRaise (opcodeOf i), ¬ cause k i s := by
  rw [hlist]
  simpa [cause] using hzero

end outcome

/-! ### The causes of each command, in the model's words -/

section causes
variable {i : Instr} {x : Reg} {p : Param} {w : Word64} {s : State}

@[simp] theorem cause_reservedNonzero_iff : cause 2 i s ↔ reservedZero i = false := by simp [cause]

theorem not_reservedRsel_rselOfReg (x : Reg) : ¬ reservedRsel (rselOfReg x).toNat := fun h => by
  simpa using regOfRsel_of_reservedRsel h

@[simp] theorem not_cause_illegalReg_regWr {rsvd : BitVec 16} : ¬ cause 3 (.regWr (rselOfReg x) rsvd w) s :=
  not_reservedRsel_rselOfReg x

@[simp] theorem not_cause_illegalReg_regRd {rsvd : BitVec 16} : ¬ cause 3 (.regRd (rselOfReg x) rsvd) s :=
  not_reservedRsel_rselOfReg x

@[simp] theorem cause_readOnly_iff {rsvd : BitVec 16} :
    cause 4 (.regWr (rselOfReg x) rsvd w) s ↔ paramOf x = none := by
  cases x <;> simp [cause, readOnlyRsel, rselOfReg, paramOf]

theorem eq_regOfParam_of_paramOf (h : paramOf x = some p) : x = regOfParam p := by
  cases x <;> cases h <;> rfl

@[simp] theorem cause_illegalValue_regWr_iff {rsvd : BitVec 16} :
    cause 5 (.regWr (rselOfParam p) rsvd w) s ↔ legalValue p w = false := by
  have hrange : 0x08 ≤ (rselOfParam p).toNat ∧ (rselOfParam p).toNat ≤ 0x0C := by cases p <;> decide
  simp [cause, hrange, legalFor_rselOfParam_iff]

@[simp] theorem cause_illegalValue_bqProcr_iff {rsvd : BitVec 24} {v : F64} :
    cause 5 (.bqProcr rsvd v) s ↔ ¬ finite64 v := Iff.rfl

/-- The registers that can be unwritten (R40). -/
@[simp] theorem cause_notConfigured_regRd_iff {rsvd : BitVec 16} :
    cause 6 (.regRd (rselOfReg x) rsvd) s ↔ isUnwritten s.regs x = true := by
  cases x <;> simp [cause, rselOfReg, isUnwritten, coveredBy, isValid, validBit]

@[simp] theorem cause_notConfigured_bqCalc_iff {rsvd : BitVec 24} :
    cause 6 (.bqCalc rsvd) s ↔ ¬ paramsWritten s.regs := by
  simp only [cause, paramsWritten, not_and_or, Bool.not_eq_true]
  rfl

@[simp] theorem cause_notConfigured_gainCalc_iff {rsvd : BitVec 24} :
    cause 6 (.gainCalc rsvd) s ↔ isValid s.regs .gdbW = false := Iff.rfl

@[simp] theorem cause_notConfigured_bqProc_iff {rsvd : BitVec 24} {v : BitVec 32} :
    cause 6 (.bqProc rsvd v) s ↔ ¬ (isValid s.regs .coefV = true ∧ isValid s.regs .gainV = true) := by
  simp only [cause, not_and_or, Bool.not_eq_true]
  rfl

@[simp] theorem cause_notConfigured_bqProcr_iff {rsvd : BitVec 24} {v : F64} :
    cause 6 (.bqProcr rsvd v) s ↔ isValid s.regs .coefV = false := Iff.rfl

@[simp] theorem cause_notImplemented_iff {rsvd : BitVec 24} : cause 7 (.bqCalc rsvd) s ↔ s.regs.algo ≠ 3 := Iff.rfl

end causes

/-! ### Each command ends with its least cause -/

section perCommand
variable {s : State}

theorem execCompletes_regWr (rsel : BitVec 8) (w : Word64) : ExecCompletes (.regWr rsel 0 w) s := by
  cases hreg : regOfRsel rsel with
  | none =>
    refine execCompletes_of_raiseStatus (exec_regWr_of_unlisted hreg w s) (reservedRsel_of_unlisted rsel hreg) ?_
    simp [mayRaise, opcodeOf, statusCode, reservedZero]
  | some x =>
    obtain rfl := rselOfReg_of_regOfRsel hreg
    cases hparam : paramOf x with
    | none =>
      refine execCompletes_of_raiseStatus (exec_regWr_of_readOnly hparam w s) (cause_readOnly_iff.2 hparam) ?_
      simp [mayRaise, opcodeOf, statusCode, reservedZero]
    | some p =>
      obtain rfl := eq_regOfParam_of_paramOf hparam
      cases hlegal : legalValue p w with
      | false =>
        refine execCompletes_of_raiseStatus (exec_regWr_of_illegal (ne_true_of_eq_false hlegal))
          (cause_illegalValue_regWr_iff.2 hlegal) ?_
        simp [mayRaise, opcodeOf, statusCode, reservedZero]
      | true =>
        refine execCompletes_of_respond (exec_regWr_of_legal hlegal) ?_ rfl fun _ => writeParam_errlog ..
        simp [mayRaise, opcodeOf, reservedZero, hlegal]

theorem execCompletes_regRd (rsel : BitVec 8) : ExecCompletes (.regRd rsel 0) s := by
  cases hreg : regOfRsel rsel with
  | none =>
    refine execCompletes_of_raiseStatus (exec_regRd_of_unlisted hreg s) (reservedRsel_of_unlisted rsel hreg) ?_
    simp [mayRaise, opcodeOf, statusCode, reservedZero]
  | some x =>
    obtain rfl := rselOfReg_of_regOfRsel hreg
    cases hunwritten : isUnwritten s.regs x with
    | true =>
      refine execCompletes_of_raiseStatus (exec_regRd_of_unwritten hunwritten)
        (cause_notConfigured_regRd_iff.2 hunwritten) ?_
      simp [mayRaise, opcodeOf, statusCode, reservedZero]
    | false =>
      refine execCompletes_of_respond (exec_regRd_of_written hunwritten) ?_ rfl fun _ => rfl
      simp [mayRaise, opcodeOf, reservedZero, hunwritten]

theorem execCompletes_bqCalc : ExecCompletes (.bqCalc 0) s := by
  by_cases hwritten : paramsWritten s.regs
  · by_cases halgo : s.regs.algo = 3
    · refine execCompletes_of_respond (exec_bqCalc_of_written hwritten halgo) ?_ rfl fun _ => rfl
      simp [mayRaise, opcodeOf, reservedZero, hwritten, halgo]
    · refine execCompletes_of_raiseStatus (exec_bqCalc_of_otherAlgo hwritten halgo) halgo ?_
      simp [mayRaise, opcodeOf, statusCode, reservedZero, hwritten]
  · refine execCompletes_of_raiseStatus (exec_bqCalc_of_unwritten hwritten)
      (cause_notConfigured_bqCalc_iff.2 hwritten) ?_
    simp [mayRaise, opcodeOf, statusCode, reservedZero]

theorem execCompletes_gainCalc : ExecCompletes (.gainCalc 0) s := by
  cases hgdb : isValid s.regs .gdbW with
  | false =>
    refine execCompletes_of_raiseStatus (exec_gainCalc_of_unwritten hgdb) hgdb ?_
    simp [mayRaise, opcodeOf, statusCode, reservedZero]
  | true =>
    refine execCompletes_of_respond (exec_gainCalc_of_written hgdb) ?_ rfl fun _ => rfl
    simp [mayRaise, opcodeOf, reservedZero, hgdb]

theorem execCompletes_bqProc (v : BitVec 32) : ExecCompletes (.bqProc 0 v) s := by
  by_cases hvalid : isValid s.regs .coefV = true ∧ isValid s.regs .gainV = true
  · refine execCompletes_of_respond (exec_bqProc_of_valid v hvalid) ?_ rfl fun _ => rfl
    simp [mayRaise, opcodeOf, reservedZero, hvalid]
  · refine execCompletes_of_raiseStatus (exec_bqProc_of_invalid v hvalid) (cause_notConfigured_bqProc_iff.2 hvalid) ?_
    simp [mayRaise, opcodeOf, statusCode, reservedZero]

theorem execCompletes_bqProcr (x : F64) : ExecCompletes (.bqProcr 0 x) s := by
  by_cases hx : finite64 x
  · cases hcoef : isValid s.regs .coefV with
    | false =>
      refine execCompletes_of_raiseStatus (exec_bqProcr_of_invalid hx hcoef) hcoef ?_
      simp [mayRaise, opcodeOf, statusCode, reservedZero, hx]
    | true =>
      refine execCompletes_of_respond (exec_bqProcr_of_valid hx hcoef) ?_ rfl fun _ => rfl
      simp [mayRaise, opcodeOf, reservedZero, hx, hcoef]
  · refine execCompletes_of_raiseStatus (exec_bqProcr_of_not_finite hx) hx ?_
    simp [mayRaise, opcodeOf, statusCode, reservedZero]

end perCommand

/-- A command raises the least of its causes, or has none and responds (R231, R232). -/
theorem exec_completes (i : Instr) (s : State) : ExecCompletes i s := by
  cases hzero : reservedZero i with
  | false =>
    exact execCompletes_of_raiseStatus (exec_of_reservedZero_eq_false hzero s) (cause_reservedNonzero_iff.2 hzero)
      fun k hk hlt => absurd (two_le_of_mem_mayRaise k hk) (Nat.not_le.2 hlt)
  | true =>
    cases i with
    | nop rsvd | adInit rsvd | adNib rsvd n | adByte rsvd b | bqClr rsvd =>
      obtain rfl : rsvd = 0 := eq_of_beq hzero
      exact execCompletes_of_respond rfl (not_cause_of_mayRaise_eq rfl hzero) rfl fun _ => rfl
    | reset rsvd =>
      obtain rfl : rsvd = 0 := eq_of_beq hzero
      exact execCompletes_of_respond (exec_reset_zero s) (not_cause_of_mayRaise_eq rfl hzero) rfl fun h => absurd rfl h
    | regWr rsel rsvd w => exact eq_of_beq hzero ▸ execCompletes_regWr rsel w
    | regRd rsel rsvd => exact eq_of_beq hzero ▸ execCompletes_regRd rsel
    | bqCalc rsvd => exact eq_of_beq hzero ▸ execCompletes_bqCalc
    | gainCalc rsvd => exact eq_of_beq hzero ▸ execCompletes_gainCalc
    | bqProc rsvd v => exact eq_of_beq hzero ▸ execCompletes_bqProc v
    | bqProcr rsvd x => exact eq_of_beq hzero ▸ execCompletes_bqProcr x

/-! ### How a transaction ends -/

/-- The illegal OPC values are those that select no command (R88). -/
theorem opcodeOfByte_eq_none_iff {cmd : Word32} :
    opcodeOfByte (opcField cmd) = none ↔ illegalOpc (cmd.toNat / 2 ^ 24) := by
  refine ⟨fun h => ?_, opcodeOfByte_of_illegalOpc⟩
  have hall : ∀ b : BitVec 8, opcodeOfByte b = none → illegalOpc b.toNat := by unfold illegalOpc; decide
  exact toNat_opcField cmd ▸ hall _ h

/-- An illegal OPC has cause 1 alone. -/
theorem causeFor_of_illegalOpc {t : Transaction} (h : opcodeOfByte (opcField t.cmd) = none) {k : Nat} {s : State} :
    causeFor k t s ↔ k = 1 := by
  have hdecode : decode t = .illegalOpcode (opcField t.cmd) := by rw [decode, h]
  rw [causeFor, ← opcodeOfByte_eq_none_iff]
  simp [hdecode, h]

/-- A listed OPC has the causes of its command. -/
theorem causeFor_of_decode {t : Transaction} {i : Instr} (h : decode t = .instr i) {k : Nat} {s : State} :
    causeFor k t s ↔ cause k i s := by
  obtain ⟨op, hop, -⟩ := decode_eq_instr_iff.1 h
  rw [causeFor, ← opcodeOfByte_eq_none_iff]
  simp [h, hop]

/-- The command word of RESET is the only one that decodes to it. -/
theorem cmd_of_decode_reset {t : Transaction} (h : decode t = .instr (.reset 0)) : t.cmd = 0x30000000 :=
  (decodingDropsNoOperandBit t _ h).1.symm

/-- A transaction raises the least of its causes, ILLEGAL_OPCODE among them, or has none and its command responds. -/
theorem transact_completes (t : Transaction) (s : State) :
    Completes (causeFor · t s) (t.cmd = 0x30000000) s (transact t s) := by
  cases hop : opcodeOfByte (opcField t.cmd) with
  | none =>
    rw [transact_of_opcodeOfByte_eq_none hop]
    refine .fails .illegalOpcode ((causeFor_of_illegalOpc hop).2 rfl) fun j hj => ?_
    exact mt (causeFor_of_illegalOpc hop).1 (Nat.ne_of_lt hj)
  | some op =>
    have hdecode : decode t = .instr (operandsOf op t) := decode_eq_instr_iff.2 ⟨op, hop, rfl⟩
    rw [transact_of_decode hdecode]
    exact (exec_completes _ s).congr (fun k => causeFor_of_decode hdecode) fun hreset =>
      cmd_of_decode_reset (hreset ▸ hdecode)

end Sys2Proof.Machine
end

section
/-! SUPPORT. What the response of a command says of the state it leaves (spec/60_exceptions.md R231 to R235): the cause
it reports, what it writes to ERRLOG, and which statuses each command can raise. -/

namespace Sys2Proof.Machine

open Claims

/-! ### What the response says -/

/-- The status of the response tells how the command ended. -/
theorem Completes.response_cases {c : Nat → Prop} {p : Prop} {s u : State} {o : Result} {x : Response}
    (h : Completes c p s o) (hu : o = .next u) (hx : u.responses = x :: s.responses) :
    (∃ k, o = raiseStatus k s ∧ x = ⟨statusCode k, 0⟩ ∧ u.regs = logError k s.regs ∧
      c (statusCode k).toNat ∧ ∀ j < (statusCode k).toNat, ¬ c j) ∨
    (x.status = 0 ∧ (∀ k, ¬ c k) ∧ (¬ p → u.regs.errlog = s.regs.errlog)) := by
  cases h with
  | fails k hcause hleast =>
    obtain rfl := raiseStatus_eq_next hu
    obtain ⟨rfl, -⟩ := List.cons.inj hx
    exact .inl ⟨k, rfl, rfl, rfl, hcause, hleast⟩
  | succeeds v hnone hresponses herrlog =>
    obtain rfl := respond_eq_next hu
    obtain ⟨rfl, -⟩ := List.cons.inj hx
    exact .inr ⟨rfl, hnone, herrlog⟩

/-- Settles O15: a command that does not respond with status 0 is one shared operation, `raiseStatus`. -/
theorem failedCommandWritesOnlyItsErrlogBit : Obligations.FailedCommandWritesOnlyItsErrlogBit := by
  intro t s u x hu hx hne
  obtain ⟨k, hraise, rfl, -⟩ | ⟨hok, -⟩ := (transact_completes t s).response_cases hu hx
  · rw [hraise]
    exact ⟨(statusCode_bounds k).2, raiseStatus_failsWith k s⟩
  · exact absurd hok hne

/-- Settles O19: the two ways a transaction ends. -/
theorem lowestNumberedCauseIsReported : Obligations.LowestNumberedCauseIsReported := by
  intro t s u x hu hx
  obtain ⟨k, -, rfl, -, hcause, hleast⟩ | ⟨hok, hnone, -⟩ := (transact_completes t s).response_cases hu hx
  · exact ⟨fun h0 => absurd h0 (statusCode_ne_zero k), fun _ => ⟨hcause, hleast⟩⟩
  · exact ⟨fun _ => hnone, fun hne => absurd hok hne⟩

/-! ### ERRLOG (R37, R234) -/

/-- A status code and a number that fits in the status field are equal as words if they are as numbers. -/
theorem eq_ofNat_iff_toNat_eq {b : BitVec 4} {k : Nat} (hk : k ≤ 15) : b = BitVec.ofNat 4 k ↔ k = b.toNat := by
  rw [BitVec.toNat_eq, BitVec.toNat_ofNat, Nat.mod_eq_of_lt (by omega), eq_comm]

/-- RESET, as a command word, clears ERRLOG. -/
theorem transact_resetWord {t : Transaction} (h : t.cmd = 0x30000000) (s : State) :
    transact t s = respond 0 (withRegs regsReset s) := by
  obtain ⟨cmd, w⟩ := t
  obtain rfl : cmd = 0x30000000 := h
  exact (transact_of_decode (decode_word (i := .reset 0) (w := w) rfl) s).trans (exec_reset_zero s)

/-- Settles O16: raising status k sets bit k alone (`errlogSet_getLsbD`), and a success keeps ERRLOG. -/
theorem errlogRecordsEveryStatusUntilReset : Obligations.ErrlogRecordsEveryStatusUntilReset := by
  intro t s u x k hu hx hk1 hk7
  refine ⟨fun hnotReset => ?_, fun hreset => ?_⟩
  · have hstatus : (x.status == BitVec.ofNat 4 k) = decide (k = x.status.toNat) :=
      decide_eq_decide.2 (eq_ofNat_iff_toNat_eq (by omega))
    rw [hstatus]
    obtain ⟨l, -, rfl, hregs, -⟩ | ⟨hok, -, herrlog⟩ := (transact_completes t s).response_cases hu hx
    · rw [hregs, logError_errlog, errlogSet_getLsbD]
    · have hne : k ≠ x.status.toNat := by
        rw [hok]
        exact Nat.ne_of_gt hk1
      rw [herrlog hnotReset, decide_eq_false hne, Bool.or_false]
  · rw [transact_resetWord hreset] at hu
    obtain rfl := respond_eq_next hu
    obtain ⟨rfl, -⟩ := List.cons.inj hx
    exact ⟨rfl, rfl⟩

theorem errlogSet_ne_zero (v : Word64) (k : Status) : errlogSet v k ≠ 0 := fun h => by
  have hbit := errlogSet_getLsbD v k (statusCode k).toNat
  simp [h] at hbit

/-- ERRLOG is zero after a command other than RESET if it was before and the command succeeded. -/
theorem errlog_eq_zero_iff_of_transact {t : Transaction} {s u : State} {x : Response} (hu : transact t s = .next u)
    (hx : u.responses = x :: s.responses) (ht : t.cmd ≠ 0x30000000) :
    u.regs.errlog = 0 ↔ s.regs.errlog = 0 ∧ x.status = 0 := by
  obtain ⟨k, -, rfl, hregs, -⟩ | ⟨hok, -, herrlog⟩ := (transact_completes t s).response_cases hu hx
  · rw [hregs, logError_errlog]
    exact iff_of_false (errlogSet_ne_zero _ k) fun h => statusCode_ne_zero k h.2
  · rw [herrlog ht, and_iff_left hok]

/-- Every transaction of a list leaves one response, the newest first; ERRLOG stays zero while they succeed. -/
theorem transactAll_errlog {ts : List Transaction} {s u : State} (hu : transactAll ts s = .next u)
    (hts : ∀ t ∈ ts, t.cmd ≠ 0x30000000) :
    ∃ xs, xs.length = ts.length ∧ u.responses = xs ++ s.responses ∧
      (u.regs.errlog = 0 ↔ s.regs.errlog = 0 ∧ ∀ x ∈ xs, x.status = 0) := by
  induction ts generalizing s with
  | nil =>
    obtain rfl : s = u := Host.Outcome.next.inj hu
    exact ⟨[], rfl, rfl, by simp⟩
  | cons t ts ih =>
    obtain ⟨r, x, d, ht⟩ := transact_cases t s
    rw [transactAll, ht] at hu
    obtain ⟨xs, hlen, hresponses, herrlog⟩ := ih hu (List.forall_mem_of_forall_mem_cons hts)
    refine ⟨xs ++ [x], by simp [hlen], by simp [hresponses], ?_⟩
    rw [herrlog, errlog_eq_zero_iff_of_transact ht rfl (hts t List.mem_cons_self)]
    rw [List.forall_mem_append, List.forall_mem_singleton, and_assoc, and_comm (a := x.status = 0)]

/-- Settles O17: `transactAll_errlog`, for the responses of the list. -/
theorem errlogZeroMeansNoCommandFailed : Obligations.ErrlogZeroMeansNoCommandFailed := by
  intro ts s u hu hts hs
  obtain ⟨xs, hlen, hresponses, herrlog⟩ := transactAll_errlog hu hts
  rw [herrlog, hresponses, ← hlen, List.take_left]
  exact and_iff_right hs

/-! ### Which statuses a command can raise (R235) -/

/-- Some command with the operation code ends with status `k` in some state. -/
def CanRaise (op : Opcode) (k : Nat) : Prop :=
  ∃ i s u, opcodeOf i = op ∧ exec i s = .next u ∧ u.responses = ⟨BitVec.ofNat 4 k, 0⟩ :: s.responses ∧
    u.regs.errlog.getLsbD k = true

theorem canRaise_of_exec (i : Instr) (s : State) {k : Status} (h : exec i s = raiseStatus k s) :
    CanRaise (opcodeOf i) (statusCode k).toNat :=
  ⟨i, s, _, rfl, h, by simp, by simp [errlogSet_getLsbD]⟩

/-- CMD with every bit set below OPC has a nonzero reserved field, whatever the command. -/
theorem canRaise_reservedNonzero (op : Opcode) : CanRaise op 2 := by
  have hreserved : reservedZero (operandsOf op ⟨BitVec.allOnes 32, 0⟩) = false := by cases op <;> decide
  exact opcodeOf_operandsOf op _ ▸
    canRaise_of_exec _ State.reset (exec_of_reservedZero_eq_false hreserved State.reset)

/-- The reset state with CUTOFF, QREG and SRATE marked written and ALGO 0. -/
def otherAlgoState : State := withRegs { regsReset with algo := 0, valid := 7 } State.reset

/-- Each status of R235's table has a command and a state that raise it. -/
theorem canRaise_of_mem_mayRaise {op : Opcode} {k : Nat} (h : k ∈ mayRaise op) : CanRaise op k := by
  rw [mayRaise_eq_cons] at h
  obtain rfl | h := List.mem_cons.1 h
  · exact canRaise_reservedNonzero op
  cases op with
  | nop | adInit | adNib | adByte | bqClr | reset => cases h
  | regWr =>
    obtain rfl | rfl | rfl : k = 3 ∨ k = 4 ∨ k = 5 := by simpa [mayRaise] using h
    · exact canRaise_of_exec (.regWr 0x02 0 0) State.reset (k := .illegalReg) rfl
    · exact canRaise_of_exec (.regWr 0x00 0 0) State.reset (k := .readOnly) rfl
    · exact canRaise_of_exec (.regWr 0x08 0 6) State.reset (k := .illegalValue) rfl
  | regRd =>
    obtain rfl | rfl : k = 3 ∨ k = 6 := by simpa [mayRaise] using h
    · exact canRaise_of_exec (.regRd 0x02 0) State.reset (k := .illegalReg) rfl
    · exact canRaise_of_exec (.regRd 0x09 0) State.reset (k := .notConfigured) rfl
  | bqCalc =>
    obtain rfl | rfl : k = 6 ∨ k = 7 := by simpa [mayRaise] using h
    · exact canRaise_of_exec (.bqCalc 0) State.reset (k := .notConfigured) rfl
    · exact canRaise_of_exec (.bqCalc 0) otherAlgoState (k := .notImplemented) rfl
  | gainCalc =>
    obtain rfl : k = 6 := List.mem_singleton.1 h
    exact canRaise_of_exec (.gainCalc 0) State.reset (k := .notConfigured) rfl
  | bqProc =>
    obtain rfl : k = 6 := List.mem_singleton.1 h
    exact canRaise_of_exec (.bqProc 0 0) State.reset (k := .notConfigured) rfl
  | bqProcr =>
    obtain rfl | rfl : k = 5 ∨ k = 6 := by simpa [mayRaise] using h
    · exact canRaise_of_exec (.bqProcr 0 posInf) State.reset (k := .illegalValue) rfl
    · exact canRaise_of_exec (.bqProcr 0 posZero) State.reset (k := .notConfigured) rfl

/-- A status raised has its cause (`exec_completes`), and R235's table lists the causes of a command. -/
theorem mem_mayRaise_of_canRaise {op : Opcode} {k : Nat} (hk1 : 1 ≤ k) (hk15 : k ≤ 15) (h : CanRaise op k) :
    k ∈ mayRaise op := by
  obtain ⟨i, s, u, rfl, hu, hx, -⟩ := h
  have hcode {b : BitVec 4} : BitVec.ofNat 4 k = b → k = b.toNat := (eq_ofNat_iff_toNat_eq hk15).1 ∘ Eq.symm
  obtain ⟨l, -, hl, -, hcause, -⟩ | ⟨hok, -⟩ := (exec_completes i s).response_cases hu hx
  · obtain rfl := hcode (congrArg Response.status hl)
    exact mem_mayRaise_of_cause hcause
  · exact absurd (hcode hok) (Nat.ne_of_gt hk1)

/-- Settles O18: both directions of the table. -/
theorem commandsRaiseExactlyTheirStatuses : Obligations.CommandsRaiseExactlyTheirStatuses :=
  fun _ _ hk1 hk15 => ⟨mem_mayRaise_of_canRaise hk1 hk15, canRaise_of_mem_mayRaise⟩

end Sys2Proof.Machine
end

section
/-! SUPPORT. Reset, the idle port and the start of a stream (spec/70_reset_and_hazards.md R260 to R264): the step that takes
RST, and the two commands of STREAM_BEGIN one after the other. -/

namespace Sys2Proof.Machine

/-! ### Nothing issued (R262) -/

/-- Settles O7: `step_idle`, in every state. -/
theorem idleStepChangesNothing : Obligations.IdleStepChangesNothing := fun _ => step_idle

/-! ### RST (R260, R261) -/

/-- The step that takes RST resets the registers of the state in which the host's list has moved on. -/
theorem step_rst {s : State} {c : Option Transaction} {rest : List PortEvent} (h : s.pending = .rst c :: rest) :
    step s = .next (resetRegs (takeEvent (.rst c) rest s)) :=
  step_event h

/-- RST takes from the host's list the command it abandons, if one was in progress (R21, R261). -/
theorem commandsIn_rst (c : Option Transaction) : commandsIn (.rst c) = if c.isSome then 1 else 0 := by
  cases c <;> rfl

/-- Settles O26: by `step_rst` the registers are `regsReset` and the rest is the host's, of which `commandsIn_rst` gives the
index. -/
theorem hardwareResetAbandonsTheCommand : Obligations.HardwareResetAbandonsTheCommand := by
  intro s c rest hpending
  have hposition : (takeEvent (.rst c) rest s).position = s.position + if c.isSome then 1 else 0 :=
    congrArg (s.position + ·) (commandsIn_rst c)
  exact ⟨_, step_rst hpending, rfl, rfl, rfl, rfl, rfl, rfl, rfl, rfl, rfl, rfl, hposition⟩

/-! ### STREAM_BEGIN (R93, R264) -/

/-- AD_INIT (R121). -/
theorem adInit_succeeds (s : State) : ∃ u, Succeeds (.adInit 0) s (writeAdpcm 0 0 s.regs) u :=
  ⟨_, exec_adInit_zero s, rfl, rfl⟩

/-- STREAM_BEGIN succeeds from any state: AD_INIT clears the codec's registers, then BQ_CLR the delay registers. -/
theorem streamBegin_run (s : State) :
    ∃ u, transactAll (streamBegin.map encode) s = .next u ∧
      u.regs = writeDelay posZero posZero (writeAdpcm 0 0 s.regs) ∧
      u.responses = ⟨0, 0⟩ :: ⟨0, 0⟩ :: s.responses := by
  obtain ⟨s1, h1⟩ := adInit_succeeds s
  obtain ⟨s2, h2⟩ := bqClr_succeeds s1
  refine ⟨s2, ?_, by rw [h2.regs, h1.regs], by rw [h2.responses, h1.responses]⟩
  rw [streamBegin, transactAll_cons_of_succeeds h1, transactAll_cons_of_succeeds h2, List.map_nil, transactAll]

/-- Settles O55: `streamBegin_run`, whose two register writes are the four registers and no other. -/
theorem streamBeginForgetsTheEarlierStream : Obligations.StreamBeginForgetsTheEarlierStream := streamBegin_run

end Sys2Proof.Machine
end
